-- ==== Sys2Proof/Word.lean ====
section
/-! DEFINITION. The word types of the AWGN-BER block: 64-bit registers and bus words (00_scope.md R9),
bytes (20_memory.md R58) and 28-bit bus addresses (20_memory.md R51). -/

namespace Sys2Proof

/-- A register, bus word, command word or binary64 pattern: 64 bits (00_scope.md R9, R11). -/
abbrev Word := BitVec 64

/-- A byte of a buffer word (20_memory.md R58). -/
abbrev Byte := BitVec 8

/-- A bus byte address: 28 bits (20_memory.md R51). -/
abbrev Addr := BitVec 28

/-- `s64(v)`: the two's-complement integer of a word (00_scope.md R9). -/
abbrev s64 (v : Word) : Int := v.toInt

/-- `u64(v)`: the unsigned integer of a word (00_scope.md R9). -/
abbrev u64 (v : Word) : Nat := v.toNat

end Sys2Proof
end

