-- ==== Sys2Proof/Config.lean ====
section
/-! DEFINITION. The parameters of the block (00_scope.md R6, R7) and the free values its spec leaves open
(93_implementation_defined.md U1 to U10). Every `opaque` constant has no body: no proof can see its value. -/

namespace Sys2Proof.Config

/-- The smallest legal capacity (00_scope.md R6). -/
def nMaxMin : Nat := 64

/-- The largest legal capacity, 2^20 (00_scope.md R6). -/
def nMaxMax : Nat := 1048576

/-- The legal values of N_MAX: "a multiple of 64 with 64 <= N_MAX <= 2^20" (00_scope.md R6). -/
abbrev nMaxLegal (n : Nat) : Prop := n % 64 = 0 ∧ nMaxMin ≤ n ∧ n ≤ nMaxMax

/-- Selects this implementation's capacity; any number, so `nMax` ranges over every legal value. Log entry 1. -/
opaque nMaxIndex : Nat

/-- N_MAX, the capacity of the buffers in bits (00_scope.md R6): one of the 16384 legal values, not said which.
Log entry 1. -/
def nMax : Nat := 64 * (nMaxIndex % 16384 + 1)

/-- `Pow10` outside its required points (00_scope.md R7, U1): any pattern the implementation gives. Log entry 2. -/
opaque pow10Free : Word → Word

/-- Sign and payload of a NaN result (00_scope.md R11, U10): 52 free bits for each draw and each place in a command.
Log entry 4. -/
opaque nanDraw : Nat → Nat → BitVec 52

/-- What a buffer byte that nothing has written since reset number `epoch` reads as (10_state.md R48, U3): one free
draw for each reset and each byte address. Log entry 3. -/
opaque bufferDraw : Nat → Nat → Byte

/-- What a host read returns that the spec calls unspecified (20_memory.md R66, 70_reset_and_hazards.md R232, U5, U6):
one free draw for each value of the draw counter. Log entries 5 and 11. -/
opaque readDraw : Nat → Word

end Sys2Proof.Config
end

