-- ==== Sys2Proof/Syntax.lean ====
section
/-! DEFINITION. The commands of ABB-1, one constructor for each row of spec/opcode_table.json (30_encoding.md R83),
and the error outcomes of a command (60_exceptions.md R200). Every operand is implicit (30_encoding.md R88), so no
constructor has an argument. -/

namespace Sys2Proof

/-- The modulation scheme a SCHEME field names: 0 BPSK, 1 QPSK (30_encoding.md R82). -/
inductive Scheme where
  | bpsk
  | qpsk
  deriving DecidableEq, Repr

/-- The twelve commands of 30_encoding.md R83. -/
inductive Instr where
  /-- NOP (44_control.md R180). -/
  | nop
  /-- MOD.BPSK (40_modulator.md R101). -/
  | modBpsk
  /-- MOD.QPSK (40_modulator.md R102). -/
  | modQpsk
  /-- AWGN.BPSK (41_awgn.md R124). -/
  | awgnBpsk
  /-- AWGN.QPSK (41_awgn.md R125). -/
  | awgnQpsk
  /-- DEMOD.BPSK (42_demodulator.md R141). -/
  | demodBpsk
  /-- DEMOD.QPSK (42_demodulator.md R142). -/
  | demodQpsk
  /-- COUNT (43_ber_counter.md R160). -/
  | count
  /-- ESTIMATE (43_ber_counter.md R161). -/
  | estimate
  /-- RUN.BPSK (44_control.md R182). -/
  | runBpsk
  /-- RUN.QPSK (44_control.md R183). -/
  | runQpsk
  /-- CLEAR (44_control.md R181). -/
  | clear
  deriving DecidableEq, Repr

/-- The four errors a command can end with (60_exceptions.md R200). -/
inductive CmdError where
  /-- InvalidInput, code 1: recoverable (60_exceptions.md R201). -/
  | invalidInput
  /-- InvalidScheme, code 2: recoverable (60_exceptions.md R202). -/
  | invalidScheme
  /-- LengthMismatch, code 3: fatal (60_exceptions.md R203, R211). -/
  | lengthMismatch
  /-- IllegalCommand, code 4: recoverable (60_exceptions.md R204). -/
  | illegalCommand
  deriving DecidableEq, Repr

end Sys2Proof
end

