-- ==== Sys2Proof/WellFormed.lean ====
section
/-! DEFINITION. Well-formedness: of a command word (30_encoding.md R82, R85, R86) and of a command. A command has no
operand field (30_encoding.md R88), so nothing in it can be out of range; what can be ill-formed is a word. -/

namespace Sys2Proof

/-- OP, bits 3:0 of a command word (30_encoding.md R81). -/
def opField (c : Word) : BitVec 4 := c.extractLsb' 0 4

/-- SCHEME, bits 5:4 of a command word (30_encoding.md R81). -/
def schemeField (c : Word) : BitVec 2 := c.extractLsb' 4 2

/-- RSV, bits 63:6 of a command word (30_encoding.md R81). -/
def rsvField (c : Word) : BitVec 58 := c.extractLsb' 6 58

/-- RSV must be 0 (30_encoding.md R85). -/
def rsvClear (c : Word) : Bool := rsvField c == 0

/-- OP is one of 0x0 to 0x7 (30_encoding.md R83, R86). -/
def opAssigned (c : Word) : Bool := (opField c).ult 8

/-- MOD, AWGN, DEMOD and RUN depend on SCHEME; NOP, COUNT, ESTIMATE and CLEAR ignore it (30_encoding.md R83, R87). -/
def schemeDependent (op : BitVec 4) : Bool := op == 1 || op == 2 || op == 3 || op == 6

/-- SCHEME is 0 or 1 where the operation depends on it (30_encoding.md R82). -/
def schemeRecognised (c : Word) : Bool := !schemeDependent (opField c) || (schemeField c).ult 2

/-- A word that is some command of the table: the three checks of 30_encoding.md R84. -/
def wordWellFormed (c : Word) : Bool := rsvClear c && opAssigned c && schemeRecognised c

/-- Every command is well-formed: format C has no operand field to be out of range (30_encoding.md R88). -/
def Instr.wellFormed (_ : Instr) : Bool := true

end Sys2Proof
end

