-- ==== Sys2Proof/Decode.lean ====
section
/-! DEFINITION. Decoding of command words (30_encoding.md R84), total, rejecting by error name; the encoder and the
match and mask table (30_encoding.md R83). -/

namespace Sys2Proof

/-- One command for each scheme of a scheme-dependent operation; SCHEME 2 and 3 are InvalidScheme
(30_encoding.md R82, R84). -/
def byScheme (sc : BitVec 2) (bpsk qpsk : Instr) : Except CmdError Instr :=
  if sc = 0 then .ok bpsk else if sc = 1 then .ok qpsk else .error .invalidScheme

/-- The decode function of 30_encoding.md R84: RSV first, then OP, then SCHEME. -/
def decode (c : Word) : Except CmdError Instr :=
  if rsvField c ≠ 0 then .error .illegalCommand
  else if 8 ≤ (opField c).toNat then .error .illegalCommand
  else match (opField c).toNat with
    | 0 => .ok .nop
    | 1 => byScheme (schemeField c) .modBpsk .modQpsk
    | 2 => byScheme (schemeField c) .awgnBpsk .awgnQpsk
    | 3 => byScheme (schemeField c) .demodBpsk .demodQpsk
    | 4 => .ok .count
    | 5 => .ok .estimate
    | 6 => byScheme (schemeField c) .runBpsk .runQpsk
    | 7 => .ok .clear
    | _ => .error .illegalCommand

/-- The OP value of a command (30_encoding.md R83). -/
def opOf : Instr → BitVec 4
  | .nop => 0
  | .modBpsk => 1
  | .modQpsk => 1
  | .awgnBpsk => 2
  | .awgnQpsk => 2
  | .demodBpsk => 3
  | .demodQpsk => 3
  | .count => 4
  | .estimate => 5
  | .runBpsk => 6
  | .runQpsk => 6
  | .clear => 7

/-- The scheme of a scheme-dependent command (30_encoding.md R83). -/
def schemeOf : Instr → Option Scheme
  | .nop => none
  | .modBpsk => some .bpsk
  | .modQpsk => some .qpsk
  | .awgnBpsk => some .bpsk
  | .awgnQpsk => some .qpsk
  | .demodBpsk => some .bpsk
  | .demodQpsk => some .qpsk
  | .count => none
  | .estimate => none
  | .runBpsk => some .bpsk
  | .runQpsk => some .qpsk
  | .clear => none

/-- The SCHEME value of a scheme; 0 where the command ignores the field (30_encoding.md R82, R83). -/
def schemeBits : Option Scheme → BitVec 2
  | none => 0
  | some .bpsk => 0
  | some .qpsk => 1

/-- The command word of a command, field by field: RSV 0, SCHEME, OP (30_encoding.md R81, R83). -/
def encode (i : Instr) : Word := (0 : BitVec 58) ++ schemeBits (schemeOf i) ++ opOf i

/-- The "mask" column of 30_encoding.md R83: SCHEME is not compared where it is ignored. -/
def rowMask (i : Instr) : Word :=
  match schemeOf i with
  | none => 0xFFFFFFFFFFFFFFCF
  | some _ => 0xFFFFFFFFFFFFFFFF

/-- The "word" column of 30_encoding.md R83. -/
def rowWord : Instr → Word
  | .nop => 0x0000000000000000
  | .modBpsk => 0x0000000000000001
  | .modQpsk => 0x0000000000000011
  | .awgnBpsk => 0x0000000000000002
  | .awgnQpsk => 0x0000000000000012
  | .demodBpsk => 0x0000000000000003
  | .demodQpsk => 0x0000000000000013
  | .count => 0x0000000000000004
  | .estimate => 0x0000000000000005
  | .runBpsk => 0x0000000000000006
  | .runQpsk => 0x0000000000000016
  | .clear => 0x0000000000000007

/-- The command the decoder reads from an opcode-table row's word of `nbits` bits (bits above them are 0); none where
the decoder answers an error. A command is one 64-bit word (30_encoding.md R80), so nothing follows it. -/
def decodeTableWord (nbits w : Nat) : Option Instr :=
  match decode (BitVec.ofNat 64 (w % 2 ^ nbits)) with
  | .ok i => some i
  | .error _ => none

end Sys2Proof
end

