-- ==== Sys2Proof/Machine/State.lean ====
section
/-! DEFINITION. The state of the block (10_state.md R20), the events that can befall it, and its state after reset
(70_reset_and_hazards.md R230). Plain data throughout. -/

namespace Sys2Proof.Machine

/-- The reasons a step could stop with a fault: none. The block has no traps; every error is an outcome of a command,
reported in STATUS (60_exceptions.md R200, R210), and a malformed access has no effect (20_memory.md R52, R57). Safe: no
step of the hardware is left out. Log entry 17. -/
inductive Fault where
  deriving DecidableEq, Repr

/-- The reasons a step could be refused. -/
inductive Refusal where
  /-- Raised by an arm of `exec` whose command has no meaning yet; no arm raises it: every command is modelled. Safe. -/
  | notModelled (mnemonic : String)
  deriving DecidableEq, Repr

/-- STATUS.ERRCODE: the outcome of the last completed command, one of the codes 0 to 4 (10_state.md R24,
60_exceptions.md R200); `none` is code 0. Codes 5 to 15 are never produced and have no value here. Log entry 13. -/
abbrev ErrCode := Option CmdError

/-- The fields of STATUS (10_state.md R24); its reserved bits read as 0 and have no storage. Log entry 13. -/
structure Status where
  /-- BUSY, bit 0: a command is in flight. -/
  busy : Bool
  /-- DONE, bit 1: a command has completed. -/
  done : Bool
  /-- FATAL, bit 2: a command has completed with LengthMismatch since reset. -/
  fatal : Bool
  /-- DROP, bit 3: a host write or a command has been dropped. -/
  drop : Bool
  /-- ERRCODE, bits 11:8. -/
  errCode : ErrCode
  deriving DecidableEq, Repr

/-- A bus transaction (20_memory.md R51): a 64-bit read or a 64-bit write at a 28-bit byte address. -/
inductive Transaction where
  /-- MemRead(addr, 8). -/
  | read (addr : Addr)
  /-- MemWrite(addr, 8, v). -/
  | write (addr : Addr) (v : Word)
  deriving DecidableEq, Repr

/-- One move of the system: of the host, of the block, or of the reset input (00_scope.md R5). Log entry 8. -/
inductive Event where
  /-- The host performs a transaction (20_memory.md R51, R60). -/
  | host (t : Transaction)
  /-- The block's turn: it completes the command in flight, if there is one (60_exceptions.md R209, R210). -/
  | complete
  /-- rst is 1 at a clock edge (70_reset_and_hazards.md R230); `lost` is a transaction on that same edge (R232). -/
  | reset (lost : Option Transaction)
  deriving DecidableEq, Repr

/-- The bytes of the five buffers written since the last reset, as address and byte pairs. The canonical form is
strictly rising addresses (`Memory.wf`); an unlisted byte has no written value and reads as its free draw. Log entry 3. -/
abbrev Memory := List Host.Cell

/-- The state of the block (10_state.md R20), then four fields of the model's own: `epoch`, `draws`, `events` and
`rdata`. ID and CMD have no storage (10_state.md R22, R26); irq is a function (R45). -/
structure State where
  /-- CTRL.IE (10_state.md R23); CTRL's other bits are RAZ/WI and have no storage. -/
  ie : Bool
  /-- STATUS (10_state.md R24). -/
  status : Status
  /-- N_BITS (10_state.md R27). -/
  nBits : Word
  /-- SNR_DB (10_state.md R28). -/
  snrDb : Word
  /-- SYM_N (10_state.md R29). -/
  symN : Word
  /-- RSYM_N (10_state.md R30). -/
  rsymN : Word
  /-- RX_N (10_state.md R31). -/
  rxN : Word
  /-- SIGMA (10_state.md R32). -/
  sigma : Word
  /-- ERR_CNT (10_state.md R33). -/
  errCnt : Word
  /-- BIT_CNT (10_state.md R34). -/
  bitCnt : Word
  /-- BER (10_state.md R35). -/
  ber : Word
  /-- NMAX (10_state.md R36): the only home of the parameter N_MAX; no step writes it. Log entry 1. -/
  nmax : Word
  /-- CUR, the in-flight command latch (10_state.md R44). -/
  cur : Word
  /-- The buffers TXB, RXB, NOISE, SYM and RSYM (10_state.md R39 to R43), by bus byte address (20_memory.md R53). -/
  mem : Memory
  /-- The model's own: how many resets have passed, which selects the free draws of unwritten bytes. Log entry 14. -/
  epoch : Nat
  /-- The model's own: where the next fresh free value is drawn. Log entry 14. -/
  draws : Nat
  /-- The model's own: the moves still to come, the next one first. Log entry 8. -/
  events : List Event
  /-- The model's own: what the last MemRead returned (20_memory.md R51). Log entry 10. -/
  rdata : Word
  deriving DecidableEq, Repr

/-- STATUS after reset: 0 (10_state.md R21, R24). -/
def Status.reset : Status :=
  { busy := false, done := false, fatal := false, drop := false, errCode := none }

/-- The state right after reset (70_reset_and_hazards.md R230, 10_state.md R21): every register at its reset value,
NMAX at N_MAX (log entry 1), CUR at 0 (log entry 7), no buffer byte written, no event pending. -/
def State.reset : State where
  ie := false
  status := Status.reset
  nBits := 0
  snrDb := 0
  symN := 0
  rsymN := 0
  rxN := 0
  sigma := 0
  errCnt := 0
  bitCnt := 0
  ber := 0
  nmax := BitVec.ofNat 64 Config.nMax
  cur := 0
  mem := []
  epoch := 0
  draws := 0
  events := []
  rdata := 0

/-- N_MAX as a number (00_scope.md R6, 10_state.md R36). -/
def State.nMax (s : State) : Nat := s.nmax.toNat

end Sys2Proof.Machine
end

