-- ==== Sys2Proof/Machine/Flags.lean ====
section
/-! DEFINITION. STATUS as a word and every way it changes (10_state.md R24, R25; 60_exceptions.md R207 to R215), CTRL as
a word (10_state.md R23), and the interrupt output (10_state.md R45). -/

namespace Sys2Proof.Machine

/-- The code of an outcome in STATUS.ERRCODE (60_exceptions.md R200). -/
def errCodeBits : ErrCode → Word
  | none => 0
  | some .invalidInput => 1
  | some .invalidScheme => 2
  | some .lengthMismatch => 3
  | some .illegalCommand => 4

/-- A word with one bit set where the flag is 1. -/
def flagBit (b : Bool) (i : Nat) : Word := if b then (1 : Word) <<< i else 0

/-- The value a read of STATUS returns (10_state.md R24): reserved bits 7:4 and 63:12 are 0. -/
def statusWord (st : Status) : Word :=
  flagBit st.busy 0 ||| flagBit st.done 1 ||| flagBit st.fatal 2 ||| flagBit st.drop 3 |||
    (errCodeBits st.errCode <<< 8)

/-- The value a read of CTRL returns: IE in bit 0, bits 63:1 read as 0 (10_state.md R23). -/
def ctrlWord (ie : Bool) : Word := flagBit ie 0

/-- A host write of `v` to STATUS: bit 1 clears DONE, bit 3 clears DROP, every other bit is ignored (10_state.md R25). -/
def Status.writeOneToClear (st : Status) (v : Word) : Status :=
  { st with
    done := if v.getLsbD 1 then false else st.done
    drop := if v.getLsbD 3 then false else st.drop }

/-- STATUS at acceptance: BUSY 1, DONE 0 (60_exceptions.md R208). -/
def Status.accepted (st : Status) : Status := { st with busy := true, done := false }

/-- STATUS after a dropped write or command: DROP 1 (20_memory.md R65, 60_exceptions.md R207). -/
def Status.dropped (st : Status) : Status := { st with drop := true }

/-- STATUS at a successful completion: ERRCODE 0, BUSY 0, DONE 1 (60_exceptions.md R209). -/
def Status.succeeded (st : Status) : Status := { st with busy := false, done := true, errCode := none }

/-- STATUS at a completion with error `e`: ERRCODE, BUSY 0, DONE 1, and FATAL 1 for LengthMismatch
(60_exceptions.md R210). -/
def Status.failed (st : Status) (e : CmdError) : Status :=
  { st with
    busy := false
    done := true
    errCode := some e
    fatal := if e = .lengthMismatch then true else st.fatal }

/-- The interrupt output, a level: irq = CTRL.IE AND STATUS.DONE (10_state.md R45). -/
def State.irq (s : State) : Bool := s.ie && s.status.done

end Sys2Proof.Machine
end

