-- ==== Sys2Proof/Machine/Ops.lean ====
section
/-! DEFINITION. The named operations over memory and over the command lifecycle: bytes and words of the buffers
(20_memory.md R58), acceptance and drop (60_exceptions.md R207, R208), completion with success and with an error
(R209, R210), and reset (70_reset_and_hazards.md R230 to R232). -/

namespace Sys2Proof.Machine

/-- The written byte at an address, if one has been written since the last reset. -/
def lookupByte : Memory → Nat → Option Byte
  | [], _ => none
  | c :: m, a => if c.1 = a then some c.2 else lookupByte m a

/-- Write one byte, keeping the addresses strictly rising. -/
def insertByte : Memory → Nat → Byte → Memory
  | [], a, b => [(a, b)]
  | c :: m, a, b =>
    if a < c.1 then (a, b) :: c :: m
    else if a = c.1 then (a, b) :: m
    else c :: insertByte m a b

/-- The canonical form of memory: strictly rising addresses. An unlisted address holds no written value, so no entry
repeats what an unlisted address holds, and memories with equal contents are equal lists. Log entry 3. -/
def Memory.wf : Memory → Bool
  | [] => true
  | [_] => true
  | c :: d :: m => decide (c.1 < d.1) && Memory.wf (d :: m)

/-- Byte `k` of a word is its bits 8k+7 : 8k (20_memory.md R58). -/
def byteOf (v : Word) (k : Nat) : Byte := v.extractLsb' (8 * k) 8

/-- The byte at a buffer address: the written value, or the free draw of this reset's unwritten entry
(10_state.md R48, R49). What an unlisted address reads as is decided here and nowhere else. Log entry 3. -/
def readByte (s : State) (a : Nat) : Byte := (lookupByte s.mem a).getD (Config.bufferDraw s.epoch a)

/-- The 64-bit word at a buffer address, little-endian (20_memory.md R58). -/
def readWord (s : State) (a : Nat) : Word :=
  readByte s (a + 7) ++ readByte s (a + 6) ++ readByte s (a + 5) ++ readByte s (a + 4) ++
    readByte s (a + 3) ++ readByte s (a + 2) ++ readByte s (a + 1) ++ readByte s a

/-- Write the low `k` bytes of a word, the first at the lowest address (20_memory.md R58). -/
def storeBytes (m : Memory) (a : Nat) (v : Word) : Nat → Memory
  | 0 => m
  | k + 1 => insertByte (storeBytes m a v k) (a + k) (byteOf v k)

/-- Write the 64-bit word at a buffer address, little-endian (20_memory.md R58). -/
def writeWord (s : State) (a : Nat) (v : Word) : State := { s with mem := storeBytes s.mem a v 8 }

/-- Error entry, the ONE operation by which a command ends with an error (60_exceptions.md R205, R210): only STATUS
changes; no state is saved, there is no vector and no mode change. -/
def raise (e : CmdError) (s : State) : State := { s with status := s.status.failed e }

/-- Successful completion (60_exceptions.md R209), given the state after the command's effects. It is also how an error
is left behind: returning needs no action, the next successful completion sets ERRCODE to 0 (R212). -/
def retire (s : State) : State := { s with status := s.status.succeeded }

/-- The completion step of a command (60_exceptions.md R209, R210): from the state `s` before it and what its rule gives
(the state after its effects, or the error it raises). An error keeps `s` but for STATUS (R205). -/
def finish (s : State) (r : Except CmdError State) : Host.Outcome State Fault Refusal :=
  match r with
  | .ok t => .next (retire t)
  | .error e => .next (raise e s)

/-- The acceptance step: CUR <- c, BUSY <- 1, DONE <- 0, nothing else (60_exceptions.md R208). -/
def accept (c : Word) (s : State) : State := { s with cur := c, status := s.status.accepted }

/-- A dropped write or command: DROP <- 1, nothing else (20_memory.md R65, 60_exceptions.md R207). -/
def dropWrite (s : State) : State := { s with status := s.status.dropped }

/-- A host write of `c` to CMD: accepted when BUSY = 0 and FATAL = 0, otherwise dropped (60_exceptions.md R207). -/
def submit (c : Word) (s : State) : State :=
  if !s.status.busy && !s.status.fatal then accept c s else dropWrite s

/-- The reset event (70_reset_and_hazards.md R230, R231): every register at its reset value, a command in flight
abandoned, every buffer entry a fresh free draw (10_state.md R48). NMAX is constant (10_state.md R36); the model's own
draw counter, pending events and read-data latch are no state of the block and stay. Log entries 3, 7 and 14. -/
def resetBlock (s : State) : State :=
  { State.reset with
    nmax := s.nmax
    epoch := s.epoch + 1
    draws := s.draws
    events := s.events
    rdata := s.rdata }

/-- A read that returns an unspecified value: a fresh free draw (20_memory.md R66, 70_reset_and_hazards.md R232). -/
def readFree (s : State) : State := { s with rdata := Config.readDraw s.draws, draws := s.draws + 1 }

/-- A transaction on the same clock edge as an asserted rst is lost: a write has no effect, a read returns an
unspecified value (70_reset_and_hazards.md R232). Log entry 11. -/
def loseTransaction (t : Option Transaction) (s : State) : State :=
  match t with
  | some (.read _) => readFree s
  | some (.write _ _) => s
  | none => s

/-- The next event is taken from the list. -/
def withEvents (s : State) (es : List Event) : State := { s with events := es }

end Sys2Proof.Machine
end

