-- ==== Sys2Proof/Machine/Float64.lean ====
section
/-! DEFINITION. The binary64 primitives of 00_scope.md R11 and Pow10 (R7), on 64-bit patterns, in exact natural-number
arithmetic narrowed once: correctly rounded, to nearest, ties to even, nothing fused. An operation takes as its first
argument the pattern it answers when its result is a NaN (93_implementation_defined.md U10). Log entries 4 and 15. -/

namespace Sys2Proof.Machine

/-- +1.0 (00_scope.md R11). -/
def ONE : Word := 0x3FF0000000000000
/-- -1.0 (00_scope.md R11). -/
def MONE : Word := 0xBFF0000000000000
/-- +0.0 (00_scope.md R11). -/
def PZERO : Word := 0x0000000000000000
/-- 2.0 (00_scope.md R11). -/
def TWO : Word := 0x4000000000000000
/-- 10.0 (00_scope.md R11). -/
def TEN : Word := 0x4024000000000000
/-- +infinity (00_scope.md R11). -/
def PINF : Word := 0x7FF0000000000000

/-- The sign, bit 63 (00_scope.md R11). -/
def signBit (x : Word) : Bool := x.getLsbD 63

/-- The biased exponent, bits 62:52 (00_scope.md R11). -/
def expField (x : Word) : Nat := (x.extractLsb' 52 11).toNat

/-- The fraction, bits 51:0 (00_scope.md R11). -/
def fracField (x : Word) : Nat := (x.extractLsb' 0 52).toNat

/-- A NaN: exponent all ones, fraction not 0. -/
def isNaN (x : Word) : Bool := expField x == 2047 && fracField x != 0

/-- An infinity: exponent all ones, fraction 0. -/
def isInf (x : Word) : Bool := expField x == 2047 && fracField x == 0

/-- `isFinite(x)`: neither an infinity nor a NaN (00_scope.md R11). -/
def isFinite (x : Word) : Bool := expField x != 2047

/-- A zero of either sign. -/
def isZero (x : Word) : Bool := expField x == 0 && fracField x == 0

/-- `gt0(x)`: x is not NaN and x > 0 (00_scope.md R11). -/
def gt0 (x : Word) : Bool := !isNaN x && !signBit x && !isZero x

/-- 1074: the smallest positive binary64 value is 2^-1074, and every finite one is a multiple of it. -/
def unitExp : Nat := 1074

/-- The magnitude of a finite value in units of 2^-1074 (00_scope.md R11: subnormal where the exponent field is 0, with
the implicit leading one elsewhere). -/
def magnitude (x : Word) : Nat :=
  if expField x = 0 then fracField x else (2 ^ 52 + fracField x) * 2 ^ (expField x - 1)

/-- The signed value of a finite pattern in units of 2^-1074. -/
def signedMagnitude (x : Word) : Int := if signBit x then -(magnitude x : Int) else magnitude x

/-- n / d rounded to the nearest integer, ties to even. -/
def divNearestEven (n d : Nat) : Nat :=
  if 2 * (n % d) < d then n / d
  else if d < 2 * (n % d) then n / d + 1
  else n / d + n / d % 2

/-- The pattern of +infinity as a number; a rounded magnitude at or above it overflows to infinity. -/
def infPattern : Nat := 0x7FF0000000000000

/-- The pattern, sign aside, of the binary64 value nearest (n / d) * 2^-1074, ties to even (00_scope.md R11). With k the
number of low bits to give up (0 for a subnormal), the significand is n / (d * 2^k) rounded, and k * 2^52 + significand is
the pattern, also where rounding carries into the next exponent. -/
def roundMagnitude (n d : Nat) : Nat :=
  min ((Nat.log2 (n / d) - 52) * 2 ^ 52 + divNearestEven n (d * 2 ^ (Nat.log2 (n / d) - 52))) infPattern

/-- A pattern from its sign and its other 63 bits. -/
def packSign (neg : Bool) (mag : Nat) : Word := BitVec.ofNat 64 ((if neg then 2 ^ 63 else 0) + mag)

/-- A quiet NaN whose sign and payload are the given free bits: exponent all ones, bit 51 set (00_scope.md R11, U10). -/
def quietNaN (free : BitVec 52) : Word := free.extractLsb' 51 1 ++ (0xFFF : BitVec 12) ++ free.extractLsb' 0 51

/-- The free NaN pattern of one place in one command (00_scope.md R11). Log entry 4. -/
def nanAt (draw site : Nat) : Word := quietNaN (Config.nanDraw draw site)

/-- `add64(a, b)` (00_scope.md R11). -/
def add64 (nan a b : Word) : Word :=
  if isNaN a || isNaN b then nan
  else if isInf a then (if isInf b && signBit a != signBit b then nan else a)
  else if isInf b then b
  else if signedMagnitude a + signedMagnitude b = 0 then packSign (signBit a && signBit b) 0
  else packSign (decide (signedMagnitude a + signedMagnitude b < 0))
    (roundMagnitude (signedMagnitude a + signedMagnitude b).natAbs 1)

/-- `mul64(a, b)` (00_scope.md R11). -/
def mul64 (nan a b : Word) : Word :=
  if isNaN a || isNaN b then nan
  else if isInf a || isInf b then
    (if isZero a || isZero b then nan else packSign (signBit a != signBit b) infPattern)
  else packSign (signBit a != signBit b) (roundMagnitude (magnitude a * magnitude b) (2 ^ unitExp))

/-- `div64(a, b)` (00_scope.md R11): nonzero by zero is a signed infinity, 0/0 is NaN. -/
def div64 (nan a b : Word) : Word :=
  if isNaN a || isNaN b then nan
  else if isInf a then (if isInf b then nan else packSign (signBit a != signBit b) infPattern)
  else if isInf b then packSign (signBit a != signBit b) 0
  else if isZero b then
    (if isZero a then nan else packSign (signBit a != signBit b) infPattern)
  else packSign (signBit a != signBit b) (roundMagnitude (magnitude a * 2 ^ unitExp) (magnitude b))

/-- The largest r < 2^i whose square added to what stands above it stays within a: one bit of an integer square root at
a time, from bit i - 1 down, on top of the bits already in r. -/
def rootBits (a : Nat) : Nat → Nat → Nat
  | 0, r => r
  | i + 1, r => rootBits a i (if (r + 2 ^ i) * (r + 2 ^ i) ≤ a then r + 2 ^ i else r)

/-- sqrt(a) / 2^k rounded to the nearest integer, ties to even, for a root below 2^53: its floor is `rootBits`, and it
rounds up where 4a is beyond (2r+1)^2 * 4^k. -/
def rootNearestEven (a k : Nat) : Nat :=
  let r := rootBits (a / 4 ^ k) 53 0
  if 4 * a < (2 * r + 1) * (2 * r + 1) * 4 ^ k then r
  else if (2 * r + 1) * (2 * r + 1) * 4 ^ k < 4 * a then r + 1
  else r + r % 2

/-- The pattern of the binary64 value nearest sqrt(a) * 2^-1074, ties to even (00_scope.md R11). -/
def roundRoot (a : Nat) : Nat := (Nat.log2 a / 2 - 52) * 2 ^ 52 + rootNearestEven a (Nat.log2 a / 2 - 52)

/-- `sqrt64(a)` (00_scope.md R11): a value < 0 other than -0.0 gives NaN. -/
def sqrt64 (nan a : Word) : Word :=
  if isNaN a then nan
  else if isZero a then a
  else if signBit a then nan
  else if isInf a then a
  else packSign false (roundRoot (magnitude a * 2 ^ unitExp))

/-- `rnd64(n / d)`: the binary64 value nearest an exact rational, ties to even (00_scope.md R11); zero is +0.0. -/
def rnd64 (n d : Nat) : Word :=
  if n = 0 then PZERO else packSign false (roundMagnitude (n * 2 ^ unitExp) d)

/-- The integer 0 to 22 a pattern denotes, if it denotes one; -0.0 counts as 0 (00_scope.md R7 (a)). -/
def smallInteger (x : Word) : Option Nat :=
  if isFinite x && magnitude x % 2 ^ unitExp == 0 && decide (magnitude x / 2 ^ unitExp ≤ 22) &&
      (!signBit x || isZero x) then
    some (magnitude x / 2 ^ unitExp)
  else none

/-- Some NaN: the given free pattern where it is one (00_scope.md R7 (b): "Pow10(NaN) is a NaN", no more). -/
def someNaN (free : Word) : Word := if isNaN free then free else 0x7FF8000000000000

/-- `Pow10` (00_scope.md R7): the required points, and the implementation's own value everywhere else. Log entry 2. -/
def pow10 (x : Word) : Word :=
  if isNaN x then someNaN (Config.pow10Free x)
  else if isInf x then (if signBit x then PZERO else PINF)
  else match smallInteger x with
    | some k => rnd64 (10 ^ k) 1
    | none => Config.pow10Free x

end Sys2Proof.Machine
end

