-- ==== Sys2Proof/Machine/Operands.lean ====
section
/-! DEFINITION. The operand forms: bits of TXB and RXB, samples of NOISE, entries of SYM and RSYM, at their bus
addresses (20_memory.md R53 to R56), and the loops that store a command's results (30_encoding.md R88). -/

namespace Sys2Proof.Machine

/-- Base of the TXB region (20_memory.md R53). -/
def txbBase : Nat := 0x1000000
/-- Base of the RXB region (20_memory.md R53). -/
def rxbBase : Nat := 0x2000000
/-- Base of the NOISE region (20_memory.md R53). -/
def noiseBase : Nat := 0x4000000
/-- Base of the SYM region (20_memory.md R53). -/
def symBase : Nat := 0x8000000
/-- Base of the RSYM region (20_memory.md R53). -/
def rsymBase : Nat := 0xC000000

/-- The address of the word that holds bit i of a bit buffer (20_memory.md R54). -/
def bitWordAddr (base i : Nat) : Nat := base + 8 * (i / 64)

/-- Bit i of a bit buffer: bit i mod 64 of its word (20_memory.md R54). -/
def bitAt (s : State) (base i : Nat) : Bool := (readWord s (bitWordAddr base i)).getLsbD (i % 64)

/-- TXB[i] (20_memory.md R54). -/
def txb (s : State) (i : Nat) : Bool := bitAt s txbBase i

/-- RXB[i] (20_memory.md R54). -/
def rxb (s : State) (i : Nat) : Bool := bitAt s rxbBase i

/-- The address of NOISE[j] (20_memory.md R55). -/
def noiseAddr (j : Nat) : Nat := noiseBase + 8 * j

/-- NOISE[j] (20_memory.md R55). -/
def noise (s : State) (j : Nat) : Word := readWord s (noiseAddr j)

/-- The address of the real part of entry k of a symbol buffer (20_memory.md R56). -/
def reAddr (base k : Nat) : Nat := base + 16 * k

/-- The address of the imaginary part of entry k of a symbol buffer (20_memory.md R56). -/
def imAddr (base k : Nat) : Nat := base + 16 * k + 8

/-- SYM[k].re (20_memory.md R56). -/
def symRe (s : State) (k : Nat) : Word := readWord s (reAddr symBase k)

/-- SYM[k].im (20_memory.md R56). -/
def symIm (s : State) (k : Nat) : Word := readWord s (imAddr symBase k)

/-- RSYM[k].re (20_memory.md R56). -/
def rsymRe (s : State) (k : Nat) : Word := readWord s (reAddr rsymBase k)

/-- RSYM[k].im (20_memory.md R56). -/
def rsymIm (s : State) (k : Nat) : Word := readWord s (imAddr rsymBase k)

/-- A word with bit i set to b and every other bit kept. -/
def setBit (w : Word) (i : Nat) (b : Bool) : Word :=
  if b then w ||| ((1 : Word) <<< i) else w &&& ~~~((1 : Word) <<< i)

/-- Write bit i of a bit buffer; the other bits of its word keep their values (42_demodulator.md R144). -/
def writeBit (s : State) (base i : Nat) (b : Bool) : State :=
  writeWord s (bitWordAddr base i) (setBit (readWord s (bitWordAddr base i)) (i % 64) b)

/-- for i in 0 .. n-1: bit i of the buffer <- f i. -/
def storeBits (base : Nat) (f : Nat → Bool) : Nat → State → State
  | 0, s => s
  | n + 1, s => writeBit (storeBits base f n s) base n (f n)

/-- for k in 0 .. n-1: entry k of the symbol buffer <- (re k, im k). -/
def storeSymbols (base : Nat) (re im : Nat → Word) : Nat → State → State
  | 0, s => s
  | n + 1, s =>
    writeWord (writeWord (storeSymbols base re im n s) (reAddr base n) (re n)) (imAddr base n) (im n)

/-- The number of i in 0 .. n-1 with TXB[i] != RXB[i] (43_ber_counter.md R160). -/
def bitErrors (s : State) : Nat → Nat
  | 0 => 0
  | n + 1 => bitErrors s n + (if txb s n != rxb s n then 1 else 0)

/-- A count as a register value (00_scope.md R9: the value fits wherever a rule writes one). -/
def countWord (n : Nat) : Word := BitVec.ofNat 64 n

end Sys2Proof.Machine
end

