-- ==== Sys2Proof/Machine/Bus.lean ====
section
/-! DEFINITION. The host's side: the address map (20_memory.md R51 to R57), register reads and writes (10_state.md R21 to
R38), and host transactions, also while a command is in flight (20_memory.md R59, R65, R66). -/

namespace Sys2Proof.Machine

/-- The fourteen registers (10_state.md R21). -/
inductive Reg where
  | id | ctrl | status | cmd | nBits | snrDb | symN | rsymN | rxN | sigma | errCnt | bitCnt | ber | nmax
  deriving DecidableEq, Repr

/-- The five buffer regions (20_memory.md R53). -/
inductive Region where
  | txb | rxb | noise | sym | rsym
  deriving DecidableEq, Repr

/-- What an address names (20_memory.md R52, R53, R57; 10_state.md R37). -/
inductive Location where
  /-- `addr[2:0] != 0` (20_memory.md R52). -/
  | misaligned
  /-- A register (10_state.md R21). -/
  | reg (r : Reg)
  /-- A reserved register offset, 0x070 to 0xFF8 (10_state.md R37). -/
  | reserved
  /-- A word of a buffer (20_memory.md R54 to R56). -/
  | buffer (r : Region)
  /-- No location (20_memory.md R57). -/
  | unmapped
  deriving DecidableEq, Repr

/-- The register at an aligned offset of the register region (10_state.md R21). -/
def regAt (offset : Nat) : Location :=
  match offset with
  | 0x000 => .reg .id
  | 0x008 => .reg .ctrl
  | 0x010 => .reg .status
  | 0x018 => .reg .cmd
  | 0x020 => .reg .nBits
  | 0x028 => .reg .snrDb
  | 0x030 => .reg .symN
  | 0x038 => .reg .rsymN
  | 0x040 => .reg .rxN
  | 0x048 => .reg .sigma
  | 0x050 => .reg .errCnt
  | 0x058 => .reg .bitCnt
  | 0x060 => .reg .ber
  | 0x068 => .reg .nmax
  | _ => .reserved

/-- The base of a region (20_memory.md R53). -/
def Region.base : Region → Nat
  | .txb => txbBase
  | .rxb => rxbBase
  | .noise => noiseBase
  | .sym => symBase
  | .rsym => rsymBase

/-- The size of a region in bytes for N = N_MAX (20_memory.md R53). -/
def Region.bytes (n : Nat) : Region → Nat
  | .txb => n / 8
  | .rxb => n / 8
  | .noise => 8 * n
  | .sym => 16 * n
  | .rsym => 16 * n

/-- Inside a region's window: mapped up to the region's size, unmapped past it (20_memory.md R57). -/
def inWindow (n a : Nat) (r : Region) : Location := if a < r.base + r.bytes n then .buffer r else .unmapped

/-- The address map (20_memory.md R52, R53, R57), for N = N_MAX. A window ends where the next base begins (log entry 16). -/
def locate (n : Nat) (addr : Addr) : Location :=
  let a := addr.toNat
  if a % 8 ≠ 0 then .misaligned
  else if a < 0x1000 then regAt a
  else if a < txbBase then .unmapped
  else if a < rxbBase then inWindow n a .txb
  else if a < noiseBase then inWindow n a .rxb
  else if a < symBase then inWindow n a .noise
  else if a < rsymBase then inWindow n a .sym
  else inWindow n a .rsym

/-- The identification constant "ABB1" (00_scope.md R2, 10_state.md R22). -/
def idWord : Word := 0x0000000041424231

/-- The current value of a register as a read gives it (10_state.md R21 to R36). -/
def readReg (s : State) : Reg → Word
  | .id => idWord
  | .ctrl => ctrlWord s.ie
  | .status => statusWord s.status
  | .cmd => 0
  | .nBits => s.nBits
  | .snrDb => s.snrDb
  | .symN => s.symN
  | .rsymN => s.rsymN
  | .rxN => s.rxN
  | .sigma => s.sigma
  | .errCnt => s.errCnt
  | .bitCnt => s.bitCnt
  | .ber => s.ber
  | .nmax => s.nmax

/-- The current value at a location (10_state.md R37, 20_memory.md R52, R54 to R57). -/
def readLocation (s : State) (addr : Addr) : Location → Word
  | .misaligned => 0
  | .reg r => readReg s r
  | .reserved => 0
  | .buffer _ => readWord s addr.toNat
  | .unmapped => 0

/-- The write set of a command, besides STATUS (20_memory.md R66). -/
def writeSet (i : Instr) (loc : Location) : Bool :=
  match i with
  | .nop => false
  | .modBpsk => loc == .buffer .sym || loc == .reg .symN
  | .modQpsk => loc == .buffer .sym || loc == .reg .symN
  | .awgnBpsk => loc == .buffer .rsym || loc == .reg .rsymN || loc == .reg .sigma
  | .awgnQpsk => loc == .buffer .rsym || loc == .reg .rsymN || loc == .reg .sigma
  | .demodBpsk => loc == .buffer .rxb || loc == .reg .rxN
  | .demodQpsk => loc == .buffer .rxb || loc == .reg .rxN
  | .count => loc == .reg .errCnt || loc == .reg .bitCnt
  | .estimate => loc == .reg .ber
  | .runBpsk => runWriteSet loc
  | .runQpsk => runWriteSet loc
  | .clear => loc == .reg .errCnt || loc == .reg .bitCnt || loc == .reg .ber
where
  /-- The row of RUN.BPSK and RUN.QPSK. -/
  runWriteSet (loc : Location) : Bool :=
    loc == .buffer .sym || loc == .buffer .rsym || loc == .buffer .rxb || loc == .reg .symN ||
      loc == .reg .rsymN || loc == .reg .rxN || loc == .reg .sigma || loc == .reg .errCnt ||
      loc == .reg .bitCnt || loc == .reg .ber

/-- A command word with its SCHEME field at 0. -/
def withoutScheme (c : Word) : Word := c &&& 0xFFFFFFFFFFFFFFCF

/-- The write set of the command word in flight (20_memory.md R66): its command's row; none for an IllegalCommand. For an
unrecognised SCHEME it is the row of its operation, which both schemes share (log entry 6). -/
def inFlightWriteSet (c : Word) (loc : Location) : Bool :=
  match decode (withoutScheme c) with
  | .ok i => writeSet i loc
  | .error _ => false

/-- MemRead(addr, 8) (20_memory.md R51, R59, R66): the current value, except that while BUSY = 1 a word in the write set of
the command in flight gives a fresh free draw. -/
def hostRead (addr : Addr) (s : State) : State :=
  if s.status.busy && inFlightWriteSet s.cur (locate s.nMax addr) then readFree s
  else { s with rdata := readLocation s addr (locate s.nMax addr) }

/-- A write that is dropped while BUSY = 1 and otherwise has the effect `t` (20_memory.md R65). -/
def unlessBusy (s t : State) : State := if s.status.busy then dropWrite s else t

/-- A write of `v` to a register (10_state.md R21 to R38, 20_memory.md R65). -/
def writeReg (s : State) (v : Word) : Reg → State
  | .id => s
  | .ctrl => { s with ie := v.getLsbD 0 }
  | .status => { s with status := s.status.writeOneToClear v }
  | .cmd => submit v s
  | .nBits => unlessBusy s { s with nBits := v }
  | .snrDb => unlessBusy s { s with snrDb := v }
  | .symN => unlessBusy s { s with symN := v }
  | .rsymN => unlessBusy s { s with rsymN := v }
  | .rxN => unlessBusy s { s with rxN := v }
  | .sigma => s
  | .errCnt => s
  | .bitCnt => s
  | .ber => s
  | .nmax => s

/-- MemWrite(addr, 8, v) (20_memory.md R51, R52, R57, R65; 10_state.md R37, R38). -/
def hostWrite (addr : Addr) (v : Word) (s : State) : State :=
  match locate s.nMax addr with
  | .misaligned => s
  | .reg r => writeReg s v r
  | .reserved => s
  | .buffer _ => unlessBusy s (writeWord s addr.toNat v)
  | .unmapped => s

/-- One host transaction (20_memory.md R51, R60). -/
def transact (t : Transaction) (s : State) : State :=
  match t with
  | .read addr => hostRead addr s
  | .write addr v => hostWrite addr v s

end Sys2Proof.Machine
end

