-- ==== Sys2Proof/Machine/Awgn.lean ====
section
/-! DEFINITION. AWGN.BPSK and AWGN.QPSK (41_awgn.md R120 to R130). The places of a command where a NaN can arise are
numbered: 0 to 3 in the deviation, then four for each symbol (log entry 4). -/

namespace Sys2Proof.Machine

/-- The linear SNR L = Pow10(div64(SNR_DB, TEN)) (41_awgn.md R120). -/
def linearSnr (draw : Nat) (snrDb : Word) : Word := pow10 (div64 (nanAt draw 0) snrDb TEN)

/-- The BPSK deviation sqrt64(div64(ONE, mul64(TWO, L))) (41_awgn.md R121). -/
def sigmaBpsk (draw : Nat) (snrDb : Word) : Word :=
  sqrt64 (nanAt draw 3) (div64 (nanAt draw 2) ONE (mul64 (nanAt draw 1) TWO (linearSnr draw snrDb)))

/-- The QPSK per-axis deviation sqrt64(div64(div64(ONE, L), TWO)) (41_awgn.md R122). -/
def sigmaQpsk (draw : Nat) (snrDb : Word) : Word :=
  sqrt64 (nanAt draw 3) (div64 (nanAt draw 2) (div64 (nanAt draw 1) ONE (linearSnr draw snrDb)) TWO)

/-- A symbol part with noise: add64(x, mul64(sigma, g)), two roundings (41_awgn.md R124, R125). `site` and `site + 1`
number its two places for a NaN. -/
def addNoise (draw site : Nat) (sigma x g : Word) : Word :=
  add64 (nanAt draw (site + 1)) x (mul64 (nanAt draw site) sigma g)

/-- The body of AWGN.BPSK for m symbols at deviation sigma (41_awgn.md R124): one real draw a symbol, the imaginary part
copied. -/
def awgnBpskBody (sigma : Word) (m : Nat) (s : State) : State :=
  { storeSymbols rsymBase (fun i => addNoise s.draws (4 + 4 * i) sigma (symRe s i) (noise s i))
      (fun i => symIm s i) m s with
    rsymN := countWord m
    sigma := sigma
    draws := s.draws + 1 }

/-- The body of AWGN.QPSK for m symbols at deviation sigma (41_awgn.md R125): the I draws are NOISE[0 .. m-1], the Q
draws NOISE[m .. 2m-1]. -/
def awgnQpskBody (sigma : Word) (m : Nat) (s : State) : State :=
  { storeSymbols rsymBase (fun k => addNoise s.draws (4 + 4 * k) sigma (symRe s k) (noise s k))
      (fun k => addNoise s.draws (6 + 4 * k) sigma (symIm s k) (noise s (m + k))) m s with
    rsymN := countWord m
    sigma := sigma
    draws := s.draws + 1 }

/-- The symbol-count check of AWGN.BPSK: 1 <= SYM_N <= N_MAX (41_awgn.md R124). -/
def awgnBpskCountValid (s : State) : Bool := decide (1 ≤ u64 s.symN) && decide (u64 s.symN ≤ s.nMax)

/-- The symbol-count check of AWGN.QPSK: 1 <= SYM_N <= N_MAX / 2 (41_awgn.md R125). -/
def awgnQpskCountValid (s : State) : Bool := decide (1 ≤ u64 s.symN) && decide (u64 s.symN ≤ s.nMax / 2)

/-- AWGN.BPSK: its checks in order, then its body (41_awgn.md R124). -/
def awgnBpskRule (s : State) : Except CmdError State :=
  if !awgnBpskCountValid s then .error .invalidInput
  else if !isFinite (sigmaBpsk s.draws s.snrDb) then .error .invalidInput
  else .ok (awgnBpskBody (sigmaBpsk s.draws s.snrDb) (u64 s.symN) s)

/-- AWGN.QPSK: its checks in order, then its body (41_awgn.md R125). -/
def awgnQpskRule (s : State) : Except CmdError State :=
  if !awgnQpskCountValid s then .error .invalidInput
  else if !isFinite (sigmaQpsk s.draws s.snrDb) then .error .invalidInput
  else .ok (awgnQpskBody (sigmaQpsk s.draws s.snrDb) (u64 s.symN) s)

/-- AWGN.BPSK (41_awgn.md R124). -/
def execAwgnBpsk (s : State) : Host.Outcome State Fault Refusal := finish s (awgnBpskRule s)

/-- AWGN.QPSK (41_awgn.md R125). -/
def execAwgnQpsk (s : State) : Host.Outcome State Fault Refusal := finish s (awgnQpskRule s)

end Sys2Proof.Machine
end

