-- ==== Sys2Proof/Machine/Modulator.lean ====
section
/-! DEFINITION. MOD.BPSK and MOD.QPSK (40_modulator.md R100 to R106). -/

namespace Sys2Proof.Machine

/-- The QPSK amplitude A = div64(ONE, sqrt64(TWO)) (40_modulator.md R103). -/
def qpskA : Word := 0x3FE6A09E667F3BCC

/-- neg(A): A with bit 63 set (40_modulator.md R102). -/
def qpskNegA : Word := 0xBFE6A09E667F3BCC

/-- n = s64(R[N_BITS]). -/
def bitCount (s : State) : Int := s64 s.nBits

/-- The bit-count check for BPSK: 1 <= n <= N_MAX (40_modulator.md R100). -/
def bpskCountValid (s : State) : Bool := decide (1 ≤ bitCount s) && decide (bitCount s ≤ s.nMax)

/-- The bit-count check for QPSK: also even (40_modulator.md R100). -/
def qpskCountValid (s : State) : Bool := bpskCountValid s && decide (bitCount s % 2 = 0)

/-- The symbol part of a bit: `one` for 1, `zero` for 0. -/
def bitSymbol (one zero : Word) (b : Bool) : Word := if b then one else zero

/-- The body of MOD.BPSK for n bits (40_modulator.md R101). -/
def modBpskBody (n : Nat) (s : State) : State :=
  { storeSymbols symBase (fun i => bitSymbol ONE MONE (txb s i)) (fun _ => PZERO) n s with symN := countWord n }

/-- The body of MOD.QPSK for n bits (40_modulator.md R102): b0 = TXB[2k], b1 = TXB[2k+1]. -/
def modQpskBody (n : Nat) (s : State) : State :=
  { storeSymbols symBase (fun k => bitSymbol qpskA qpskNegA (txb s (2 * k)))
      (fun k => bitSymbol qpskA qpskNegA (txb s (2 * k + 1))) (n / 2) s with symN := countWord (n / 2) }

/-- MOD.BPSK: its checks, then its body (40_modulator.md R101). -/
def modBpskRule (s : State) : Except CmdError State :=
  if bpskCountValid s then .ok (modBpskBody (bitCount s).toNat s) else .error .invalidInput

/-- MOD.QPSK: its checks, then its body (40_modulator.md R102). -/
def modQpskRule (s : State) : Except CmdError State :=
  if qpskCountValid s then .ok (modQpskBody (bitCount s).toNat s) else .error .invalidInput

/-- MOD.BPSK (40_modulator.md R101). -/
def execModBpsk (s : State) : Host.Outcome State Fault Refusal := finish s (modBpskRule s)

/-- MOD.QPSK (40_modulator.md R102). -/
def execModQpsk (s : State) : Host.Outcome State Fault Refusal := finish s (modQpskRule s)

end Sys2Proof.Machine
end

