-- ==== Sys2Proof/Machine/BerCounter.lean ====
section
/-! DEFINITION. COUNT and ESTIMATE (43_ber_counter.md R160 to R165). -/

namespace Sys2Proof.Machine

/-- BIT_CNT + n would exceed 2^64 - 1 (43_ber_counter.md R160). -/
def bitCntOverflows (s : State) (n : Nat) : Bool := decide (2 ^ 64 - 1 < u64 s.bitCnt + n)

/-- The body of COUNT for n bits (43_ber_counter.md R160). The sums fit wherever R46 holds (log entry 16). -/
def countBody (n : Nat) (s : State) : State :=
  { s with
    errCnt := countWord (u64 s.errCnt + bitErrors s n)
    bitCnt := countWord (u64 s.bitCnt + n) }

/-- COUNT: its checks in order, then its body (43_ber_counter.md R160, 60_exceptions.md R206). -/
def countRule (s : State) : Except CmdError State :=
  if !bpskCountValid s then .error .invalidInput
  else if (u64 s.rxN : Int) ≠ bitCount s then .error .lengthMismatch
  else if bitCntOverflows s (bitCount s).toNat then .error .invalidInput
  else .ok (countBody (bitCount s).toNat s)

/-- The body of ESTIMATE: BER <- rnd64(e / b), the exact rational rounded once (43_ber_counter.md R161). -/
def estimateBody (s : State) : State := { s with ber := rnd64 (u64 s.errCnt) (u64 s.bitCnt) }

/-- ESTIMATE: its check, then its body (43_ber_counter.md R161). -/
def estimateRule (s : State) : Except CmdError State :=
  if u64 s.bitCnt = 0 then .error .invalidInput else .ok (estimateBody s)

/-- COUNT (43_ber_counter.md R160). -/
def execCount (s : State) : Host.Outcome State Fault Refusal := finish s (countRule s)

/-- ESTIMATE (43_ber_counter.md R161). -/
def execEstimate (s : State) : Host.Outcome State Fault Refusal := finish s (estimateRule s)

end Sys2Proof.Machine
end

