-- ==== Sys2Proof/Machine/Demodulator.lean ====
section
/-! DEFINITION. DEMOD.BPSK and DEMOD.QPSK (42_demodulator.md R140 to R144). -/

namespace Sys2Proof.Machine

/-- The decision function dec(x) = gt0(x) ? 1 : 0 (42_demodulator.md R140). -/
def decide64 (x : Word) : Bool := gt0 x

/-- The bit decided for position i of a QPSK sequence: the real part gives the even positions, the imaginary part the odd
ones (42_demodulator.md R142). -/
def qpskDecision (s : State) (i : Nat) : Bool :=
  if i % 2 = 0 then decide64 (rsymRe s (i / 2)) else decide64 (rsymIm s (i / 2))

/-- The body of DEMOD.BPSK for m symbols (42_demodulator.md R141). -/
def demodBpskBody (m : Nat) (s : State) : State :=
  { storeBits rxbBase (fun i => decide64 (rsymRe s i)) m s with rxN := countWord m }

/-- The body of DEMOD.QPSK for m symbols (42_demodulator.md R142): two bits a symbol, b0 first. -/
def demodQpskBody (m : Nat) (s : State) : State :=
  { storeBits rxbBase (fun i => qpskDecision s i) (2 * m) s with rxN := countWord (2 * m) }

/-- The symbol-count check of DEMOD.BPSK: 1 <= RSYM_N <= N_MAX (42_demodulator.md R141). -/
def demodBpskCountValid (s : State) : Bool := decide (1 ≤ u64 s.rsymN) && decide (u64 s.rsymN ≤ s.nMax)

/-- The symbol-count check of DEMOD.QPSK: 1 <= RSYM_N <= N_MAX / 2 (42_demodulator.md R142). -/
def demodQpskCountValid (s : State) : Bool := decide (1 ≤ u64 s.rsymN) && decide (u64 s.rsymN ≤ s.nMax / 2)

/-- DEMOD.BPSK: its check, then its body (42_demodulator.md R141). -/
def demodBpskRule (s : State) : Except CmdError State :=
  if demodBpskCountValid s then .ok (demodBpskBody (u64 s.rsymN) s) else .error .invalidInput

/-- DEMOD.QPSK: its check, then its body (42_demodulator.md R142). -/
def demodQpskRule (s : State) : Except CmdError State :=
  if demodQpskCountValid s then .ok (demodQpskBody (u64 s.rsymN) s) else .error .invalidInput

/-- DEMOD.BPSK (42_demodulator.md R141). -/
def execDemodBpsk (s : State) : Host.Outcome State Fault Refusal := finish s (demodBpskRule s)

/-- DEMOD.QPSK (42_demodulator.md R142). -/
def execDemodQpsk (s : State) : Host.Outcome State Fault Refusal := finish s (demodQpskRule s)

end Sys2Proof.Machine
end

