-- ==== Sys2Proof/Machine/Control.lean ====
section
/-! DEFINITION. NOP, CLEAR, RUN.BPSK and RUN.QPSK (44_control.md R180 to R185). -/

namespace Sys2Proof.Machine

/-- NOP: the completion update only (44_control.md R180). -/
def execNop (s : State) : Host.Outcome State Fault Refusal := finish s (.ok s)

/-- The body of CLEAR (44_control.md R181). -/
def clearBody (s : State) : State := { s with errCnt := 0, bitCnt := 0, ber := PZERO }

/-- CLEAR (44_control.md R181). -/
def execClear (s : State) : Host.Outcome State Fault Refusal := finish s (.ok (clearBody s))

/-- The five stages of RUN.BPSK in order, for n bits at deviation sigma (44_control.md R184). -/
def runBpskBody (sigma : Word) (n : Nat) (s : State) : State :=
  estimateBody (countBody n (demodBpskBody n (awgnBpskBody sigma n (modBpskBody n s))))

/-- The five stages of RUN.QPSK in order, for n bits (n / 2 symbols) at deviation sigma (44_control.md R184). -/
def runQpskBody (sigma : Word) (n : Nat) (s : State) : State :=
  estimateBody (countBody n (demodQpskBody (n / 2) (awgnQpskBody sigma (n / 2) (modQpskBody n s))))

/-- RUN.BPSK: every check of every stage, then every stage (44_control.md R182, R184). -/
def runBpskRule (s : State) : Except CmdError State :=
  if !bpskCountValid s then .error .invalidInput
  else if !isFinite (sigmaBpsk s.draws s.snrDb) then .error .invalidInput
  else if bitCntOverflows s (bitCount s).toNat then .error .invalidInput
  else .ok (runBpskBody (sigmaBpsk s.draws s.snrDb) (bitCount s).toNat s)

/-- RUN.QPSK: every check of every stage, then every stage (44_control.md R183, R184). -/
def runQpskRule (s : State) : Except CmdError State :=
  if !qpskCountValid s then .error .invalidInput
  else if !isFinite (sigmaQpsk s.draws s.snrDb) then .error .invalidInput
  else if bitCntOverflows s (bitCount s).toNat then .error .invalidInput
  else .ok (runQpskBody (sigmaQpsk s.draws s.snrDb) (bitCount s).toNat s)

/-- RUN.BPSK (44_control.md R182). -/
def execRunBpsk (s : State) : Host.Outcome State Fault Refusal := finish s (runBpskRule s)

/-- RUN.QPSK (44_control.md R183). -/
def execRunQpsk (s : State) : Host.Outcome State Fault Refusal := finish s (runQpskRule s)

end Sys2Proof.Machine
end

