-- ==== Sys2Proof/Machine/Dispatch.lean ====
section
/-! DEFINITION. The completion step of each decoded command (60_exceptions.md R209, R210), one arm a command. -/

namespace Sys2Proof.Machine

def exec (i : Instr) (s : State) : Host.Outcome State Fault Refusal :=
  match i with
  | .nop => Sys2Proof.Machine.execNop s
  | .modBpsk => Sys2Proof.Machine.execModBpsk s
  | .modQpsk => Sys2Proof.Machine.execModQpsk s
  | .awgnBpsk => Sys2Proof.Machine.execAwgnBpsk s
  | .awgnQpsk => Sys2Proof.Machine.execAwgnQpsk s
  | .demodBpsk => Sys2Proof.Machine.execDemodBpsk s
  | .demodQpsk => Sys2Proof.Machine.execDemodQpsk s
  | .count => Sys2Proof.Machine.execCount s
  | .estimate => Sys2Proof.Machine.execEstimate s
  | .runBpsk => Sys2Proof.Machine.execRunBpsk s
  | .runQpsk => Sys2Proof.Machine.execRunQpsk s
  | .clear => Sys2Proof.Machine.execClear s

end Sys2Proof.Machine
end

