-- ==== Sys2Proof/Machine/Step.lean ====
section
/-! DEFINITION. One step of the system: the next pending event (log entry 8), or the completion of the command in flight
when no event is pending (60_exceptions.md R220). -/

namespace Sys2Proof.Machine

/-- The completion step of the command word in CUR (60_exceptions.md R209, R210): decode it; a word that decodes to an
error ends with that error, a command is executed. -/
def completeCommand (s : State) : Host.Outcome State Fault Refusal :=
  match decode s.cur with
  | .ok i => exec i s
  | .error e => .next (raise e s)

/-- The block's turn: it completes the command in flight; with none in flight nothing happens. -/
def blockTurn (s : State) : Host.Outcome State Fault Refusal :=
  if s.status.busy then completeCommand s else .next s

/-- One step. The pending events are taken in order; when none is pending the block has its turn, so a command in flight
completes after finitely many steps (60_exceptions.md R220). -/
def step (s : State) : Host.Outcome State Fault Refusal :=
  match s.events with
  | [] => blockTurn s
  | .host t :: es => .next (transact t (withEvents s es))
  | .complete :: es => blockTurn (withEvents s es)
  | .reset lost :: es => .next (resetBlock (loseTransaction lost (withEvents s es)))

/-- `s` with the command word `w` of `nbits` bits (the bits above them 0) latched in CUR and in flight, as its acceptance
leaves it (60_exceptions.md R208), and the block's turn next: the very next step completes that command. Log entry 9. -/
def State.withFetchWord (s : State) (nbits w : Nat) : State :=
  withEvents (accept (BitVec.ofNat 64 (w % 2 ^ nbits)) s) (.complete :: s.events)

end Sys2Proof.Machine
end

