-- ==== Sys2Proof/Safety.lean ====
section
/-! DEFINITION. The terms the claims are stated in: whose turn it is, successful completion, the STATUS a completion
leaves, the mapped addresses, and the invariants of the block. -/

namespace Sys2Proof.Machine

/-- The block moves next and `es` remain after it: its turn is the next event, or no event is pending. -/
def BlockTurn (s : State) (es : List Event) : Prop :=
  s.events = .complete :: es ∨ (s.events = [] ∧ es = [])

/-- The command ends without an error, in state `t`. -/
def Succeeds (i : Instr) (s t : State) : Prop := exec i s = .next t ∧ t.status.errCode = none

/-- The command ends with error `e`. -/
def Fails (i : Instr) (s : State) (e : CmdError) : Prop := ∃ t, exec i s = .next t ∧ t.status.errCode = some e

/-- STATUS after a successful completion: ERRCODE 0, BUSY 0, DONE 1, FATAL and DROP as before (60_exceptions.md R209). -/
def statusOk (st : Status) : Status :=
  { busy := false, done := true, fatal := st.fatal, drop := st.drop, errCode := none }

/-- STATUS after a completion with an error: its code, BUSY 0, DONE 1, FATAL also 1 for LengthMismatch, DROP as before
(60_exceptions.md R210). -/
def statusError (st : Status) (e : CmdError) : Status :=
  { busy := false, done := true, fatal := st.fatal || e == .lengthMismatch, drop := st.drop, errCode := some e }

/-- The number of positions below n where TXB in `s` and RXB in `t` differ (43_ber_counter.md R160). -/
def differing (s t : State) (n : Nat) : Nat := (List.range n).countP fun i => txb s i != rxb t i

/-- A byte address in one of the buffers, for N = N_MAX (20_memory.md R53). -/
def InBuffer (n a : Nat) : Prop := ∃ r : Region, r.base ≤ a ∧ a < r.base + r.bytes n

/-- A byte address that names nothing: outside the register region and outside every buffer (20_memory.md R57). -/
def Unmapped (n a : Nat) : Prop := 0x1000 ≤ a ∧ ¬ InBuffer n a

/-- N_MAX has a legal value (00_scope.md R6). -/
def CapacityLegal (s : State) : Prop := Config.nMaxLegal s.nMax

/-- Every written byte lies in a buffer (20_memory.md R53, R57). -/
def BuffersMapped (s : State) : Prop := ∀ c ∈ s.mem, InBuffer s.nMax c.1

/-- A command is in flight only with DONE = 0 and FATAL = 0, and FATAL = 1 only with ERRCODE = 3
(60_exceptions.md R207 to R212). -/
def HandshakeSound (s : State) : Prop :=
  (s.status.busy = true → s.status.done = false ∧ s.status.fatal = false) ∧
    (s.status.fatal = true → s.status.errCode = some .lengthMismatch)

/-- ERR_CNT <= BIT_CNT (10_state.md R46). -/
def CountersOrdered (s : State) : Prop := u64 s.errCnt ≤ u64 s.bitCnt

/-- BER is a binary64 value in [0, 1] with its sign bit clear (43_ber_counter.md R162): among such patterns the order of
the values is the order of the patterns. -/
def RateInRange (s : State) : Prop := u64 s.ber ≤ u64 ONE

/-- SIGMA is finite (41_awgn.md R123). -/
def DeviationFinite (s : State) : Prop := isFinite s.sigma = true

end Sys2Proof.Machine
end

