-- ==== Sys2Proof/Certificates/Slice0/Obligations.lean ====
section
/-! DEFINITION. The statements for the provers. Each names the rule of spec/ it rests on. -/

open Sys2Proof Sys2Proof.Machine

/-! ### Decoding -/

/-- 30_encoding.md R83: encoding a command and decoding its word gives the command back. -/
def Obligations.DecodeInvertsEncode : Prop :=
  ∀ i : Instr, i.wellFormed = true → decode (encode i) = .ok i

/-- 30_encoding.md R83: "A word w is the mnemonic's command when (w AND mask) = word", the reserved OP values are
IllegalCommand, and no other word is a command. -/
def Obligations.DecodeAgreesWithOpcodeTable : Prop :=
  (∀ (c : Word) (i : Instr), decode c = .ok i ↔ c &&& rowMask i = rowWord i) ∧
    (∀ c : Word, 8 ≤ c.toNat % 16 → decode c = .error .illegalCommand)

/-- 30_encoding.md R84: the decode function, in arithmetic on the word's number (OP = n mod 16, SCHEME = n div 16 mod 4,
RSV = n div 64), for every 64-bit word. -/
def Obligations.DecodeIsTheRuleFunction : Prop :=
  ∀ (c : Word) (n : Nat), n = c.toNat →
    (n / 64 ≠ 0 → decode c = .error .illegalCommand) ∧
    (n / 64 = 0 → 8 ≤ n % 16 → decode c = .error .illegalCommand) ∧
    (n / 64 = 0 → n % 16 = 0 → decode c = .ok .nop) ∧
    (n / 64 = 0 → n % 16 = 4 → decode c = .ok .count) ∧
    (n / 64 = 0 → n % 16 = 5 → decode c = .ok .estimate) ∧
    (n / 64 = 0 → n % 16 = 7 → decode c = .ok .clear) ∧
    (n / 64 = 0 → n % 16 ∈ [1, 2, 3, 6] → 2 ≤ n / 16 % 4 → decode c = .error .invalidScheme) ∧
    (n / 64 = 0 → n % 16 = 1 → n / 16 % 4 = 0 → decode c = .ok .modBpsk) ∧
    (n / 64 = 0 → n % 16 = 1 → n / 16 % 4 = 1 → decode c = .ok .modQpsk) ∧
    (n / 64 = 0 → n % 16 = 2 → n / 16 % 4 = 0 → decode c = .ok .awgnBpsk) ∧
    (n / 64 = 0 → n % 16 = 2 → n / 16 % 4 = 1 → decode c = .ok .awgnQpsk) ∧
    (n / 64 = 0 → n % 16 = 3 → n / 16 % 4 = 0 → decode c = .ok .demodBpsk) ∧
    (n / 64 = 0 → n % 16 = 3 → n / 16 % 4 = 1 → decode c = .ok .demodQpsk) ∧
    (n / 64 = 0 → n % 16 = 6 → n / 16 % 4 = 0 → decode c = .ok .runBpsk) ∧
    (n / 64 = 0 → n % 16 = 6 → n / 16 % 4 = 1 → decode c = .ok .runQpsk)

/-- 30_encoding.md R83: words written out from the table decode to their commands. -/
def Obligations.SampleWordsDecode : Prop :=
  decode 0x0000000000000030 = .ok .nop ∧ decode 0x0000000000000011 = .ok .modQpsk ∧
    decode 0x0000000000000002 = .ok .awgnBpsk ∧ decode 0x0000000000000013 = .ok .demodQpsk ∧
    decode 0x0000000000000024 = .ok .count ∧ decode 0x0000000000000035 = .ok .estimate ∧
    decode 0x0000000000000016 = .ok .runQpsk ∧ decode 0x0000000000000007 = .ok .clear

/-! ### Steps and the command lifecycle -/

/-- 60_exceptions.md R209: on the block's turn a command in flight that decodes is executed, from the state with that turn
taken; with no command in flight nothing but the turn passes. That the next event, or an empty list, gives
the block its turn is the model's choice (log entry 8). -/
def Obligations.StepRunsDecodedCommand : Prop :=
  ∀ (s : State) (es : List Event), BlockTurn s es →
    (∀ i : Instr, s.status.busy = true → decode s.cur = .ok i → i.wellFormed = true →
      step s = exec i { s with events := es }) ∧
    (s.status.busy = false → step s = .next { s with events := es })

/-- No step of the block stops: whatever the state, there is a next state (60_exceptions.md: no traps; 20_memory.md R52,
R57: malformed accesses have no effect; log entry 17). -/
def Obligations.EveryStepHasANextState : Prop := ∀ s : State, ∃ t : State, step s = .next t

/-- 60_exceptions.md R207 and R208: a host write of c to CMD is accepted exactly when BUSY = 0 and FATAL = 0, and then
changes CUR, BUSY and DONE alone; otherwise DROP alone. -/
def Obligations.CommandAcceptanceOrDrop : Prop :=
  ∀ (s : State) (es : List Event) (c : Word), s.events = .host (.write 0x0000018 c) :: es →
    (s.status.busy = false → s.status.fatal = false →
      step s = .next { s with
        events := es
        cur := c
        status := { busy := true, done := false, fatal := s.status.fatal, drop := s.status.drop,
                    errCode := s.status.errCode } }) ∧
    (s.status.busy = true ∨ s.status.fatal = true →
      step s = .next { s with
        events := es
        status := { busy := s.status.busy, done := s.status.done, fatal := s.status.fatal, drop := true,
                    errCode := s.status.errCode } })

/-- 60_exceptions.md R210: the completion step of a command that ends with error e, whether its word or its operands are
at fault, changes STATUS and nothing else. -/
def Obligations.ErrorCompletionChangesOnlyStatus : Prop :=
  ∀ (s t : State) (es : List Event) (e : CmdError), BlockTurn s es → s.status.busy = true →
    step s = .next t → t.status.errCode = some e →
    t = { s with events := es, status := statusError s.status e }

/-- 60_exceptions.md R202: InvalidScheme is the outcome of MOD, AWGN, DEMOD and RUN words with RSV = 0 and SCHEME 2 or 3
and of no other word, and no decoded command ends with it. -/
def Obligations.InvalidSchemeExactly : Prop :=
  (∀ c : Word, decode c = .error .invalidScheme ↔
    c ∈ [0x21, 0x31, 0x22, 0x32, 0x23, 0x33, 0x26, 0x36]) ∧
  (∀ (i : Instr) (s t : State), exec i s = .next t → t.status.errCode ≠ some .invalidScheme) ∧
  (∀ (s : State) (es : List Event), BlockTurn s es → s.status.busy = true →
    decode s.cur = .error .invalidScheme →
    step s = .next { s with events := es, status := statusError s.status .invalidScheme })

/-- 60_exceptions.md R204 (30_encoding.md R85, R86): IllegalCommand is the outcome of every word with RSV != 0 or OP >= 8
and of no other word, and no decoded command ends with it. -/
def Obligations.IllegalCommandExactly : Prop :=
  (∀ c : Word, decode c = .error .illegalCommand ↔ c.toNat / 64 ≠ 0 ∨ 8 ≤ c.toNat % 16) ∧
  (∀ (i : Instr) (s t : State), exec i s = .next t → t.status.errCode ≠ some .illegalCommand) ∧
  (∀ (s : State) (es : List Event), BlockTurn s es → s.status.busy = true →
    decode s.cur = .error .illegalCommand →
    step s = .next { s with events := es, status := statusError s.status .illegalCommand })

/-- 60_exceptions.md R201, with COUNT's order of checks of R206: the exact conditions of InvalidInput. -/
def Obligations.InvalidInputExactly : Prop :=
  ∀ (i : Instr) (s t : State), exec i s = .next t →
    (t.status.errCode = some .invalidInput ↔
      match i with
      | .nop => False
      | .modBpsk => s64 s.nBits ≤ 0 ∨ (s.nMax : Int) < s64 s.nBits
      | .modQpsk => s64 s.nBits ≤ 0 ∨ (s.nMax : Int) < s64 s.nBits ∨ s64 s.nBits % 2 = 1
      | .awgnBpsk => u64 s.symN = 0 ∨ s.nMax < u64 s.symN ∨ isFinite (sigmaBpsk s.draws s.snrDb) = false
      | .awgnQpsk => u64 s.symN = 0 ∨ s.nMax / 2 < u64 s.symN ∨ isFinite (sigmaQpsk s.draws s.snrDb) = false
      | .demodBpsk => u64 s.rsymN = 0 ∨ s.nMax < u64 s.rsymN
      | .demodQpsk => u64 s.rsymN = 0 ∨ s.nMax / 2 < u64 s.rsymN
      | .count => s64 s.nBits ≤ 0 ∨ (s.nMax : Int) < s64 s.nBits ∨
          ((u64 s.rxN : Int) = s64 s.nBits ∧ 2 ^ 64 - 1 < (u64 s.bitCnt : Int) + s64 s.nBits)
      | .estimate => u64 s.bitCnt = 0
      | .runBpsk => s64 s.nBits ≤ 0 ∨ (s.nMax : Int) < s64 s.nBits ∨
          isFinite (sigmaBpsk s.draws s.snrDb) = false ∨ 2 ^ 64 - 1 < (u64 s.bitCnt : Int) + s64 s.nBits
      | .runQpsk => s64 s.nBits ≤ 0 ∨ (s.nMax : Int) < s64 s.nBits ∨ s64 s.nBits % 2 = 1 ∨
          isFinite (sigmaQpsk s.draws s.snrDb) = false ∨ 2 ^ 64 - 1 < (u64 s.bitCnt : Int) + s64 s.nBits
      | .clear => False)

/-- 60_exceptions.md R203: LengthMismatch is raised by COUNT alone, exactly when N_BITS is valid and RX_N differs from it,
and sets FATAL. -/
def Obligations.LengthMismatchExactly : Prop :=
  ∀ (i : Instr) (s t : State), exec i s = .next t →
    (t.status.errCode = some .lengthMismatch ↔
      i = .count ∧ 1 ≤ s64 s.nBits ∧ s64 s.nBits ≤ s.nMax ∧ (u64 s.rxN : Int) ≠ s64 s.nBits) ∧
    (t.status.errCode = some .lengthMismatch → t.status.fatal = true)

/-- 60_exceptions.md R211: once FATAL = 1 it stays 1 through every step but a reset, and no command is accepted. -/
def Obligations.FatalLastsUntilReset : Prop :=
  ∀ s t : State, s.status.fatal = true → step s = .next t → (∀ lost es, s.events ≠ .reset lost :: es) →
    t.status.fatal = true ∧ (s.status.busy = false → t.status.busy = false ∧ t.cur = s.cur)

/-- 60_exceptions.md R215: DROP stays 1 until the host writes STATUS with bit 3 set or until reset. -/
def Obligations.DropLastsUntilClearedOrReset : Prop :=
  ∀ s t : State, s.status.drop = true → step s = .next t → t.status.drop = false →
    (∃ v es, s.events = .host (.write 0x0000010 v) :: es ∧ v.getLsbD 3 = true) ∨
      (∃ lost es, s.events = .reset lost :: es)

/-- 10_state.md R45, 60_exceptions.md R213, R214: irq rises only at a completion with IE = 1, or when the host sets IE
while DONE = 1; and a completion with IE = 1 raises it. -/
def Obligations.InterruptRisesOnlyByCompletionOrEnable : Prop :=
  (∀ s t : State, s.irq = false → step s = .next t → t.irq = true →
    (s.status.busy = true ∧ s.ie = true ∧ ∃ es, BlockTurn s es) ∨
      (s.status.done = true ∧ ∃ v es, s.events = .host (.write 0x0000008 v) :: es ∧ v.getLsbD 0 = true)) ∧
  (∀ (s t : State) (es : List Event), BlockTurn s es → s.status.busy = true → step s = .next t →
    t.irq = s.ie)

/-- 60_exceptions.md R220: with no reset among the pending events, a command in flight has completed after at most one
step more than there are pending events, whatever the host does meanwhile. The schedule that expresses the fairness is the
model's choice (log entry 8). -/
def Obligations.CommandInFlightCompletes : Prop :=
  ∀ s : State, s.status.busy = true → (∀ e ∈ s.events, ∀ lost, e ≠ .reset lost) →
    ∃ k t, k ≤ s.events.length ∧ core.run k s = .next t ∧ t.status.busy = true ∧ t.cur = s.cur ∧
      ∃ u, step t = .next u ∧ u.status.busy = false ∧ u.status.done = true

/-- 10_state.md R44 (log entry 7): what CUR holds while BUSY = 0 never shows: two states that differ in it alone step to
states that differ in it alone. -/
def Obligations.IdleLatchNeverShows : Prop :=
  ∀ (s t : State) (c : Word), s.status.busy = false → step s = .next t →
    ∃ d : Word, step { s with cur := c } = .next { t with cur := d } ∧ (t.status.busy = true → d = t.cur)

/-- 20_memory.md R67: while a command is in flight no host transaction changes an input: every register but IE and STATUS,
the latch and every buffer byte stay. -/
def Obligations.InputsFrozenWhileBusy : Prop :=
  ∀ (s t : State) (x : Transaction) (es : List Event), s.status.busy = true → s.events = .host x :: es →
    step s = .next t →
    ∃ (ie : Bool) (done drop : Bool) (draws : Nat) (rdata : Word),
      t = { s with ie := ie, events := es, draws := draws, rdata := rdata,
                   status := { s.status with done := done, drop := drop } }

/-! ### Registers and the bus -/

/-- 70_reset_and_hazards.md R230, 10_state.md R21: every register reads its reset value after reset, irq is 0 and the
parameter N_MAX is legal. NMAX's value is the uninterpreted parameter (log entry 1). -/
def Obligations.ResetRegisterValues : Prop :=
  (∀ r : Reg, readReg State.reset r =
    match r with
    | .id => 0x0000000041424231
    | .nmax => BitVec.ofNat 64 Config.nMax
    | _ => 0) ∧
  State.reset.irq = false ∧ CapacityLegal State.reset ∧ State.reset.nMax = Config.nMax

/-- 70_reset_and_hazards.md R230 and R231: a reset, whatever the state and whatever it interrupts, leaves every register at
its reset value and no command in flight, and no buffer byte keeps a written value; N_MAX stays. That the free draws are
numbered by resets is the model's choice (log entries 3 and 14). -/
def Obligations.ResetEventRestoresRegisters : Prop :=
  ∀ (s : State) (lost : Option Transaction) (es : List Event), s.events = .reset lost :: es →
    ∃ t, step s = .next t ∧ t.status.busy = false ∧ t.irq = false ∧ t.events = es ∧ t.nmax = s.nmax ∧
      t.epoch = s.epoch + 1 ∧ (∀ a, readByte t a = Config.bufferDraw t.epoch a) ∧
      (∀ r : Reg, r ≠ .nmax → readReg t r = readReg State.reset r)

/-- 10_state.md R21 to R36: a host read of each register while no command is in flight returns the register's value and
changes nothing. -/
def Obligations.RegisterReadsWhenIdle : Prop :=
  ∀ (s : State) (es : List Event) (a : Addr) (v : Word), s.status.busy = false →
    (a, v) ∈ [((0x0000000 : Addr), (0x0000000041424231 : Word)), (0x0000008, if s.ie then 1 else 0),
      (0x0000010, statusWord s.status), (0x0000018, 0), (0x0000020, s.nBits), (0x0000028, s.snrDb),
      (0x0000030, s.symN), (0x0000038, s.rsymN), (0x0000040, s.rxN), (0x0000048, s.sigma),
      (0x0000050, s.errCnt), (0x0000058, s.bitCnt), (0x0000060, s.ber), (0x0000068, s.nmax)] →
    s.events = .host (.read a) :: es →
    step s = .next { s with events := es, rdata := v }

/-- 10_state.md R24: the layout of STATUS: BUSY, DONE, FATAL and DROP in bits 0 to 3, ERRCODE in bits 11:8 with the codes
of 60_exceptions.md R200 and never above 4, every other bit 0. -/
def Obligations.StatusWordLayout : Prop :=
  ∀ st : Status,
    (statusWord st).getLsbD 0 = st.busy ∧ (statusWord st).getLsbD 1 = st.done ∧
    (statusWord st).getLsbD 2 = st.fatal ∧ (statusWord st).getLsbD 3 = st.drop ∧
    (statusWord st).extractLsb' 4 4 = 0 ∧ (statusWord st).extractLsb' 12 52 = 0 ∧
    (statusWord st).extractLsb' 8 4 =
      match st.errCode with
      | none => 0
      | some .invalidInput => 1
      | some .invalidScheme => 2
      | some .lengthMismatch => 3
      | some .illegalCommand => 4

/-- 10_state.md R23 and R25, 20_memory.md R65: writes to CTRL and STATUS act whether or not BUSY = 1, and change IE, or
DONE and DROP where the written bit is 1, and nothing else. -/
def Obligations.ControlAndStatusWrites : Prop :=
  ∀ (s : State) (es : List Event) (v : Word),
    (s.events = .host (.write 0x0000008 v) :: es →
      step s = .next { s with events := es, ie := v.getLsbD 0 }) ∧
    (s.events = .host (.write 0x0000010 v) :: es →
      step s = .next { s with
        events := es
        status := { s.status with
          done := s.status.done && !v.getLsbD 1
          drop := s.status.drop && !v.getLsbD 3 } })

/-- 10_state.md R27 to R31: each writable data register takes any 64-bit value when no command is in flight, and nothing
else changes. -/
def Obligations.DataRegisterWritesWhenIdle : Prop :=
  ∀ (s : State) (es : List Event) (v : Word), s.status.busy = false →
    (s.events = .host (.write 0x0000020 v) :: es → step s = .next { s with events := es, nBits := v }) ∧
    (s.events = .host (.write 0x0000028 v) :: es → step s = .next { s with events := es, snrDb := v }) ∧
    (s.events = .host (.write 0x0000030 v) :: es → step s = .next { s with events := es, symN := v }) ∧
    (s.events = .host (.write 0x0000038 v) :: es → step s = .next { s with events := es, rsymN := v }) ∧
    (s.events = .host (.write 0x0000040 v) :: es → step s = .next { s with events := es, rxN := v })

/-- 20_memory.md R52 and R57, 10_state.md R26, R37 and R38: BUSY or not, writes to misaligned, reserved, read-only and
unmapped addresses change nothing (DROP neither), and reads of CMD and of misaligned, reserved and unmapped addresses
return 0 and change nothing. -/
def Obligations.DeadLocationsIgnoreWritesReadZero : Prop :=
  ∀ (s : State) (es : List Event) (a : Addr), CapacityLegal s →
    (a.toNat % 8 ≠ 0 ∨ (0x70 ≤ a.toNat ∧ a.toNat < 0x1000) ∨ Unmapped s.nMax a.toNat ∨
        a ∈ [(0x0000000 : Addr), 0x0000048, 0x0000050, 0x0000058, 0x0000060, 0x0000068] →
      ∀ v : Word, s.events = .host (.write a v) :: es → step s = .next { s with events := es }) ∧
    (a.toNat % 8 ≠ 0 ∨ (0x70 ≤ a.toNat ∧ a.toNat < 0x1000) ∨ Unmapped s.nMax a.toNat ∨ a = 0x0000018 →
      s.events = .host (.read a) :: es → step s = .next { s with events := es, rdata := 0 })

/-- 20_memory.md R58 and R54 to R56: a host write to a buffer word, with no command in flight, stores byte k of the word
(bits 8k+7 : 8k) at address + k and changes no other byte and no register; a host read returns those bytes. -/
def Obligations.BufferWordsAreLittleEndianBytes : Prop :=
  ∀ (s : State) (es : List Event) (a : Addr), CapacityLegal s → s.status.busy = false → a.toNat % 8 = 0 →
    InBuffer s.nMax a.toNat →
    (∀ v : Word, s.events = .host (.write a v) :: es →
      ∃ m : Memory, step s = .next { s with events := es, mem := m } ∧
        (∀ k, k < 8 → readByte { s with mem := m } (a.toNat + k) = v.extractLsb' (8 * k) 8) ∧
        (∀ x, x < a.toNat ∨ a.toNat + 8 ≤ x → readByte { s with mem := m } x = readByte s x)) ∧
    (s.events = .host (.read a) :: es →
      ∃ v : Word, step s = .next { s with events := es, rdata := v } ∧
        ∀ k, k < 8 → v.extractLsb' (8 * k) 8 = readByte s (a.toNat + k))

/-- 20_memory.md R54, R55 and R56: the word a host write leaves at each buffer address is the operand the commands read. -/
def Obligations.HostWordsAreTheOperands : Prop :=
  ∀ (s t : State) (es : List Event) (a : Addr) (v : Word), CapacityLegal s → s.status.busy = false →
    s.events = .host (.write a v) :: es → step s = .next t →
    (∀ w, w < s.nMax / 64 → a.toNat = 0x1000000 + 8 * w → ∀ i, i < 64 → txb t (64 * w + i) = v.getLsbD i) ∧
    (∀ w, w < s.nMax / 64 → a.toNat = 0x2000000 + 8 * w → ∀ i, i < 64 → rxb t (64 * w + i) = v.getLsbD i) ∧
    (∀ j, j < s.nMax → a.toNat = 0x4000000 + 8 * j → noise t j = v) ∧
    (∀ k, k < s.nMax → a.toNat = 0x8000000 + 16 * k → symRe t k = v) ∧
    (∀ k, k < s.nMax → a.toNat = 0x8000000 + 16 * k + 8 → symIm t k = v) ∧
    (∀ k, k < s.nMax → a.toNat = 0xC000000 + 16 * k → rsymRe t k = v) ∧
    (∀ k, k < s.nMax → a.toNat = 0xC000000 + 16 * k + 8 → rsymIm t k = v)

/-- 20_memory.md R65: while BUSY = 1 a host write to CMD, an input register or a buffer word changes no register and no
buffer byte and sets DROP; writes to CTRL and STATUS act, and writes to read-only, reserved and unmapped locations are
ignored without setting DROP. -/
def Obligations.InputWritesDroppedWhileBusy : Prop :=
  ∀ (s : State) (es : List Event) (a : Addr) (v : Word), CapacityLegal s → s.status.busy = true →
    s.events = .host (.write a v) :: es →
    (a ∈ [(0x0000018 : Addr), 0x0000020, 0x0000028, 0x0000030, 0x0000038, 0x0000040] ∨
      (a.toNat % 8 = 0 ∧ InBuffer s.nMax a.toNat) →
      step s = .next { s with events := es, status := { s.status with drop := true } }) ∧
    (a = 0x0000008 → step s = .next { s with events := es, ie := v.getLsbD 0 }) ∧
    (a = 0x0000010 → step s = .next { s with
        events := es
        status := { s.status with
          done := s.status.done && !v.getLsbD 1
          drop := s.status.drop && !v.getLsbD 3 } }) ∧
    (a ∈ [(0x0000000 : Addr), 0x0000048, 0x0000050, 0x0000058, 0x0000060, 0x0000068] ∨
      (0x70 ≤ a.toNat ∧ a.toNat < 0x1000) ∨ Unmapped s.nMax a.toNat →
      step s = .next { s with events := es })

/-- 20_memory.md R66: while BUSY = 1 a host read of a word in the write set of the command in flight returns a fresh free
value (log entry 5: which one is the model's draw); a read of any other word returns its current value. For a command word
that is IllegalCommand the set is empty. -/
def Obligations.WriteSetReadsAreFree : Prop :=
  ∀ (s : State) (es : List Event) (a : Addr) (ws : List Location), s.status.busy = true →
    s.events = .host (.read a) :: es →
    (decode s.cur = .error .illegalCommand ∧ ws = [] ∨
      ∃ i, decode s.cur = .ok i ∧ ws =
        match i with
        | .nop => []
        | .modBpsk | .modQpsk => [.buffer .sym, .reg .symN]
        | .awgnBpsk | .awgnQpsk => [.buffer .rsym, .reg .rsymN, .reg .sigma]
        | .demodBpsk | .demodQpsk => [.buffer .rxb, .reg .rxN]
        | .count => [.reg .errCnt, .reg .bitCnt]
        | .estimate => [.reg .ber]
        | .runBpsk | .runQpsk => [.buffer .sym, .buffer .rsym, .buffer .rxb, .reg .symN, .reg .rsymN, .reg .rxN,
            .reg .sigma, .reg .errCnt, .reg .bitCnt, .reg .ber]
        | .clear => [.reg .errCnt, .reg .bitCnt, .reg .ber]) →
    (locate s.nMax a ∈ ws →
      step s = .next { s with events := es, rdata := Config.readDraw s.draws, draws := s.draws + 1 }) ∧
    (locate s.nMax a ∉ ws →
      step s = .next { s with events := es, rdata := readLocation s a (locate s.nMax a) })

/-- 10_state.md R38, 20_memory.md R59: no host transaction changes SIGMA, ERR_CNT, BIT_CNT, BER, NMAX, FATAL or ERRCODE,
and a read changes no state of the block at all. -/
def Obligations.HostCannotWriteResults : Prop :=
  ∀ (s t : State) (x : Transaction) (es : List Event), s.events = .host x :: es → step s = .next t →
    t.sigma = s.sigma ∧ t.errCnt = s.errCnt ∧ t.bitCnt = s.bitCnt ∧ t.ber = s.ber ∧ t.nmax = s.nmax ∧
      t.status.fatal = s.status.fatal ∧ t.status.errCode = s.status.errCode ∧ t.epoch = s.epoch ∧
      (∀ a, x = .read a → t = { s with events := es, rdata := t.rdata, draws := t.draws })

/-! ### Binary64 arithmetic -/

/-- 40_modulator.md R103 and R105: the QPSK amplitude is div64(ONE, sqrt64(TWO)), one unit below sqrt64(0.5), and the
symbol energies are the values the rule gives, whatever pattern a NaN result would take. -/
def Obligations.AmplitudeAndEnergyValues : Prop :=
  ∀ p q r : Word,
    sqrt64 q TWO = 0x3FF6A09E667F3BCD ∧ div64 p ONE (sqrt64 q TWO) = 0x3FE6A09E667F3BCC ∧
    div64 p MONE (sqrt64 q TWO) = 0xBFE6A09E667F3BCC ∧ sqrt64 p 0x3FE0000000000000 = 0x3FE6A09E667F3BCD ∧
    qpskA = 0x3FE6A09E667F3BCC ∧ qpskNegA = 0xBFE6A09E667F3BCC ∧
    mul64 p qpskA qpskA = 0x3FDFFFFFFFFFFFFE ∧
    (∀ x ∈ [qpskA, qpskNegA], ∀ y ∈ [qpskA, qpskNegA],
      add64 p (mul64 q x x) (mul64 r y y) = 0x3FEFFFFFFFFFFFFE) ∧
    (∀ x ∈ [ONE, MONE], add64 p (mul64 q x x) (mul64 r PZERO PZERO) = ONE)

/-- 00_scope.md R7: the required points of Pow10: 10^k exactly at the integers k = 0 to 22 (-0.0 counting as 0), the two
infinities, and a NaN for a NaN. -/
def Obligations.PowTenRequiredPoints : Prop :=
  (∀ k, k ≤ 22 → magnitude (rnd64 k 1) = k * 2 ^ 1074 ∧ magnitude (rnd64 (10 ^ k) 1) = 10 ^ k * 2 ^ 1074 ∧
    isFinite (rnd64 (10 ^ k) 1) = true ∧ pow10 (rnd64 k 1) = rnd64 (10 ^ k) 1) ∧
  pow10 0x8000000000000000 = ONE ∧ pow10 0x7FF0000000000000 = 0x7FF0000000000000 ∧
  pow10 0xFFF0000000000000 = 0x0000000000000000 ∧ (∀ x : Word, isNaN x = true → isNaN (pow10 x) = true)

/-- 00_scope.md section 4, rnd64: the rounded pattern is the binary64 magnitude nearest the exact rational, and where two
are equally near, its last bit is 0, for every rational n/d (in units of 2^-1074) up to the largest finite value. -/
def Obligations.RoundingIsNearestTiesToEven : Prop :=
  ∀ n d p : Nat, 0 < d → n ≤ d * magnitude 0x7FEFFFFFFFFFFFFF → p < 0x7FF0000000000000 →
    roundMagnitude n d < 0x7FF0000000000000 ∧
    ((d * magnitude (BitVec.ofNat 64 (roundMagnitude n d)) : Int) - n).natAbs ≤
      ((d * magnitude (BitVec.ofNat 64 p) : Int) - n).natAbs ∧
    (((d * magnitude (BitVec.ofNat 64 (roundMagnitude n d)) : Int) - n).natAbs =
        ((d * magnitude (BitVec.ofNat 64 p) : Int) - n).natAbs →
      roundMagnitude n d = p ∨ roundMagnitude n d % 2 = 0)

/-- 00_scope.md section 4 (the square root is correctly rounded): for every finite positive operand the root is a finite
positive value, and no binary64 magnitude is nearer the exact root: with M its magnitude, V another and a the operand, all
in units of 2^-1074, the exact root sqrt(a * 2^1074) is on M's side of the midpoint (M + V) / 2, said in squares. -/
def Obligations.SquareRootIsNearest : Prop :=
  ∀ (p x : Word) (q : Nat), isFinite x = true → signBit x = false → isZero x = false → q < 0x7FF0000000000000 →
    isFinite (sqrt64 p x) = true ∧ signBit (sqrt64 p x) = false ∧
    (magnitude (sqrt64 p x) < magnitude (BitVec.ofNat 64 q) →
      4 * (magnitude x * 2 ^ 1074) ≤ (magnitude (sqrt64 p x) + magnitude (BitVec.ofNat 64 q)) ^ 2) ∧
    (magnitude (BitVec.ofNat 64 q) < magnitude (sqrt64 p x) →
      (magnitude (sqrt64 p x) + magnitude (BitVec.ofNat 64 q)) ^ 2 ≤ 4 * (magnitude x * 2 ^ 1074))

/-- 00_scope.md section 4 (NaN results): a result of add64, mul64, div64 or sqrt64 that is a NaN has exactly the pattern
given for NaN results, and the patterns the commands give are quiet NaNs. How a draw is selected is the model's choice (log
entry 4). -/
def Obligations.NaNResultsTakeTheFreePattern : Prop :=
  (∀ p a b : Word, (isNaN (add64 p a b) = true → add64 p a b = p) ∧ (isNaN (mul64 p a b) = true → mul64 p a b = p) ∧
    (isNaN (div64 p a b) = true → div64 p a b = p) ∧ (isNaN (sqrt64 p a) = true → sqrt64 p a = p)) ∧
  (∀ draw site : Nat, isNaN (nanAt draw site) = true ∧ (nanAt draw site).getLsbD 51 = true)

/-- 41_awgn.md R127: the two deviation formulas agree for every L from 2^-1022 to 2^1021. -/
def Obligations.DeviationFormulasAgree : Prop :=
  ∀ p q r L : Word, 0x0010000000000000 ≤ L.toNat → L.toNat ≤ 0x7FC0000000000000 →
    div64 p ONE (mul64 q TWO L) = div64 p (div64 r ONE L) TWO

/-- 41_awgn.md R129: the linear SNR and the deviation at the special SNR values, the values AWGN refuses, and the noiseless
limit. -/
def Obligations.SpecialSnrValues : Prop :=
  (∀ (draw : Nat) (x l v : Word),
    (x, l, v) ∈ [((0x7FF0000000000000 : Word), (0x7FF0000000000000 : Word), (0x0000000000000000 : Word)),
      (0x0000000000000000, 0x3FF0000000000000, 0x3FE6A09E667F3BCD),
      (0x8000000000000000, 0x3FF0000000000000, 0x3FE6A09E667F3BCD),
      (0x4024000000000000, 0x4024000000000000, 0x3FCC9F25C5BFEDD9),
      (0x4034000000000000, 0x4059000000000000, 0x3FB21A1851FF630A)] →
    linearSnr draw x = l ∧ sigmaBpsk draw x = v ∧ sigmaQpsk draw x = v) ∧
  (∀ s : State, s.snrDb = 0xFFF0000000000000 ∨ isNaN s.snrDb = true →
    exec .awgnBpsk s = .next { s with status := statusError s.status .invalidInput } ∧
    exec .awgnQpsk s = .next { s with status := statusError s.status .invalidInput }) ∧
  (∀ p q x g : Word, isFinite g = true → isNaN x = false → isZero x = false →
    add64 p x (mul64 q 0x0000000000000000 g) = x)

/-- 42_demodulator.md R140: dec(x) is 1 exactly for the positive numbers and +infinity, that is for the patterns from 1 to
that of +infinity. -/
def Obligations.DecisionIsStrictlyPositive : Prop :=
  ∀ x : Word, decide64 x = true ↔ 1 ≤ x.toNat ∧ x.toNat ≤ 0x7FF0000000000000

/-- 43_ber_counter.md R162: every value a successful ESTIMATE writes lies in [0, 1], is +0.0 exactly when ERR_CNT = 0, and
is 1.0 when ERR_CNT = BIT_CNT, and also for some ERR_CNT just below a BIT_CNT above 2^53, by rounding. -/
def Obligations.EstimateRange : Prop :=
  (∀ s t : State, CountersOrdered s → Succeeds .estimate s t →
    u64 t.ber ≤ 0x3FF0000000000000 ∧ (t.ber = 0x0000000000000000 ↔ u64 s.errCnt = 0) ∧
      (u64 s.errCnt = u64 s.bitCnt → t.ber = 0x3FF0000000000000)) ∧
  (∃ s t : State, 2 ^ 53 < u64 s.bitCnt ∧ u64 s.errCnt < u64 s.bitCnt ∧ Succeeds .estimate s t ∧
    t.ber = 0x3FF0000000000000)

/-! ### What each command does -/

/-- 44_control.md R180 and R181: NOP changes STATUS as a successful completion does; CLEAR sets ERR_CNT, BIT_CNT and BER to
0; neither changes anything else. -/
def Obligations.NopAndClearComplete : Prop :=
  ∀ s : State,
    exec .nop s = .next { s with status := statusOk s.status } ∧
    exec .clear s = .next { s with errCnt := 0, bitCnt := 0, ber := 0x0000000000000000, status := statusOk s.status }

/-- 40_modulator.md R101: MOD.BPSK with a valid bit count: its symbols, SYM_N, and nothing else. -/
def Obligations.ModBpskCompletes : Prop :=
  ∀ (s : State) (n : Nat), s64 s.nBits = n → 1 ≤ n → n ≤ s.nMax →
    ∃ m : Memory, ∃ t : State, exec .modBpsk s = .next t ∧
      t = { s with mem := m, symN := BitVec.ofNat 64 n, status := statusOk s.status } ∧
      (∀ i, i < n → symRe t i = (if txb s i then 0x3FF0000000000000 else 0xBFF0000000000000) ∧
        symIm t i = 0x0000000000000000) ∧
      (∀ a, a < reAddr symBase 0 ∨ reAddr symBase n ≤ a → readByte t a = readByte s a)

/-- 40_modulator.md R102: MOD.QPSK with a valid bit count: its symbols, SYM_N, and nothing else. -/
def Obligations.ModQpskCompletes : Prop :=
  ∀ (s : State) (n : Nat), s64 s.nBits = n → 1 ≤ n → n ≤ s.nMax → n % 2 = 0 →
    ∃ m : Memory, ∃ t : State, exec .modQpsk s = .next t ∧
      t = { s with mem := m, symN := BitVec.ofNat 64 (n / 2), status := statusOk s.status } ∧
      (∀ k, k < n / 2 →
        symRe t k = (if txb s (2 * k) then 0x3FE6A09E667F3BCC else 0xBFE6A09E667F3BCC) ∧
        symIm t k = (if txb s (2 * k + 1) then 0x3FE6A09E667F3BCC else 0xBFE6A09E667F3BCC)) ∧
      (∀ a, a < reAddr symBase 0 ∨ reAddr symBase (n / 2) ≤ a → readByte t a = readByte s a)

/-- 41_awgn.md R124: AWGN.BPSK with a valid symbol count and a finite deviation (computed by R120 and R121; a NaN on the
way takes a free quiet pattern, log entry 4; the draw counter's advance is the model's, log entry 14): one real draw a
symbol, the imaginary part copied, RSYM_N and SIGMA, and nothing else. -/
def Obligations.AwgnBpskCompletes : Prop :=
  ∀ (s : State) (n : Nat) (σ : Word), u64 s.symN = n → 1 ≤ n → n ≤ s.nMax →
    σ = sqrt64 (nanAt s.draws 3) (div64 (nanAt s.draws 2) ONE
      (mul64 (nanAt s.draws 1) TWO (pow10 (div64 (nanAt s.draws 0) s.snrDb TEN)))) →
    isFinite σ = true →
    ∃ m : Memory, ∃ t : State, exec .awgnBpsk s = .next t ∧
      t = { s with mem := m, rsymN := BitVec.ofNat 64 n, sigma := σ, draws := s.draws + 1,
                   status := statusOk s.status } ∧
      (∀ i, i < n → rsymIm t i = symIm s i ∧
        ∃ p q : Word, isNaN p = true ∧ isNaN q = true ∧ p.getLsbD 51 = true ∧ q.getLsbD 51 = true ∧
          rsymRe t i = add64 p (symRe s i) (mul64 q σ (noise s i))) ∧
      (∀ a, a < reAddr rsymBase 0 ∨ reAddr rsymBase n ≤ a → readByte t a = readByte s a)

/-- 41_awgn.md R125: AWGN.QPSK with a valid symbol count and a finite deviation (R120, R122): the I draws are NOISE[0 ..
n-1], the Q draws NOISE[n .. 2n-1]; RSYM_N and SIGMA, and nothing else. A NaN on the way takes a free quiet pattern (log
entry 4), and the draw counter's advance is the model's (log entry 14). -/
def Obligations.AwgnQpskCompletes : Prop :=
  ∀ (s : State) (n : Nat) (σ : Word), u64 s.symN = n → 1 ≤ n → n ≤ s.nMax / 2 →
    σ = sqrt64 (nanAt s.draws 3) (div64 (nanAt s.draws 2)
      (div64 (nanAt s.draws 1) ONE (pow10 (div64 (nanAt s.draws 0) s.snrDb TEN))) TWO) →
    isFinite σ = true →
    ∃ m : Memory, ∃ t : State, exec .awgnQpsk s = .next t ∧
      t = { s with mem := m, rsymN := BitVec.ofNat 64 n, sigma := σ, draws := s.draws + 1,
                   status := statusOk s.status } ∧
      (∀ k, k < n → ∃ p q p' q' : Word,
        isNaN p = true ∧ isNaN q = true ∧ p.getLsbD 51 = true ∧ q.getLsbD 51 = true ∧
        isNaN p' = true ∧ isNaN q' = true ∧ p'.getLsbD 51 = true ∧ q'.getLsbD 51 = true ∧
        rsymRe t k = add64 p (symRe s k) (mul64 q σ (noise s k)) ∧
        rsymIm t k = add64 p' (symIm s k) (mul64 q' σ (noise s (n + k)))) ∧
      (∀ a, a < reAddr rsymBase 0 ∨ reAddr rsymBase n ≤ a → readByte t a = readByte s a)

/-- 42_demodulator.md R141, R144: DEMOD.BPSK with a valid symbol count: a bit for each real part, RX_N, every other bit of
RXB kept, and nothing else. -/
def Obligations.DemodBpskCompletes : Prop :=
  ∀ (s : State) (n : Nat), u64 s.rsymN = n → 1 ≤ n → n ≤ s.nMax →
    ∃ m : Memory, ∃ t : State, exec .demodBpsk s = .next t ∧
      t = { s with mem := m, rxN := BitVec.ofNat 64 n, status := statusOk s.status } ∧
      (∀ i, i < n → rxb t i = gt0 (rsymRe s i)) ∧ (∀ i, n ≤ i → rxb t i = rxb s i) ∧
      (∀ a, a < bitWordAddr rxbBase 0 ∨ bitWordAddr rxbBase (n - 1) + 8 ≤ a → readByte t a = readByte s a)

/-- 42_demodulator.md R142, R144: DEMOD.QPSK with a valid symbol count: two bits for each symbol, RX_N, every other bit of
RXB kept, and nothing else. -/
def Obligations.DemodQpskCompletes : Prop :=
  ∀ (s : State) (n : Nat), u64 s.rsymN = n → 1 ≤ n → n ≤ s.nMax / 2 →
    ∃ m : Memory, ∃ t : State, exec .demodQpsk s = .next t ∧
      t = { s with mem := m, rxN := BitVec.ofNat 64 (2 * n), status := statusOk s.status } ∧
      (∀ k, k < n → rxb t (2 * k) = gt0 (rsymRe s k) ∧ rxb t (2 * k + 1) = gt0 (rsymIm s k)) ∧
      (∀ i, 2 * n ≤ i → rxb t i = rxb s i) ∧
      (∀ a, a < bitWordAddr rxbBase 0 ∨ bitWordAddr rxbBase (2 * n - 1) + 8 ≤ a → readByte t a = readByte s a)

/-- 43_ber_counter.md R160: COUNT with a valid bit count, equal lengths and no overflow adds the differing positions to
ERR_CNT and the bit count to BIT_CNT, and changes nothing else but STATUS. Under R46 neither sum wraps (log entry 16). -/
def Obligations.CountCompletes : Prop :=
  ∀ (s : State) (n : Nat), s64 s.nBits = n → 1 ≤ n → n ≤ s.nMax → u64 s.rxN = n → u64 s.bitCnt + n ≤ 2 ^ 64 - 1 →
    CountersOrdered s →
    ∃ t : State, exec .count s = .next t ∧
      t = { s with errCnt := t.errCnt, bitCnt := t.bitCnt, status := statusOk s.status } ∧
      u64 t.errCnt = u64 s.errCnt + differing s s n ∧ u64 t.bitCnt = u64 s.bitCnt + n

/-- 43_ber_counter.md R161: ESTIMATE with BIT_CNT not 0 writes rnd64(e / b) to BER and changes nothing else but STATUS. -/
def Obligations.EstimateCompletes : Prop :=
  ∀ s : State, u64 s.bitCnt ≠ 0 →
    exec .estimate s = .next { s with ber := rnd64 (u64 s.errCnt) (u64 s.bitCnt), status := statusOk s.status }

/-- 44_control.md R182, R184: RUN.BPSK whose checks pass: the five stages' results in one step, and nothing else. A NaN on the
way takes a free quiet pattern (log entry 4), and the draw counter's advance is the model's (log entry 14): both are the
model's choice. -/
def Obligations.RunBpskCompletes : Prop :=
  ∀ (s : State) (n : Nat) (σ : Word), CapacityLegal s → CountersOrdered s → s64 s.nBits = n → 1 ≤ n → n ≤ s.nMax →
    σ = sigmaBpsk s.draws s.snrDb → isFinite σ = true → u64 s.bitCnt + n ≤ 2 ^ 64 - 1 →
    ∃ m : Memory, ∃ t : State, exec .runBpsk s = .next t ∧
      t = { s with mem := m, symN := BitVec.ofNat 64 n, rsymN := BitVec.ofNat 64 n, rxN := BitVec.ofNat 64 n,
                   sigma := σ, errCnt := t.errCnt, bitCnt := t.bitCnt, ber := t.ber, draws := s.draws + 1,
                   status := statusOk s.status } ∧
      (∀ i, i < n →
        symRe t i = (if txb s i then 0x3FF0000000000000 else 0xBFF0000000000000) ∧ symIm t i = 0 ∧
        (∃ p q : Word, isNaN p = true ∧ isNaN q = true ∧ p.getLsbD 51 = true ∧ q.getLsbD 51 = true ∧
          rsymRe t i = add64 p (symRe t i) (mul64 q σ (noise s i))) ∧ rsymIm t i = 0 ∧
        rxb t i = gt0 (rsymRe t i)) ∧
      (∀ i, n ≤ i → i < s.nMax → rxb t i = rxb s i) ∧
      u64 t.errCnt = u64 s.errCnt + differing s t n ∧ u64 t.bitCnt = u64 s.bitCnt + n ∧
      t.ber = rnd64 (u64 t.errCnt) (u64 t.bitCnt) ∧
      (∀ a, (a < reAddr symBase 0 ∨ reAddr symBase n ≤ a) → (a < reAddr rsymBase 0 ∨ reAddr rsymBase n ≤ a) →
        (a < bitWordAddr rxbBase 0 ∨ bitWordAddr rxbBase (n - 1) + 8 ≤ a) → readByte t a = readByte s a)

/-- 44_control.md R183, R184: RUN.QPSK whose checks pass: the five stages' results in one step, and nothing else. A NaN on the
way takes a free quiet pattern (log entry 4), and the draw counter's advance is the model's (log entry 14): both are the
model's choice. -/
def Obligations.RunQpskCompletes : Prop :=
  ∀ (s : State) (n : Nat) (σ : Word), CapacityLegal s → CountersOrdered s → s64 s.nBits = n → 1 ≤ n → n ≤ s.nMax →
    n % 2 = 0 → σ = sigmaQpsk s.draws s.snrDb → isFinite σ = true → u64 s.bitCnt + n ≤ 2 ^ 64 - 1 →
    ∃ m : Memory, ∃ t : State, exec .runQpsk s = .next t ∧
      t = { s with mem := m, symN := BitVec.ofNat 64 (n / 2), rsymN := BitVec.ofNat 64 (n / 2),
                   rxN := BitVec.ofNat 64 n, sigma := σ, errCnt := t.errCnt, bitCnt := t.bitCnt, ber := t.ber,
                   draws := s.draws + 1, status := statusOk s.status } ∧
      (∀ k, k < n / 2 →
        symRe t k = (if txb s (2 * k) then 0x3FE6A09E667F3BCC else 0xBFE6A09E667F3BCC) ∧
        symIm t k = (if txb s (2 * k + 1) then 0x3FE6A09E667F3BCC else 0xBFE6A09E667F3BCC) ∧
        (∃ p q p' q' : Word,
          isNaN p = true ∧ isNaN q = true ∧ p.getLsbD 51 = true ∧ q.getLsbD 51 = true ∧
          isNaN p' = true ∧ isNaN q' = true ∧ p'.getLsbD 51 = true ∧ q'.getLsbD 51 = true ∧
          rsymRe t k = add64 p (symRe t k) (mul64 q σ (noise s k)) ∧
          rsymIm t k = add64 p' (symIm t k) (mul64 q' σ (noise s (n / 2 + k)))) ∧
        rxb t (2 * k) = gt0 (rsymRe t k) ∧ rxb t (2 * k + 1) = gt0 (rsymIm t k)) ∧
      (∀ i, n ≤ i → i < s.nMax → rxb t i = rxb s i) ∧
      u64 t.errCnt = u64 s.errCnt + differing s t n ∧ u64 t.bitCnt = u64 s.bitCnt + n ∧
      t.ber = rnd64 (u64 t.errCnt) (u64 t.bitCnt) ∧
      (∀ a, (a < reAddr symBase 0 ∨ reAddr symBase (n / 2) ≤ a) →
        (a < reAddr rsymBase 0 ∨ reAddr rsymBase (n / 2) ≤ a) →
        (a < bitWordAddr rxbBase 0 ∨ bitWordAddr rxbBase (n - 1) + 8 ≤ a) → readByte t a = readByte s a)

/-- 44_control.md R185: RUN succeeds exactly when MOD, AWGN, DEMOD, COUNT and ESTIMATE of its scheme, one after another, all
succeed, and ends in the same state; a RUN that ends with error e changes STATUS alone, and e is the first error of that
sequence. That the two end with the same NaN patterns (log entry 4) and the same draw counter (log entry 14) is the model's
choice. -/
def Obligations.RunIsTheFiveCommands : Prop :=
  ∀ run mod awgn demod : Instr,
    (run, mod, awgn, demod) ∈
      [(Instr.runBpsk, Instr.modBpsk, Instr.awgnBpsk, Instr.demodBpsk), (.runQpsk, .modQpsk, .awgnQpsk, .demodQpsk)] →
    (∀ s t : State, Succeeds run s t ↔
      ∃ s₁ s₂ s₃ s₄ : State, Succeeds mod s s₁ ∧ Succeeds awgn s₁ s₂ ∧ Succeeds demod s₂ s₃ ∧
        Succeeds .count s₃ s₄ ∧ Succeeds .estimate s₄ t) ∧
    (∀ (s : State) (e : CmdError), Fails run s e →
      exec run s = .next { s with status := statusError s.status e } ∧
      (Fails mod s e ∨
        (∃ s₁, Succeeds mod s s₁ ∧ Fails awgn s₁ e) ∨
        (∃ s₁ s₂ s₃, Succeeds mod s s₁ ∧ Succeeds awgn s₁ s₂ ∧ Succeeds demod s₂ s₃ ∧ Fails .count s₃ e)))

/-- 42_demodulator.md R143: the round-trip law: for each scheme, every valid bit count and every TXB, with zero noise and a
finite deviation, or at SNR +infinity with finite noise, MOD, AWGN and DEMOD recover the transmitted bits. -/
def Obligations.NoiselessRoundTrip : Prop :=
  ∀ (s : State) (n : Nat), CapacityLegal s → s64 s.nBits = n → 1 ≤ n → n ≤ s.nMax →
    (((isFinite (sigmaBpsk s.draws s.snrDb) = true ∧ ∀ j, j < n → isZero (noise s j) = true) ∨
        (s.snrDb = 0x7FF0000000000000 ∧ ∀ j, j < n → isFinite (noise s j) = true)) →
      ∃ s₁ s₂ s₃ : State, Succeeds .modBpsk s s₁ ∧ Succeeds .awgnBpsk s₁ s₂ ∧ Succeeds .demodBpsk s₂ s₃ ∧
        u64 s₃.rxN = n ∧ ∀ i, i < n → rxb s₃ i = txb s i) ∧
    (n % 2 = 0 →
      ((isFinite (sigmaQpsk s.draws s.snrDb) = true ∧ ∀ j, j < n → isZero (noise s j) = true) ∨
        (s.snrDb = 0x7FF0000000000000 ∧ ∀ j, j < n → isFinite (noise s j) = true)) →
      ∃ s₁ s₂ s₃ : State, Succeeds .modQpsk s s₁ ∧ Succeeds .awgnQpsk s₁ s₂ ∧ Succeeds .demodQpsk s₂ s₃ ∧
        u64 s₃.rxN = n ∧ ∀ i, i < n → rxb s₃ i = txb s i)

/-- 43_ber_counter.md R163: where RXB equals TXB over a valid length, CLEAR, COUNT and ESTIMATE leave ERR_CNT 0, BIT_CNT n
and BER +0.0. -/
def Obligations.IdentityLaw : Prop :=
  ∀ (s : State) (n : Nat), s64 s.nBits = n → 1 ≤ n → n ≤ s.nMax → u64 s.rxN = n →
    (∀ i, i < n → rxb s i = txb s i) →
    ∃ s₁ s₂ s₃ : State, Succeeds .clear s s₁ ∧ Succeeds .count s₁ s₂ ∧ Succeeds .estimate s₂ s₃ ∧
      u64 s₃.errCnt = 0 ∧ u64 s₃.bitCnt = n ∧ s₃.ber = 0x0000000000000000

/-! ### Invariants -/

/-- 10_state.md R36: no step changes N_MAX. -/
def Obligations.CapacityNeverChanges : Prop := ∀ s t : State, step s = .next t → t.nmax = s.nmax

/-- Every step keeps the memory's canonical form (strictly rising addresses), from every state that has it. The form is the
model's choice (log entry 3). -/
def Obligations.StepKeepsMemoryCanonical : Prop :=
  ∀ s t : State, Memory.wf s.mem = true → step s = .next t → Memory.wf t.mem = true

/-- 20_memory.md R53 and R57: every step keeps every written byte inside a mapped buffer, from every state with a legal
capacity that has it so. That memory lists the written bytes alone is the model's choice (log entry 3). -/
def Obligations.StepKeepsBuffersMapped : Prop :=
  ∀ s t : State, CapacityLegal s → BuffersMapped s → step s = .next t → BuffersMapped t

/-- 60_exceptions.md R207 to R212: every step keeps the handshake sound: BUSY excludes DONE and FATAL, and FATAL means
ERRCODE 3. -/
def Obligations.StepKeepsHandshakeSound : Prop :=
  ∀ s t : State, HandshakeSound s → step s = .next t → HandshakeSound t

/-- 10_state.md R46: every step keeps ERR_CNT <= BIT_CNT. -/
def Obligations.StepKeepsCountersOrdered : Prop :=
  ∀ s t : State, CountersOrdered s → step s = .next t → CountersOrdered t

/-- 43_ber_counter.md R162, 10_state.md R46, 41_awgn.md R123: every step keeps BER in [0, 1] and SIGMA finite, given
ERR_CNT <= BIT_CNT. -/
def Obligations.StepKeepsResultsInRange : Prop :=
  ∀ s t : State, CountersOrdered s → RateInRange s → DeviationFinite s → step s = .next t →
    RateInRange t ∧ DeviationFinite t

/-- The state after reset meets every invariant. -/
def Obligations.ResetMeetsTheInvariants : Prop :=
  CapacityLegal State.reset ∧ Memory.wf State.reset.mem = true ∧ BuffersMapped State.reset ∧
    HandshakeSound State.reset ∧ CountersOrdered State.reset ∧ RateInRange State.reset ∧ DeviationFinite State.reset
end

