-- ==== Sys2Proof/Laws/State.lean ====
section
/-! SUPPORT. What each shared update of the state leaves in each field: one lemma a field and update, true by
definition, so that no proof unfolds a record update. -/

namespace Sys2Proof.Machine

@[simp] theorem raise_ie (e : CmdError) (s : State) : (raise e s).ie = s.ie := rfl
@[simp] theorem raise_status (e : CmdError) (s : State) : (raise e s).status = s.status.failed e := rfl
@[simp] theorem raise_nBits (e : CmdError) (s : State) : (raise e s).nBits = s.nBits := rfl
@[simp] theorem raise_snrDb (e : CmdError) (s : State) : (raise e s).snrDb = s.snrDb := rfl
@[simp] theorem raise_symN (e : CmdError) (s : State) : (raise e s).symN = s.symN := rfl
@[simp] theorem raise_rsymN (e : CmdError) (s : State) : (raise e s).rsymN = s.rsymN := rfl
@[simp] theorem raise_rxN (e : CmdError) (s : State) : (raise e s).rxN = s.rxN := rfl
@[simp] theorem raise_sigma (e : CmdError) (s : State) : (raise e s).sigma = s.sigma := rfl
@[simp] theorem raise_errCnt (e : CmdError) (s : State) : (raise e s).errCnt = s.errCnt := rfl
@[simp] theorem raise_bitCnt (e : CmdError) (s : State) : (raise e s).bitCnt = s.bitCnt := rfl
@[simp] theorem raise_ber (e : CmdError) (s : State) : (raise e s).ber = s.ber := rfl
@[simp] theorem raise_nmax (e : CmdError) (s : State) : (raise e s).nmax = s.nmax := rfl
@[simp] theorem raise_cur (e : CmdError) (s : State) : (raise e s).cur = s.cur := rfl
@[simp] theorem raise_mem (e : CmdError) (s : State) : (raise e s).mem = s.mem := rfl
@[simp] theorem raise_epoch (e : CmdError) (s : State) : (raise e s).epoch = s.epoch := rfl
@[simp] theorem raise_draws (e : CmdError) (s : State) : (raise e s).draws = s.draws := rfl
@[simp] theorem raise_events (e : CmdError) (s : State) : (raise e s).events = s.events := rfl
@[simp] theorem raise_rdata (e : CmdError) (s : State) : (raise e s).rdata = s.rdata := rfl

@[simp] theorem retire_ie (s : State) : (retire s).ie = s.ie := rfl
@[simp] theorem retire_status (s : State) : (retire s).status = s.status.succeeded := rfl
@[simp] theorem retire_nBits (s : State) : (retire s).nBits = s.nBits := rfl
@[simp] theorem retire_snrDb (s : State) : (retire s).snrDb = s.snrDb := rfl
@[simp] theorem retire_symN (s : State) : (retire s).symN = s.symN := rfl
@[simp] theorem retire_rsymN (s : State) : (retire s).rsymN = s.rsymN := rfl
@[simp] theorem retire_rxN (s : State) : (retire s).rxN = s.rxN := rfl
@[simp] theorem retire_sigma (s : State) : (retire s).sigma = s.sigma := rfl
@[simp] theorem retire_errCnt (s : State) : (retire s).errCnt = s.errCnt := rfl
@[simp] theorem retire_bitCnt (s : State) : (retire s).bitCnt = s.bitCnt := rfl
@[simp] theorem retire_ber (s : State) : (retire s).ber = s.ber := rfl
@[simp] theorem retire_nmax (s : State) : (retire s).nmax = s.nmax := rfl
@[simp] theorem retire_cur (s : State) : (retire s).cur = s.cur := rfl
@[simp] theorem retire_mem (s : State) : (retire s).mem = s.mem := rfl
@[simp] theorem retire_epoch (s : State) : (retire s).epoch = s.epoch := rfl
@[simp] theorem retire_draws (s : State) : (retire s).draws = s.draws := rfl
@[simp] theorem retire_events (s : State) : (retire s).events = s.events := rfl
@[simp] theorem retire_rdata (s : State) : (retire s).rdata = s.rdata := rfl

@[simp] theorem accept_ie (c : Word) (s : State) : (accept c s).ie = s.ie := rfl
@[simp] theorem accept_status (c : Word) (s : State) : (accept c s).status = s.status.accepted := rfl
@[simp] theorem accept_nBits (c : Word) (s : State) : (accept c s).nBits = s.nBits := rfl
@[simp] theorem accept_snrDb (c : Word) (s : State) : (accept c s).snrDb = s.snrDb := rfl
@[simp] theorem accept_symN (c : Word) (s : State) : (accept c s).symN = s.symN := rfl
@[simp] theorem accept_rsymN (c : Word) (s : State) : (accept c s).rsymN = s.rsymN := rfl
@[simp] theorem accept_rxN (c : Word) (s : State) : (accept c s).rxN = s.rxN := rfl
@[simp] theorem accept_sigma (c : Word) (s : State) : (accept c s).sigma = s.sigma := rfl
@[simp] theorem accept_errCnt (c : Word) (s : State) : (accept c s).errCnt = s.errCnt := rfl
@[simp] theorem accept_bitCnt (c : Word) (s : State) : (accept c s).bitCnt = s.bitCnt := rfl
@[simp] theorem accept_ber (c : Word) (s : State) : (accept c s).ber = s.ber := rfl
@[simp] theorem accept_nmax (c : Word) (s : State) : (accept c s).nmax = s.nmax := rfl
@[simp] theorem accept_cur (c : Word) (s : State) : (accept c s).cur = c := rfl
@[simp] theorem accept_mem (c : Word) (s : State) : (accept c s).mem = s.mem := rfl
@[simp] theorem accept_epoch (c : Word) (s : State) : (accept c s).epoch = s.epoch := rfl
@[simp] theorem accept_draws (c : Word) (s : State) : (accept c s).draws = s.draws := rfl
@[simp] theorem accept_events (c : Word) (s : State) : (accept c s).events = s.events := rfl
@[simp] theorem accept_rdata (c : Word) (s : State) : (accept c s).rdata = s.rdata := rfl

@[simp] theorem dropWrite_ie (s : State) : (dropWrite s).ie = s.ie := rfl
@[simp] theorem dropWrite_status (s : State) : (dropWrite s).status = s.status.dropped := rfl
@[simp] theorem dropWrite_nBits (s : State) : (dropWrite s).nBits = s.nBits := rfl
@[simp] theorem dropWrite_snrDb (s : State) : (dropWrite s).snrDb = s.snrDb := rfl
@[simp] theorem dropWrite_symN (s : State) : (dropWrite s).symN = s.symN := rfl
@[simp] theorem dropWrite_rsymN (s : State) : (dropWrite s).rsymN = s.rsymN := rfl
@[simp] theorem dropWrite_rxN (s : State) : (dropWrite s).rxN = s.rxN := rfl
@[simp] theorem dropWrite_sigma (s : State) : (dropWrite s).sigma = s.sigma := rfl
@[simp] theorem dropWrite_errCnt (s : State) : (dropWrite s).errCnt = s.errCnt := rfl
@[simp] theorem dropWrite_bitCnt (s : State) : (dropWrite s).bitCnt = s.bitCnt := rfl
@[simp] theorem dropWrite_ber (s : State) : (dropWrite s).ber = s.ber := rfl
@[simp] theorem dropWrite_nmax (s : State) : (dropWrite s).nmax = s.nmax := rfl
@[simp] theorem dropWrite_cur (s : State) : (dropWrite s).cur = s.cur := rfl
@[simp] theorem dropWrite_mem (s : State) : (dropWrite s).mem = s.mem := rfl
@[simp] theorem dropWrite_epoch (s : State) : (dropWrite s).epoch = s.epoch := rfl
@[simp] theorem dropWrite_draws (s : State) : (dropWrite s).draws = s.draws := rfl
@[simp] theorem dropWrite_events (s : State) : (dropWrite s).events = s.events := rfl
@[simp] theorem dropWrite_rdata (s : State) : (dropWrite s).rdata = s.rdata := rfl

@[simp] theorem writeWord_ie (s : State) (a : Nat) (v : Word) : (writeWord s a v).ie = s.ie := rfl
@[simp] theorem writeWord_status (s : State) (a : Nat) (v : Word) : (writeWord s a v).status = s.status := rfl
@[simp] theorem writeWord_nBits (s : State) (a : Nat) (v : Word) : (writeWord s a v).nBits = s.nBits := rfl
@[simp] theorem writeWord_snrDb (s : State) (a : Nat) (v : Word) : (writeWord s a v).snrDb = s.snrDb := rfl
@[simp] theorem writeWord_symN (s : State) (a : Nat) (v : Word) : (writeWord s a v).symN = s.symN := rfl
@[simp] theorem writeWord_rsymN (s : State) (a : Nat) (v : Word) : (writeWord s a v).rsymN = s.rsymN := rfl
@[simp] theorem writeWord_rxN (s : State) (a : Nat) (v : Word) : (writeWord s a v).rxN = s.rxN := rfl
@[simp] theorem writeWord_sigma (s : State) (a : Nat) (v : Word) : (writeWord s a v).sigma = s.sigma := rfl
@[simp] theorem writeWord_errCnt (s : State) (a : Nat) (v : Word) : (writeWord s a v).errCnt = s.errCnt := rfl
@[simp] theorem writeWord_bitCnt (s : State) (a : Nat) (v : Word) : (writeWord s a v).bitCnt = s.bitCnt := rfl
@[simp] theorem writeWord_ber (s : State) (a : Nat) (v : Word) : (writeWord s a v).ber = s.ber := rfl
@[simp] theorem writeWord_nmax (s : State) (a : Nat) (v : Word) : (writeWord s a v).nmax = s.nmax := rfl
@[simp] theorem writeWord_cur (s : State) (a : Nat) (v : Word) : (writeWord s a v).cur = s.cur := rfl
@[simp] theorem writeWord_mem (s : State) (a : Nat) (v : Word) : (writeWord s a v).mem = storeBytes s.mem a v 8 := rfl
@[simp] theorem writeWord_epoch (s : State) (a : Nat) (v : Word) : (writeWord s a v).epoch = s.epoch := rfl
@[simp] theorem writeWord_draws (s : State) (a : Nat) (v : Word) : (writeWord s a v).draws = s.draws := rfl
@[simp] theorem writeWord_events (s : State) (a : Nat) (v : Word) : (writeWord s a v).events = s.events := rfl
@[simp] theorem writeWord_rdata (s : State) (a : Nat) (v : Word) : (writeWord s a v).rdata = s.rdata := rfl

@[simp] theorem readFree_ie (s : State) : (readFree s).ie = s.ie := rfl
@[simp] theorem readFree_status (s : State) : (readFree s).status = s.status := rfl
@[simp] theorem readFree_nBits (s : State) : (readFree s).nBits = s.nBits := rfl
@[simp] theorem readFree_snrDb (s : State) : (readFree s).snrDb = s.snrDb := rfl
@[simp] theorem readFree_symN (s : State) : (readFree s).symN = s.symN := rfl
@[simp] theorem readFree_rsymN (s : State) : (readFree s).rsymN = s.rsymN := rfl
@[simp] theorem readFree_rxN (s : State) : (readFree s).rxN = s.rxN := rfl
@[simp] theorem readFree_sigma (s : State) : (readFree s).sigma = s.sigma := rfl
@[simp] theorem readFree_errCnt (s : State) : (readFree s).errCnt = s.errCnt := rfl
@[simp] theorem readFree_bitCnt (s : State) : (readFree s).bitCnt = s.bitCnt := rfl
@[simp] theorem readFree_ber (s : State) : (readFree s).ber = s.ber := rfl
@[simp] theorem readFree_nmax (s : State) : (readFree s).nmax = s.nmax := rfl
@[simp] theorem readFree_cur (s : State) : (readFree s).cur = s.cur := rfl
@[simp] theorem readFree_mem (s : State) : (readFree s).mem = s.mem := rfl
@[simp] theorem readFree_epoch (s : State) : (readFree s).epoch = s.epoch := rfl
@[simp] theorem readFree_draws (s : State) : (readFree s).draws = s.draws + 1 := rfl
@[simp] theorem readFree_events (s : State) : (readFree s).events = s.events := rfl
@[simp] theorem readFree_rdata (s : State) : (readFree s).rdata = Config.readDraw s.draws := rfl

@[simp] theorem withEvents_ie (s : State) (es : List Event) : (withEvents s es).ie = s.ie := rfl
@[simp] theorem withEvents_status (s : State) (es : List Event) : (withEvents s es).status = s.status := rfl
@[simp] theorem withEvents_nBits (s : State) (es : List Event) : (withEvents s es).nBits = s.nBits := rfl
@[simp] theorem withEvents_snrDb (s : State) (es : List Event) : (withEvents s es).snrDb = s.snrDb := rfl
@[simp] theorem withEvents_symN (s : State) (es : List Event) : (withEvents s es).symN = s.symN := rfl
@[simp] theorem withEvents_rsymN (s : State) (es : List Event) : (withEvents s es).rsymN = s.rsymN := rfl
@[simp] theorem withEvents_rxN (s : State) (es : List Event) : (withEvents s es).rxN = s.rxN := rfl
@[simp] theorem withEvents_sigma (s : State) (es : List Event) : (withEvents s es).sigma = s.sigma := rfl
@[simp] theorem withEvents_errCnt (s : State) (es : List Event) : (withEvents s es).errCnt = s.errCnt := rfl
@[simp] theorem withEvents_bitCnt (s : State) (es : List Event) : (withEvents s es).bitCnt = s.bitCnt := rfl
@[simp] theorem withEvents_ber (s : State) (es : List Event) : (withEvents s es).ber = s.ber := rfl
@[simp] theorem withEvents_nmax (s : State) (es : List Event) : (withEvents s es).nmax = s.nmax := rfl
@[simp] theorem withEvents_cur (s : State) (es : List Event) : (withEvents s es).cur = s.cur := rfl
@[simp] theorem withEvents_mem (s : State) (es : List Event) : (withEvents s es).mem = s.mem := rfl
@[simp] theorem withEvents_epoch (s : State) (es : List Event) : (withEvents s es).epoch = s.epoch := rfl
@[simp] theorem withEvents_draws (s : State) (es : List Event) : (withEvents s es).draws = s.draws := rfl
@[simp] theorem withEvents_events (s : State) (es : List Event) : (withEvents s es).events = es := rfl
@[simp] theorem withEvents_rdata (s : State) (es : List Event) : (withEvents s es).rdata = s.rdata := rfl

@[simp] theorem reset_ie : State.reset.ie = false := rfl
@[simp] theorem reset_status : State.reset.status = Status.reset := rfl
@[simp] theorem reset_nBits : State.reset.nBits = 0 := rfl
@[simp] theorem reset_snrDb : State.reset.snrDb = 0 := rfl
@[simp] theorem reset_symN : State.reset.symN = 0 := rfl
@[simp] theorem reset_rsymN : State.reset.rsymN = 0 := rfl
@[simp] theorem reset_rxN : State.reset.rxN = 0 := rfl
@[simp] theorem reset_sigma : State.reset.sigma = 0 := rfl
@[simp] theorem reset_errCnt : State.reset.errCnt = 0 := rfl
@[simp] theorem reset_bitCnt : State.reset.bitCnt = 0 := rfl
@[simp] theorem reset_ber : State.reset.ber = 0 := rfl
@[simp] theorem reset_nmax : State.reset.nmax = BitVec.ofNat 64 Config.nMax := rfl
@[simp] theorem reset_cur : State.reset.cur = 0 := rfl
@[simp] theorem reset_mem : State.reset.mem = [] := rfl
@[simp] theorem reset_epoch : State.reset.epoch = 0 := rfl
@[simp] theorem reset_draws : State.reset.draws = 0 := rfl
@[simp] theorem reset_events : State.reset.events = [] := rfl
@[simp] theorem reset_rdata : State.reset.rdata = 0 := rfl

@[simp] theorem resetBlock_ie (s : State) : (resetBlock s).ie = State.reset.ie := rfl
@[simp] theorem resetBlock_status (s : State) : (resetBlock s).status = State.reset.status := rfl
@[simp] theorem resetBlock_nBits (s : State) : (resetBlock s).nBits = State.reset.nBits := rfl
@[simp] theorem resetBlock_snrDb (s : State) : (resetBlock s).snrDb = State.reset.snrDb := rfl
@[simp] theorem resetBlock_symN (s : State) : (resetBlock s).symN = State.reset.symN := rfl
@[simp] theorem resetBlock_rsymN (s : State) : (resetBlock s).rsymN = State.reset.rsymN := rfl
@[simp] theorem resetBlock_rxN (s : State) : (resetBlock s).rxN = State.reset.rxN := rfl
@[simp] theorem resetBlock_sigma (s : State) : (resetBlock s).sigma = State.reset.sigma := rfl
@[simp] theorem resetBlock_errCnt (s : State) : (resetBlock s).errCnt = State.reset.errCnt := rfl
@[simp] theorem resetBlock_bitCnt (s : State) : (resetBlock s).bitCnt = State.reset.bitCnt := rfl
@[simp] theorem resetBlock_ber (s : State) : (resetBlock s).ber = State.reset.ber := rfl
@[simp] theorem resetBlock_nmax (s : State) : (resetBlock s).nmax = s.nmax := rfl
@[simp] theorem resetBlock_cur (s : State) : (resetBlock s).cur = State.reset.cur := rfl
@[simp] theorem resetBlock_mem (s : State) : (resetBlock s).mem = State.reset.mem := rfl
@[simp] theorem resetBlock_epoch (s : State) : (resetBlock s).epoch = s.epoch + 1 := rfl
@[simp] theorem resetBlock_draws (s : State) : (resetBlock s).draws = s.draws := rfl
@[simp] theorem resetBlock_events (s : State) : (resetBlock s).events = s.events := rfl
@[simp] theorem resetBlock_rdata (s : State) : (resetBlock s).rdata = s.rdata := rfl

@[simp] theorem Status.succeeded_busy (st : Status) : st.succeeded.busy = false := rfl
@[simp] theorem Status.succeeded_done (st : Status) : st.succeeded.done = true := rfl
@[simp] theorem Status.succeeded_fatal (st : Status) : st.succeeded.fatal = st.fatal := rfl
@[simp] theorem Status.succeeded_drop (st : Status) : st.succeeded.drop = st.drop := rfl
@[simp] theorem Status.succeeded_errCode (st : Status) : st.succeeded.errCode = none := rfl

@[simp] theorem Status.failed_busy (st : Status) (e : CmdError) : (st.failed e).busy = false := rfl
@[simp] theorem Status.failed_done (st : Status) (e : CmdError) : (st.failed e).done = true := rfl
@[simp] theorem Status.failed_fatal (st : Status) (e : CmdError) : (st.failed e).fatal = (if e = .lengthMismatch then true else st.fatal) := rfl
@[simp] theorem Status.failed_drop (st : Status) (e : CmdError) : (st.failed e).drop = st.drop := rfl
@[simp] theorem Status.failed_errCode (st : Status) (e : CmdError) : (st.failed e).errCode = some e := rfl

@[simp] theorem Status.accepted_busy (st : Status) : st.accepted.busy = true := rfl
@[simp] theorem Status.accepted_done (st : Status) : st.accepted.done = false := rfl
@[simp] theorem Status.accepted_fatal (st : Status) : st.accepted.fatal = st.fatal := rfl
@[simp] theorem Status.accepted_drop (st : Status) : st.accepted.drop = st.drop := rfl
@[simp] theorem Status.accepted_errCode (st : Status) : st.accepted.errCode = st.errCode := rfl

@[simp] theorem Status.dropped_busy (st : Status) : st.dropped.busy = st.busy := rfl
@[simp] theorem Status.dropped_done (st : Status) : st.dropped.done = st.done := rfl
@[simp] theorem Status.dropped_fatal (st : Status) : st.dropped.fatal = st.fatal := rfl
@[simp] theorem Status.dropped_drop (st : Status) : st.dropped.drop = true := rfl
@[simp] theorem Status.dropped_errCode (st : Status) : st.dropped.errCode = st.errCode := rfl

@[simp] theorem Status.writeOneToClear_busy (st : Status) (v : Word) : (st.writeOneToClear v).busy = st.busy := rfl
@[simp] theorem Status.writeOneToClear_done (st : Status) (v : Word) : (st.writeOneToClear v).done = (if v.getLsbD 1 then false else st.done) := rfl
@[simp] theorem Status.writeOneToClear_fatal (st : Status) (v : Word) : (st.writeOneToClear v).fatal = st.fatal := rfl
@[simp] theorem Status.writeOneToClear_drop (st : Status) (v : Word) : (st.writeOneToClear v).drop = (if v.getLsbD 3 then false else st.drop) := rfl
@[simp] theorem Status.writeOneToClear_errCode (st : Status) (v : Word) : (st.writeOneToClear v).errCode = st.errCode := rfl

@[simp] theorem Status.reset_busy : Status.reset.busy = false := rfl
@[simp] theorem Status.reset_done : Status.reset.done = false := rfl
@[simp] theorem Status.reset_fatal : Status.reset.fatal = false := rfl
@[simp] theorem Status.reset_drop : Status.reset.drop = false := rfl
@[simp] theorem Status.reset_errCode : Status.reset.errCode = none := rfl

@[simp] theorem raise_nMax (e : CmdError) (s : State) : (raise e s).nMax = s.nMax := rfl
@[simp] theorem retire_nMax (s : State) : (retire s).nMax = s.nMax := rfl
@[simp] theorem accept_nMax (c : Word) (s : State) : (accept c s).nMax = s.nMax := rfl
@[simp] theorem dropWrite_nMax (s : State) : (dropWrite s).nMax = s.nMax := rfl
@[simp] theorem writeWord_nMax (s : State) (a : Nat) (v : Word) : (writeWord s a v).nMax = s.nMax := rfl
@[simp] theorem readFree_nMax (s : State) : (readFree s).nMax = s.nMax := rfl
@[simp] theorem withEvents_nMax (s : State) (es : List Event) : (withEvents s es).nMax = s.nMax := rfl
@[simp] theorem resetBlock_nMax (s : State) : (resetBlock s).nMax = s.nMax := rfl

end Sys2Proof.Machine
end

