-- ==== Sys2Proof/Laws/Memory.lean ====
section
/-! SUPPORT. The laws of the buffers' memory: what one byte, one word, one bit and each storing loop leaves where, and
that the canonical form is kept. -/

namespace Sys2Proof.Machine

/-! ### One byte -/

theorem lookupByte_insertByte_same (m : Memory) (a : Nat) (b : Byte) :
    lookupByte (insertByte m a b) a = some b := by
  induction m with
  | nil => simp [insertByte, lookupByte]
  | cons c m ih =>
    simp only [insertByte]
    split
    · simp [lookupByte]
    · split
      · simp [lookupByte]
      · rw [lookupByte, if_neg (by omega), ih]

theorem lookupByte_insertByte_other (m : Memory) {a a' : Nat} (b : Byte) (h : a' ≠ a) :
    lookupByte (insertByte m a b) a' = lookupByte m a' := by
  induction m with
  | nil => simp [insertByte, lookupByte, h.symm]
  | cons c m ih =>
    simp only [insertByte]
    split
    · simp [lookupByte, h.symm]
    · split
      · rename_i h2
        simp [lookupByte, h.symm, ← h2]
      · simp [lookupByte, ih]

/-- What a byte reads as after one byte is inserted. -/
theorem lookupByte_insertByte (m : Memory) (a a' : Nat) (b : Byte) :
    lookupByte (insertByte m a b) a' = if a' = a then some b else lookupByte m a' := by
  split
  · subst_vars; exact lookupByte_insertByte_same m _ b
  · exact lookupByte_insertByte_other m b ‹_›

theorem mem_insertByte {m : Memory} {a : Nat} {b : Byte} {c : Host.Cell} (h : c ∈ insertByte m a b) :
    c = (a, b) ∨ c ∈ m := by
  induction m with
  | nil => simpa [insertByte] using h
  | cons d m ih =>
    simp only [insertByte] at h
    split at h
    · simpa using h
    · split at h
      · rcases List.mem_cons.mp h with h | h
        · exact .inl h
        · exact .inr (List.mem_cons_of_mem _ h)
      · rcases List.mem_cons.mp h with h | h
        · exact .inr (by simp [h])
        · rcases ih h with h | h
          · exact .inl h
          · exact .inr (List.mem_cons_of_mem _ h)

/-- The canonical form of a list with a head: the head lies below every later address. -/
theorem Memory.wf_cons {c : Host.Cell} {m : Memory} :
    Memory.wf (c :: m) = true ↔ (∀ d ∈ m, c.1 < d.1) ∧ Memory.wf m = true := by
  induction m generalizing c with
  | nil => simp [Memory.wf]
  | cons d m ih =>
    simp only [Memory.wf, Bool.and_eq_true, decide_eq_true_eq, List.mem_cons, forall_eq_or_imp]
    rw [ih]
    constructor
    · rintro ⟨h, h1, h2⟩
      exact ⟨⟨h, fun e he => Nat.lt_trans h (h1 e he)⟩, h1, h2⟩
    · rintro ⟨⟨h, _⟩, h1, h2⟩
      exact ⟨h, h1, h2⟩

/-- The memory after reset is in canonical form. -/
theorem Memory.wf_reset : Memory.wf State.reset.mem = true := rfl

/-- Inserting a byte keeps the canonical form. -/
theorem Memory.wf_insertByte {m : Memory} (a : Nat) (b : Byte) (h : Memory.wf m = true) :
    Memory.wf (insertByte m a b) = true := by
  induction m with
  | nil => rfl
  | cons c m ih =>
    have hc := Memory.wf_cons.mp h
    simp only [insertByte]
    split
    · refine Memory.wf_cons.mpr ⟨fun d hd => ?_, h⟩
      rcases List.mem_cons.mp hd with rfl | hd
      · assumption
      · exact Nat.lt_trans (by assumption) (hc.1 d hd)
    · split
      · subst_vars
        exact Memory.wf_cons.mpr hc
      · refine Memory.wf_cons.mpr ⟨fun d hd => ?_, ih hc.2⟩
        rcases mem_insertByte hd with rfl | hd
        · show c.1 < a
          omega
        · exact hc.1 d hd

/-- Equal contents, equal data: two memories in canonical form with the same written bytes are the same list. -/
theorem Memory.eq_of_lookupByte {m n : Memory} (hm : Memory.wf m = true) (hn : Memory.wf n = true)
    (h : ∀ a, lookupByte m a = lookupByte n a) : m = n := by
  have none_below : ∀ (l : Memory) (a : Nat), (∀ d ∈ l, a < d.1) → lookupByte l a = none := by
    intro l a hl
    induction l with
    | nil => rfl
    | cons d l ih =>
      have := hl d (by simp)
      rw [lookupByte, if_neg (by omega), ih (fun e he => hl e (by simp [he]))]
  induction m generalizing n with
  | nil =>
    cases n with
    | nil => rfl
    | cons d n => have := h d.1; simp [lookupByte] at this
  | cons c m ih =>
    cases n with
    | nil => have := h c.1; simp [lookupByte] at this
    | cons d n =>
      have hc := Memory.wf_cons.mp hm
      have hd := Memory.wf_cons.mp hn
      have key : c.1 = d.1 := by
        rcases Nat.lt_trichotomy c.1 d.1 with hlt | heq | hgt
        · have h1 := h c.1
          rw [none_below (d :: n) c.1 (by
            intro e he
            rcases List.mem_cons.mp he with rfl | he
            · exact hlt
            · exact Nat.lt_trans hlt (hd.1 e he))] at h1
          simp [lookupByte] at h1
        · exact heq
        · have h1 := h d.1
          rw [none_below (c :: m) d.1 (by
            intro e he
            rcases List.mem_cons.mp he with rfl | he
            · exact hgt
            · exact Nat.lt_trans hgt (hc.1 e he))] at h1
          simp [lookupByte] at h1
      have val : c.2 = d.2 := by
        have h1 := h c.1
        simpa [lookupByte, key] using h1
      have tail : m = n := by
        refine ih hc.2 hd.2 fun a => ?_
        by_cases ha : c.1 = a
        · rw [none_below m a (by rw [← ha]; exact hc.1), none_below n a (by rw [← ha, key]; exact hd.1)]
        · have h1 := h a
          simpa [lookupByte, ha, ← key] using h1
      rw [tail, Prod.ext key val]

/-! ### Words as bytes -/

theorem lookupByte_storeBytes (m : Memory) (a : Nat) (v : Word) (k x : Nat) :
    lookupByte (storeBytes m a v k) x =
      if a ≤ x ∧ x < a + k then some (byteOf v (x - a)) else lookupByte m x := by
  induction k with
  | zero => rw [storeBytes, if_neg (by omega)]
  | succ k ih =>
    rw [storeBytes, lookupByte_insertByte, ih]
    by_cases h : x = a + k
    · subst h
      rw [if_pos rfl, if_pos (by omega), Nat.add_sub_cancel_left]
    · rw [if_neg h]
      by_cases h2 : a ≤ x ∧ x < a + k
      · rw [if_pos h2, if_pos (by omega)]
      · rw [if_neg h2, if_neg (by omega)]

theorem mem_storeBytes {m : Memory} {a k : Nat} {v : Word} {c : Host.Cell} (h : c ∈ storeBytes m a v k) :
    (a ≤ c.1 ∧ c.1 < a + k) ∨ c ∈ m := by
  induction k with
  | zero => exact .inr h
  | succ k ih =>
    rcases mem_insertByte h with rfl | h
    · exact .inl ⟨by simp, by simp⟩
    · rcases ih h with h | h
      · exact .inl ⟨h.1, by omega⟩
      · exact .inr h

theorem Memory.wf_storeBytes {m : Memory} (a : Nat) (v : Word) (k : Nat) (h : Memory.wf m = true) :
    Memory.wf (storeBytes m a v k) = true := by
  induction k with
  | zero => exact h
  | succ k ih => exact Memory.wf_insertByte _ _ ih

/-- What a byte reads as after a word is written: its byte of the word inside, as before outside. -/
theorem readByte_writeWord (s : State) (a : Nat) (v : Word) (x : Nat) :
    readByte (writeWord s a v) x = if a ≤ x ∧ x < a + 8 then byteOf v (x - a) else readByte s x := by
  simp only [readByte, writeWord_mem, writeWord_epoch, lookupByte_storeBytes]
  split <;> rfl

theorem readByte_writeWord_outside (s : State) {a x : Nat} (v : Word) (h : x < a ∨ a + 8 ≤ x) :
    readByte (writeWord s a v) x = readByte s x := by
  rw [readByte_writeWord, if_neg (by omega)]

/-- Reading bytes depends on memory and epoch alone. -/
theorem readByte_congr {s t : State} (hm : t.mem = s.mem) (he : t.epoch = s.epoch) (a : Nat) :
    readByte t a = readByte s a := by
  simp [readByte, hm, he]

/-- A word is determined by its eight bytes. -/
theorem readWord_eq_of_readByte {s t : State} {a b : Nat}
    (h : ∀ k, k < 8 → readByte t (b + k) = readByte s (a + k)) : readWord t b = readWord s a := by
  have h0 := h 0 (by omega)
  simp only [readWord, h 7 (by omega), h 6 (by omega), h 5 (by omega), h 4 (by omega), h 3 (by omega),
    h 2 (by omega), h 1 (by omega)]
  simp only [Nat.add_zero] at h0
  rw [h0]

theorem readWord_congr {s t : State} (hm : t.mem = s.mem) (he : t.epoch = s.epoch) (a : Nat) :
    readWord t a = readWord s a :=
  readWord_eq_of_readByte fun _ _ => readByte_congr hm he _

/-- Bit j of a word is bit j mod 8 of its byte j div 8 (20_memory.md R58). -/
theorem getLsbD_readWord (s : State) (a : Nat) {j : Nat} (h : j < 64) :
    (readWord s a).getLsbD j = (readByte s (a + j / 8)).getLsbD (j % 8) := by
  have hj : j / 8 < 8 := by omega
  have hd : j = 8 * (j / 8) + j % 8 := by omega
  have hr : j % 8 < 8 := by omega
  generalize j / 8 = q at *
  generalize j % 8 = r at *
  subst hd
  simp only [readWord, BitVec.getLsbD_append]
  have hq : q = 0 ∨ q = 1 ∨ q = 2 ∨ q = 3 ∨ q = 4 ∨ q = 5 ∨ q = 6 ∨ q = 7 := by omega
  rcases hq with rfl | rfl | rfl | rfl | rfl | rfl | rfl | rfl
  · simp [hr]
  · simp [hr, show ¬ 8 + r < 8 by omega, show 8 + r - 8 = r by omega]
  · simp [hr, show ¬ 16 + r < 8 by omega, show ¬ 16 + r - 8 < 8 by omega, show 16 + r - 8 - 8 = r by omega]
  · simp [hr, show ¬ 24 + r < 8 by omega, show ¬ 24 + r - 8 < 8 by omega, show ¬ 24 + r - 8 - 8 < 8 by omega,
      show 24 + r - 8 - 8 - 8 = r by omega]
  · simp [hr, show ¬ 32 + r < 8 by omega, show ¬ 32 + r - 8 < 8 by omega, show ¬ 32 + r - 8 - 8 < 8 by omega,
      show ¬ 32 + r - 8 - 8 - 8 < 8 by omega, show 32 + r - 8 - 8 - 8 - 8 = r by omega]
  · simp [hr, show ¬ 40 + r < 8 by omega, show ¬ 40 + r - 8 < 8 by omega, show ¬ 40 + r - 8 - 8 < 8 by omega,
      show ¬ 40 + r - 8 - 8 - 8 < 8 by omega, show ¬ 40 + r - 8 - 8 - 8 - 8 < 8 by omega,
      show 40 + r - 8 - 8 - 8 - 8 - 8 = r by omega]
  · simp [hr, show ¬ 48 + r < 8 by omega, show ¬ 48 + r - 8 < 8 by omega, show ¬ 48 + r - 8 - 8 < 8 by omega,
      show ¬ 48 + r - 8 - 8 - 8 < 8 by omega, show ¬ 48 + r - 8 - 8 - 8 - 8 < 8 by omega,
      show ¬ 48 + r - 8 - 8 - 8 - 8 - 8 < 8 by omega, show 48 + r - 8 - 8 - 8 - 8 - 8 - 8 = r by omega]
  · simp [hr, show ¬ 56 + r < 8 by omega, show ¬ 56 + r - 8 < 8 by omega, show ¬ 56 + r - 8 - 8 < 8 by omega,
      show ¬ 56 + r - 8 - 8 - 8 < 8 by omega, show ¬ 56 + r - 8 - 8 - 8 - 8 < 8 by omega,
      show ¬ 56 + r - 8 - 8 - 8 - 8 - 8 < 8 by omega, show ¬ 56 + r - 8 - 8 - 8 - 8 - 8 - 8 < 8 by omega,
      show 56 + r - 8 - 8 - 8 - 8 - 8 - 8 - 8 = r by omega]

/-- A word reads back as it was written. -/
theorem readWord_writeWord_same (s : State) (a : Nat) (v : Word) : readWord (writeWord s a v) a = v := by
  refine BitVec.eq_of_getLsbD_eq fun j hj => ?_
  rw [getLsbD_readWord _ _ hj, readByte_writeWord, if_pos (by omega), byteOf, BitVec.getLsbD_extractLsb']
  have : a + j / 8 - a = j / 8 := by omega
  rw [this, show 8 * (j / 8) + j % 8 = j by omega]
  simp
  omega

/-- A word that does not overlap the one written reads as before. -/
theorem readWord_writeWord_disjoint (s : State) {a b : Nat} (v : Word) (h : b + 8 ≤ a ∨ a + 8 ≤ b) :
    readWord (writeWord s a v) b = readWord s b :=
  readWord_eq_of_readByte fun k hk => readByte_writeWord_outside s v (by omega)

end Sys2Proof.Machine
end

