-- ==== Sys2Proof/Laws/Bus.lean ====
section
/-! SUPPORT. What a host transaction can do, said once, and where the address map puts each address. -/

namespace Sys2Proof.Machine

/-! ### The address map -/

theorem locate_misaligned {n : Nat} {a : Addr} (h : a.toNat % 8 ≠ 0) : locate n a = .misaligned := by
  rw [locate, if_pos h]

theorem locate_reg {n : Nat} {a : Addr} (h : a.toNat % 8 = 0) (h2 : a.toNat < 0x1000) :
    locate n a = regAt a.toNat := by
  rw [locate, if_neg (by omega), if_pos h2]

/-- Past the fourteen registers the register region is reserved. -/
theorem regAt_reserved {a : Nat} (h : 0x70 ≤ a) : regAt a = .reserved := by
  unfold regAt
  split <;> first | omega | rfl

theorem bases_eq : txbBase = 0x1000000 ∧ rxbBase = 0x2000000 ∧ noiseBase = 0x4000000 ∧ symBase = 0x8000000 ∧
    rsymBase = 0xC000000 := ⟨rfl, rfl, rfl, rfl, rfl⟩

/-- A buffer of a legal capacity ends before the next region begins. -/
theorem region_bounds {n : Nat} (h : n ≤ Config.nMaxMax) (r : Region) :
    r.base + r.bytes n ≤
      match r with
      | .txb => rxbBase
      | .rxb => noiseBase
      | .noise => symBase
      | .sym => rsymBase
      | .rsym => 2 ^ 28 := by
  obtain ⟨h1, h2, h3, h4, h5⟩ := bases_eq
  have hmax : n ≤ 1048576 := h
  cases r <;> simp only [Region.base, Region.bytes, h1, h2, h3, h4, h5] <;> omega

/-- An aligned address in a buffer names a word of that buffer. -/
theorem locate_buffer {n : Nat} {a : Addr} {r : Region} (hn : n ≤ Config.nMaxMax) (h : a.toNat % 8 = 0)
    (hlo : r.base ≤ a.toNat) (hhi : a.toNat < r.base + r.bytes n) : locate n a = .buffer r := by
  obtain ⟨h1, h2, h3, h4, h5⟩ := bases_eq
  have hb := region_bounds hn r
  have hin : inWindow n a.toNat r = .buffer r := by rw [inWindow, if_pos hhi]
  rw [← hin]
  unfold locate
  cases r <;> simp only [Region.base] at hlo hb hhi
  · rw [if_neg (by omega), if_neg (by omega), if_neg (by omega), if_pos (by omega)]
  · rw [if_neg (by omega), if_neg (by omega), if_neg (by omega), if_neg (by omega), if_pos (by omega)]
  · rw [if_neg (by omega), if_neg (by omega), if_neg (by omega), if_neg (by omega), if_neg (by omega),
      if_pos (by omega)]
  · rw [if_neg (by omega), if_neg (by omega), if_neg (by omega), if_neg (by omega), if_neg (by omega),
      if_neg (by omega), if_pos (by omega)]
  · rw [if_neg (by omega), if_neg (by omega), if_neg (by omega), if_neg (by omega), if_neg (by omega),
      if_neg (by omega), if_neg (by omega)]

/-- Only an address in a buffer names a word of a buffer, and that buffer. -/
theorem locate_eq_buffer {n : Nat} {a : Addr} {r : Region} (h : locate n a = .buffer r) :
    a.toNat % 8 = 0 ∧ r.base ≤ a.toNat ∧ a.toNat < r.base + r.bytes n := by
  have win : ∀ q : Region, inWindow n a.toNat q = .buffer r → q.base ≤ a.toNat →
      r.base ≤ a.toNat ∧ a.toNat < r.base + r.bytes n := by
    intro q hq hb
    unfold inWindow at hq
    split at hq
    · cases hq; exact ⟨hb, by assumption⟩
    · cases hq
  unfold locate at h
  simp only at h
  split at h
  · cases h
  · refine ⟨by omega, ?_⟩
    split at h
    · unfold regAt at h
      split at h <;> cases h
    · split at h
      · cases h
      · split at h
        · exact win _ h (by simp only [Region.base]; omega)
        · split at h
          · exact win _ h (by simp only [Region.base]; omega)
          · split at h
            · exact win _ h (by simp only [Region.base]; omega)
            · split at h
              · exact win _ h (by simp only [Region.base]; omega)
              · exact win _ h (by simp only [Region.base]; omega)

/-- An aligned unmapped address names nothing. -/
theorem locate_unmapped {n : Nat} {a : Addr} (h : a.toNat % 8 = 0) (hu : Unmapped n a.toNat) :
    locate n a = .unmapped := by
  have hno : ∀ r, locate n a ≠ .buffer r := fun r hr => hu.2 ⟨r, (locate_eq_buffer hr).2⟩
  have win : ∀ q : Region, inWindow n a.toNat q = .unmapped ∨ inWindow n a.toNat q = .buffer q := by
    intro q; unfold inWindow; split <;> simp
  have h1 := hu.1
  unfold locate at hno ⊢
  simp only at hno ⊢
  rw [if_neg (by omega), if_neg (by omega)] at *
  split
  · rfl
  · rename_i h2
    rw [if_neg h2] at hno
    split
    · rename_i h3; rw [if_pos h3] at hno; exact (win _).resolve_right (hno _)
    · rename_i h3
      rw [if_neg h3] at hno
      split
      · rename_i h4; rw [if_pos h4] at hno; exact (win _).resolve_right (hno _)
      · rename_i h4
        rw [if_neg h4] at hno
        split
        · rename_i h5; rw [if_pos h5] at hno; exact (win _).resolve_right (hno _)
        · rename_i h5
          rw [if_neg h5] at hno
          split
          · rename_i h6; rw [if_pos h6] at hno; exact (win _).resolve_right (hno _)
          · rename_i h6; rw [if_neg h6] at hno; exact (win _).resolve_right (hno _)

/-- Only an address of the register region names a register. -/
theorem locate_eq_reg {n : Nat} {a : Addr} {r : Reg} (h : locate n a = .reg r) :
    a.toNat < 0x1000 ∧ regAt a.toNat = .reg r := by
  unfold locate inWindow at h
  simp only at h
  (repeat' split at h) <;> first | exact ⟨by assumption, h⟩ | cases h

/-! ### Reads -/

/-- A read changes the read-data latch and the draw counter alone. -/
theorem hostRead_eq (a : Addr) (s : State) :
    hostRead a s = { s with rdata := (hostRead a s).rdata, draws := (hostRead a s).draws } := by
  unfold hostRead readFree
  split <;> rfl

theorem hostRead_idle {a : Addr} {s : State} (h : s.status.busy = false) :
    hostRead a s = { s with rdata := readLocation s a (locate s.nMax a) } := by
  rw [hostRead, h, Bool.false_and, if_neg (by simp)]

theorem hostRead_busy {a : Addr} {s : State} (h : s.status.busy = true) :
    hostRead a s = if inFlightWriteSet s.cur (locate s.nMax a) then readFree s
      else { s with rdata := readLocation s a (locate s.nMax a) } := by
  rw [hostRead, h, Bool.true_and]

/-! ### Writes -/

/-- What a register write can do. -/
theorem writeReg_cases (s : State) (v : Word) (r : Reg) :
    writeReg s v r = s ∨ writeReg s v r = dropWrite s ∨
      (r = .ctrl ∧ writeReg s v r = { s with ie := v.getLsbD 0 }) ∨
      (r = .status ∧ writeReg s v r = { s with status := s.status.writeOneToClear v }) ∨
      (r = .cmd ∧ s.status.busy = false ∧ s.status.fatal = false ∧ writeReg s v r = accept v s) ∨
      (s.status.busy = false ∧ ∃ nb sd sy rs rx,
        writeReg s v r = { s with nBits := nb, snrDb := sd, symN := sy, rsymN := rs, rxN := rx }) := by
  cases hb : s.status.busy <;> cases hf : s.status.fatal <;> cases r <;>
    simp only [writeReg, submit, unlessBusy, hb, hf, Bool.not_true, Bool.not_false, Bool.and_true, Bool.and_false,
      Bool.false_eq_true, if_true, if_false, true_or, or_true, true_and, reduceCtorEq, false_and, false_or,
      and_true] <;>
    first
      | exact .inr (.inr (.inr (.inr ⟨_, _, _, _, _, rfl⟩)))
      | exact .inr (.inr ⟨_, _, _, _, _, rfl⟩)

/-- What a host write can do: nothing, a drop, IE, DONE and DROP, an acceptance, or, when no command is in flight, the
writable data registers or one word of a buffer. -/
theorem hostWrite_cases (a : Addr) (v : Word) (s : State) :
    hostWrite a v s = s ∨ hostWrite a v s = dropWrite s ∨
      (locate s.nMax a = .reg .ctrl ∧ hostWrite a v s = { s with ie := v.getLsbD 0 }) ∨
      (locate s.nMax a = .reg .status ∧ hostWrite a v s = { s with status := s.status.writeOneToClear v }) ∨
      (locate s.nMax a = .reg .cmd ∧ s.status.busy = false ∧ s.status.fatal = false ∧ hostWrite a v s = accept v s) ∨
      (s.status.busy = false ∧ ∃ nb sd sy rs rx,
        hostWrite a v s = { s with nBits := nb, snrDb := sd, symN := sy, rsymN := rs, rxN := rx }) ∨
      (s.status.busy = false ∧ (∃ r, locate s.nMax a = .buffer r) ∧ hostWrite a v s = writeWord s a.toNat v) := by
  unfold hostWrite
  cases hl : locate s.nMax a with
  | misaligned => exact .inl rfl
  | reserved => exact .inl rfl
  | unmapped => exact .inl rfl
  | reg r =>
    rcases writeReg_cases s v r with h | h | ⟨rfl, h⟩ | ⟨rfl, h⟩ | ⟨rfl, h⟩ | ⟨hb, h⟩
    · exact .inl h
    · exact .inr (.inl h)
    · exact .inr (.inr (.inl ⟨rfl, h⟩))
    · exact .inr (.inr (.inr (.inl ⟨rfl, h⟩)))
    · exact .inr (.inr (.inr (.inr (.inl ⟨rfl, h⟩))))
    · exact .inr (.inr (.inr (.inr (.inr (.inl ⟨hb, h⟩)))))
  | buffer r =>
    cases hb : s.status.busy
    · exact .inr (.inr (.inr (.inr (.inr (.inr ⟨rfl, ⟨r, rfl⟩, by simp [unlessBusy, hb]⟩)))))
    · exact .inr (.inl (by simp [unlessBusy, hb]))

end Sys2Proof.Machine
end

