-- ==== Sys2Proof/Laws/Float64.lean ====
section
/-! SUPPORT. The laws of the binary64 primitives: the fields of a packed pattern, exact values round to themselves,
results that are NaN, and arithmetic with zeros. -/

namespace Sys2Proof.Machine

/-! ### Fields of a pattern -/

theorem expField_eq (x : Word) : expField x = x.toNat / 2 ^ 52 % 2 ^ 11 := by
  simp [expField, BitVec.extractLsb', Nat.shiftRight_eq_div_pow]

theorem fracField_eq (x : Word) : fracField x = x.toNat % 2 ^ 52 := by
  simp [fracField, BitVec.extractLsb']

theorem signBit_eq (x : Word) : signBit x = decide (2 ^ 63 ≤ x.toNat) := by
  have hx := x.isLt
  rw [signBit, BitVec.getLsbD, Nat.testBit_eq_decide_div_mod_eq]
  congr 1
  apply propext
  constructor <;> intro h <;> omega

theorem expField_lt (x : Word) : expField x < 2048 := by
  rw [expField_eq]; exact Nat.mod_lt _ (by omega)

theorem fracField_lt (x : Word) : fracField x < 2 ^ 52 := by
  rw [fracField_eq]; exact Nat.mod_lt _ (by omega)

/-- The number a packed pattern is. -/
theorem packSign_toNat {mag : Nat} (neg : Bool) (h : mag < 2 ^ 63) :
    (packSign neg mag).toNat = (if neg then 2 ^ 63 else 0) + mag := by
  unfold packSign
  rw [BitVec.toNat_ofNat]
  cases neg <;> simp only [Bool.false_eq_true, if_true, if_false] <;> omega

theorem signBit_packSign {mag : Nat} (neg : Bool) (h : mag < 2 ^ 63) : signBit (packSign neg mag) = neg := by
  rw [signBit_eq, packSign_toNat neg h]
  cases neg
  · simp; omega
  · simp

theorem expField_packSign {mag : Nat} (neg : Bool) (h : mag < 2 ^ 63) :
    expField (packSign neg mag) = mag / 2 ^ 52 := by
  rw [expField_eq, packSign_toNat neg h]
  cases neg <;> simp only [Bool.false_eq_true, if_true, if_false] <;> omega

theorem fracField_packSign {mag : Nat} (neg : Bool) (h : mag < 2 ^ 63) :
    fracField (packSign neg mag) = mag % 2 ^ 52 := by
  rw [fracField_eq, packSign_toNat neg h]
  cases neg <;> simp only [Bool.false_eq_true, if_true, if_false] <;> omega

/-- A pattern is its sign and its other 63 bits packed again. -/
theorem packSign_self (x : Word) : packSign (signBit x) (x.toNat % 2 ^ 63) = x := by
  have hx := x.isLt
  apply BitVec.eq_of_toNat_eq
  rw [packSign_toNat _ (Nat.mod_lt _ (by omega)), signBit_eq]
  by_cases h : 2 ^ 63 ≤ x.toNat
  · simp only [h, decide_true, if_true]; omega
  · simp only [h, decide_false, Bool.false_eq_true, if_false]; omega

theorem infPattern_eq : infPattern = 2047 * 2 ^ 52 := by decide

theorem isNaN_packSign {mag : Nat} (neg : Bool) (h : mag ≤ infPattern) : isNaN (packSign neg mag) = false := by
  rw [infPattern_eq] at h
  have h63 : mag < 2 ^ 63 := by omega
  rw [isNaN, expField_packSign neg h63, fracField_packSign neg h63]
  simp only [Bool.and_eq_false_imp, beq_iff_eq, bne_eq_false_iff_eq]
  omega

theorem isFinite_packSign {mag : Nat} (neg : Bool) (h : mag < infPattern) :
    isFinite (packSign neg mag) = true := by
  rw [infPattern_eq] at h
  have h63 : mag < 2 ^ 63 := by omega
  rw [isFinite, expField_packSign neg h63]
  simp
  omega

/-- The magnitude, in units of 2^-1074, of the 63 bits of a finite pattern. -/
def patternValue (p : Nat) : Nat := if p / 2 ^ 52 = 0 then p % 2 ^ 52 else (2 ^ 52 + p % 2 ^ 52) * 2 ^ (p / 2 ^ 52 - 1)

theorem magnitude_packSign {mag : Nat} (neg : Bool) (h : mag < 2 ^ 63) :
    magnitude (packSign neg mag) = patternValue mag := by
  rw [magnitude, expField_packSign neg h, fracField_packSign neg h, patternValue]

theorem magnitude_eq_patternValue (x : Word) : magnitude x = patternValue (x.toNat % 2 ^ 63) := by
  have := magnitude_packSign (signBit x) (Nat.mod_lt x.toNat (show 0 < 2 ^ 63 by omega))
  rwa [packSign_self] at this

theorem magnitude_eq_zero_iff (x : Word) : magnitude x = 0 ↔ isZero x = true := by
  rw [magnitude, isZero]
  split
  · simp [*]
  · have := Nat.two_pow_pos (expField x - 1)
    simp [*]

theorem isZero_of_eq_packSign (neg : Bool) : isZero (packSign neg 0) = true := by
  cases neg <;> decide

/-- A zero is a packed sign. -/
theorem eq_packSign_of_isZero {x : Word} (h : isZero x = true) : x = packSign (signBit x) 0 := by
  rw [isZero, Bool.and_eq_true, beq_iff_eq, beq_iff_eq, expField_eq, fracField_eq] at h
  have h0 : x.toNat % 2 ^ 63 = 0 := by omega
  have := packSign_self x
  rw [h0] at this
  exact this.symm

theorem isFinite_of_isZero {x : Word} (h : isZero x = true) : isFinite x = true := by
  rw [isZero, Bool.and_eq_true, beq_iff_eq] at h
  simp [isFinite, h.1]

theorem isNaN_of_isFinite {x : Word} (h : isFinite x = true) : isNaN x = false := by
  simp [isFinite] at h
  simp [isNaN, h]

theorem isInf_of_isFinite {x : Word} (h : isFinite x = true) : isInf x = false := by
  simp [isFinite] at h
  simp [isInf, h]

/-- Every pattern is a NaN, an infinity or finite, and only one of them. -/
theorem isFinite_eq (x : Word) : isFinite x = (!isNaN x && !isInf x) := by
  rw [isFinite, isNaN, isInf, bne, bne]
  cases expField x == 2047 <;> cases fracField x == 0 <;> rfl

/-! ### Rounding -/

theorem roundMagnitude_le (n d : Nat) : roundMagnitude n d ≤ infPattern := Nat.min_le_right _ _

theorem divNearestEven_mul {d : Nat} (q : Nat) (h : 0 < d) : divNearestEven (q * d) d = q := by
  rw [divNearestEven, Nat.mul_mod_left, Nat.mul_div_cancel _ h, if_pos (by omega)]

/-- Rounding to the nearest integer is off by at most one half. -/
theorem divNearestEven_bounds (n : Nat) {d : Nat} (h : 0 < d) :
    2 * (divNearestEven n d * d) ≤ 2 * n + d ∧ 2 * n ≤ 2 * (divNearestEven n d * d) + d := by
  have hm := Nat.div_add_mod n d
  have hl := Nat.mod_lt n h
  have hc : d * (n / d) = n / d * d := Nat.mul_comm _ _
  unfold divNearestEven
  split
  · omega
  · split
    · rw [Nat.add_mul]; omega
    · rcases Nat.mod_two_eq_zero_or_one (n / d) with h2 | h2 <;> rw [h2]
      · rw [Nat.add_zero]; omega
      · rw [Nat.add_mul]; omega

/-- The rounded quotient lies between the floor and the floor plus one. -/
theorem divNearestEven_floor (n d : Nat) : n / d ≤ divNearestEven n d ∧ divNearestEven n d ≤ n / d + 1 := by
  unfold divNearestEven
  split
  · omega
  · split <;> omega

/-- A value binary64 can represent rounds to itself. -/
theorem roundMagnitude_exact {p d : Nat} (hp : p < infPattern) (hd : 0 < d) :
    roundMagnitude (patternValue p * d) d = p := by
  rw [infPattern_eq] at hp
  rw [roundMagnitude, Nat.mul_div_cancel _ hd]
  have hm : p % 2 ^ 52 < 2 ^ 52 := Nat.mod_lt _ (by omega)
  by_cases he : p / 2 ^ 52 = 0
  · have hv : patternValue p = p % 2 ^ 52 := by rw [patternValue, if_pos he]
    have hlog : Nat.log2 (p % 2 ^ 52) - 52 = 0 := by
      by_cases h0 : p % 2 ^ 52 = 0
      · rw [h0]; decide
      · have := (Nat.log2_lt h0).mpr hm
        omega
    rw [hv, hlog, Nat.pow_zero, Nat.mul_one, divNearestEven_mul _ hd, infPattern_eq]
    omega
  · have hv : patternValue p = (2 ^ 52 + p % 2 ^ 52) * 2 ^ (p / 2 ^ 52 - 1) := by rw [patternValue, if_neg he]
    have hne : (2 ^ 52 + p % 2 ^ 52) * 2 ^ (p / 2 ^ 52 - 1) ≠ 0 := by
      have := Nat.two_pow_pos (p / 2 ^ 52 - 1)
      positivity
    have hlog : Nat.log2 ((2 ^ 52 + p % 2 ^ 52) * 2 ^ (p / 2 ^ 52 - 1)) = 52 + (p / 2 ^ 52 - 1) := by
      generalize p / 2 ^ 52 - 1 = e at *
      have := Nat.two_pow_pos e
      rw [Nat.log2_eq_iff hne, show 52 + e + 1 = 53 + e by omega, Nat.pow_add, Nat.pow_add]
      exact ⟨Nat.mul_le_mul_right _ (by omega), Nat.mul_lt_mul_of_pos_right (by omega) this⟩
    rw [hv, hlog, Nat.add_sub_cancel_left, Nat.mul_assoc, Nat.mul_comm (2 ^ (p / 2 ^ 52 - 1)) d,
      divNearestEven_mul _ (Nat.mul_pos hd (Nat.two_pow_pos _)), infPattern_eq]
    omega

theorem roundMagnitude_zero (d : Nat) : roundMagnitude 0 d = 0 := by
  rw [roundMagnitude, Nat.zero_div, show Nat.log2 0 = 0 by decide, divNearestEven, Nat.zero_mod, Nat.zero_div]
  split <;> simp

/-- The ratio without its case for zero. -/
theorem rnd64_eq (n d : Nat) : rnd64 n d = packSign false (roundMagnitude (n * 2 ^ unitExp) d) := by
  rw [rnd64]
  split
  · subst_vars
    rw [Nat.zero_mul, roundMagnitude_zero]
    decide
  · rfl

/-! ### Results that are NaN -/

theorem packSign_roundMagnitude_not_nan (neg : Bool) (n d : Nat) :
    isNaN (packSign neg (roundMagnitude n d)) = false := isNaN_packSign neg (roundMagnitude_le n d)

theorem packSign_zero_not_nan (neg : Bool) : isNaN (packSign neg 0) = false := by cases neg <;> decide

theorem packSign_inf_not_nan (neg : Bool) : isNaN (packSign neg infPattern) = false := by cases neg <;> decide

/-- A free quiet NaN is a quiet NaN: exponent all ones, bit 51 set (00_scope.md R11). -/
theorem quietNaN_isNaN (free : BitVec 52) : isNaN (quietNaN free) = true ∧ (quietNaN free).getLsbD 51 = true := by
  have hbit : ∀ j, j < 64 → (quietNaN free).getLsbD j =
      if j < 51 then free.getLsbD j else if j < 63 then true else free.getLsbD 51 := by
    intro j hj
    rw [quietNaN, BitVec.getLsbD_append]
    by_cases h1 : j < 51
    · simp [h1]
    · rw [if_neg h1, if_neg h1, BitVec.getLsbD_append]
      by_cases h2 : j < 63
      · have ones : ∀ k < 12, (0xFFF : BitVec 12).getLsbD k = true := by decide
        rw [if_pos h2, if_pos (by omega), ones _ (by omega)]
      · have : j = 63 := by omega
        subst this
        simp
  refine ⟨?_, by rw [hbit 51 (by omega)]; simp⟩
  rw [isNaN, Bool.and_eq_true, beq_iff_eq, bne_iff_ne]
  constructor
  · have : (quietNaN free).extractLsb' 52 11 = 2047#11 := by
      apply BitVec.eq_of_getLsbD_eq
      intro j hj
      rw [BitVec.getLsbD_extractLsb', hbit (52 + j) (by omega), if_neg (by omega), if_pos (by omega)]
      simp only [hj, decide_true, Bool.true_and]
      revert j
      decide
    rw [expField, this]
    decide
  · intro h0
    have : ((quietNaN free).extractLsb' 0 52).getLsbD 51 = true := by
      rw [BitVec.getLsbD_extractLsb', hbit (0 + 51) (by omega)]
      simp
    rw [fracField] at h0
    have hz : (quietNaN free).extractLsb' 0 52 = 0#52 := BitVec.eq_of_toNat_eq (by simpa using h0)
    rw [hz] at this
    simp at this

theorem isNaN_nanAt (draw site : Nat) : isNaN (nanAt draw site) = true := (quietNaN_isNaN _).1

/-- The NaN pattern given to an operation matters to a NaN result alone: with any other pattern a result that is no NaN is
the same. -/
theorem add64_nan_free {nan a b : Word} (hn : isNaN nan = true) (h : isNaN (add64 nan a b) = false) (nan' : Word) :
    add64 nan' a b = add64 nan a b := by
  unfold add64 at *
  (repeat' split at h) <;> simp_all
  rw [if_neg (by tauto), if_neg (by tauto)]

theorem mul64_nan_free {nan a b : Word} (hn : isNaN nan = true) (h : isNaN (mul64 nan a b) = false) (nan' : Word) :
    mul64 nan' a b = mul64 nan a b := by
  unfold mul64 at *
  (repeat' split at h) <;> simp_all

theorem div64_nan_free {nan a b : Word} (hn : isNaN nan = true) (h : isNaN (div64 nan a b) = false) (nan' : Word) :
    div64 nan' a b = div64 nan a b := by
  unfold div64 at *
  (repeat' split at h) <;> simp_all

theorem sqrt64_nan_free {nan a : Word} (hn : isNaN nan = true) (h : isNaN (sqrt64 nan a) = false) (nan' : Word) :
    sqrt64 nan' a = sqrt64 nan a := by
  unfold sqrt64 at *
  (repeat' split at h) <;> simp_all

/-! ### Arithmetic with zeros and infinities -/

/-- A finite value times a zero is a zero with the product of the signs. -/
theorem mul64_zero_right (nan : Word) {x z : Word} (hx : isFinite x = true) (hz : isZero z = true) :
    mul64 nan x z = packSign (signBit x != signBit z) 0 := by
  have hzf := isFinite_of_isZero hz
  rw [mul64, isNaN_of_isFinite hx, isNaN_of_isFinite hzf, isInf_of_isFinite hx, isInf_of_isFinite hzf,
    (magnitude_eq_zero_iff z).mpr hz]
  simp [roundMagnitude_zero]

/-- A zero times a finite value is a zero with the product of the signs. -/
theorem mul64_zero_left (nan : Word) {x z : Word} (hx : isFinite x = true) (hz : isZero z = true) :
    mul64 nan z x = packSign (signBit z != signBit x) 0 := by
  have hzf := isFinite_of_isZero hz
  rw [mul64, isNaN_of_isFinite hx, isNaN_of_isFinite hzf, isInf_of_isFinite hx, isInf_of_isFinite hzf,
    (magnitude_eq_zero_iff z).mpr hz]
  simp [roundMagnitude_zero]

/-- Adding a zero to a nonzero finite value leaves it unchanged. -/
theorem add64_zero_right (nan : Word) {x z : Word} (hx : isFinite x = true) (hnz : isZero x = false)
    (hz : isZero z = true) : add64 nan x z = x := by
  have hzf := isFinite_of_isZero hz
  have hm : magnitude x ≠ 0 := by
    intro h
    rw [(magnitude_eq_zero_iff x).mp h] at hnz
    exact Bool.noConfusion hnz
  have hp : x.toNat % 2 ^ 63 < infPattern := by
    have h := hx
    rw [isFinite, bne_iff_ne, expField_eq] at h
    rw [infPattern_eq]
    omega
  have hzero : signedMagnitude z = 0 := by
    rw [signedMagnitude, (magnitude_eq_zero_iff z).mpr hz]; simp
  have hround : roundMagnitude (magnitude x) 1 = x.toNat % 2 ^ 63 := by
    have := roundMagnitude_exact hp (show 0 < 1 by omega)
    rwa [Nat.mul_one, ← magnitude_eq_patternValue] at this
  rw [add64, isNaN_of_isFinite hx, isNaN_of_isFinite hzf, isInf_of_isFinite hx, isInf_of_isFinite hzf, hzero,
    Int.add_zero]
  have hself := packSign_self x
  cases hs : signBit x with
  | false =>
    have hv : signedMagnitude x = (magnitude x : Int) := by rw [signedMagnitude, hs]; simp
    rw [hs] at hself
    rw [hv, if_neg (by simp), if_neg (by simp), if_neg (by simp), if_neg (by omega), Int.natAbs_natCast, hround,
      show decide ((magnitude x : Int) < 0) = false by simp]
    exact hself
  | true =>
    have hv : signedMagnitude x = -(magnitude x : Int) := by rw [signedMagnitude, hs]; simp
    rw [hs] at hself
    rw [hv, if_neg (by simp), if_neg (by simp), if_neg (by simp), if_neg (by omega), Int.natAbs_neg,
      Int.natAbs_natCast, hround, show decide (-(magnitude x : Int) < 0) = true by simp; omega]
    exact hself

/-! ### Square roots -/

/-- The bits found so far stay a root from below, and the unit past the last bit searched goes beyond. -/
theorem rootBits_spec (a i r : Nat) (hlo : r * r ≤ a) (hhi : a < (r + 2 ^ i) * (r + 2 ^ i)) :
    rootBits a i r * rootBits a i r ≤ a ∧ a < (rootBits a i r + 1) * (rootBits a i r + 1) := by
  induction i generalizing r with
  | zero => exact ⟨hlo, by simpa [rootBits] using hhi⟩
  | succ i ih =>
    rw [rootBits]
    split
    · rename_i h
      refine ih _ h ?_
      have : r + 2 ^ i + 2 ^ i = r + 2 ^ (i + 1) := by rw [Nat.pow_succ]; omega
      rwa [this]
    · exact ih _ hlo (by omega)

theorem rootNearestEven_eq {a k r : Nat} (h : rootBits (a / 4 ^ k) 53 0 = r) :
    rootNearestEven a k =
      if 4 * a < (2 * r + 1) * (2 * r + 1) * 4 ^ k then r
      else if (2 * r + 1) * (2 * r + 1) * 4 ^ k < 4 * a then r + 1
      else r + r % 2 := by
  subst h; rfl

theorem rootBits_floor {A : Nat} (h : A < 2 ^ 106) :
    ∃ r, rootBits A 53 0 = r ∧ r * r ≤ A ∧ A < (r + 1) * (r + 1) :=
  ⟨_, rfl, rootBits_spec A 53 0 (by omega) (by omega)⟩

/-- The rounded root lies between 2^52 and 2^53, within half a unit of the exact root, and not above it where it is 2^52. -/
theorem rootNearestEven_bounds {a k : Nat} (hlo : 2 ^ 104 * 4 ^ k ≤ a) (hhi : a < 2 ^ 106 * 4 ^ k) :
    2 ^ 52 ≤ rootNearestEven a k ∧ rootNearestEven a k ≤ 2 ^ 53 ∧
      4 * a ≤ (2 * rootNearestEven a k + 1) * (2 * rootNearestEven a k + 1) * 4 ^ k ∧
      (2 * rootNearestEven a k - 1) * (2 * rootNearestEven a k - 1) * 4 ^ k ≤ 4 * a ∧
      (rootNearestEven a k = 2 ^ 52 → rootNearestEven a k * rootNearestEven a k * 4 ^ k ≤ a) := by
  have h4 : 0 < 4 ^ k := Nat.pow_pos (by omega)
  have hA1 : 2 ^ 104 ≤ a / 4 ^ k := by rwa [Nat.le_div_iff_mul_le h4]
  have hA2 : a / 4 ^ k < 2 ^ 106 := by rwa [Nat.div_lt_iff_lt_mul h4]
  obtain ⟨r, hroot, r1, r2⟩ := rootBits_floor hA2
  rw [rootNearestEven_eq hroot]
  clear hroot
  have hr1 : 2 ^ 52 ≤ r := by
    by_contra hc
    have : (r + 1) * (r + 1) ≤ 2 ^ 52 * 2 ^ 52 := Nat.mul_le_mul (by omega) (by omega)
    omega
  have hr2 : r < 2 ^ 53 := by
    by_contra hc
    have : 2 ^ 53 * 2 ^ 53 ≤ r * r := Nat.mul_le_mul (by omega) (by omega)
    omega
  have a1 : r * r * 4 ^ k ≤ a := by rw [Nat.le_div_iff_mul_le h4] at r1; exact r1
  have a2 : a < (r + 1) * (r + 1) * 4 ^ k := by rw [Nat.div_lt_iff_lt_mul h4] at r2; exact r2
  generalize 4 ^ k = w at *
  clear r1 r2 hA1 hA2
  have low : ∀ r : Nat, (2 * r - 1) * (2 * r - 1) * w ≤ 4 * (r * r * w) := by
    intro r
    have : (2 * r - 1) * (2 * r - 1) ≤ (2 * r) * (2 * r) := Nat.mul_le_mul (by omega) (by omega)
    calc _ ≤ (2 * r) * (2 * r) * w := Nat.mul_le_mul_right _ this
      _ = _ := by ring
  have high : 4 * ((r + 1) * (r + 1) * w) ≤ (2 * (r + 1) + 1) * (2 * (r + 1) + 1) * w := by
    have : (2 * (r + 1)) * (2 * (r + 1)) ≤ (2 * (r + 1) + 1) * (2 * (r + 1) + 1) := Nat.mul_le_mul (by omega) (by omega)
    calc _ = (2 * (r + 1)) * (2 * (r + 1)) * w := by ring
      _ ≤ _ := Nat.mul_le_mul_right _ this
  have lr := low r
  split
  · rename_i h1
    refine ⟨hr1, by omega, by omega, by omega, fun _ => a1⟩
  · split
    · rename_i h1 h2
      refine ⟨by omega, by omega, by omega, ?_, by omega⟩
      rw [show 2 * (r + 1) - 1 = 2 * r + 1 by omega]; omega
    · rename_i h1 h2
      have he : 4 * a = (2 * r + 1) * (2 * r + 1) * w := by omega
      rcases Nat.mod_two_eq_zero_or_one r with h | h <;> rw [h]
      · rw [Nat.add_zero]
        exact ⟨hr1, by omega, by omega, by omega, fun _ => a1⟩
      · refine ⟨by omega, by omega, by omega, ?_, by omega⟩
        rw [show 2 * (r + 1) - 1 = 2 * r + 1 by omega]; omega

/-- The exponent the root is rounded at. -/
theorem root_exponent {a : Nat} (h : 2 ^ 104 ≤ a) :
    2 ^ 104 * 4 ^ (Nat.log2 a / 2 - 52) ≤ a ∧ a < 2 ^ 106 * 4 ^ (Nat.log2 a / 2 - 52) := by
  have h0 : a ≠ 0 := by have := Nat.two_pow_pos 104; omega
  have hlt : a < 2 ^ (Nat.log2 a + 1) := Nat.lt_log2_self
  have hle : 2 ^ Nat.log2 a ≤ a := Nat.log2_self_le h0
  have h104 : 104 ≤ Nat.log2 a := (Nat.le_log2 h0).mpr h
  rw [show (4 : Nat) = 2 ^ 2 by rfl, ← Nat.pow_mul, ← Nat.pow_add, ← Nat.pow_add]
  constructor
  · exact Nat.le_trans (Nat.pow_le_pow_right (by omega) (by omega)) hle
  · exact Nat.lt_of_lt_of_le hlt (Nat.pow_le_pow_right (by omega) (by omega))

theorem magnitude_lt {x : Word} (hx : isFinite x = true) : magnitude x < 2 ^ 2098 := by
  have he : expField x < 2047 := by
    have := expField_lt x
    simp [isFinite] at hx; omega
  have hf := fracField_lt x
  rw [magnitude]
  split
  · calc fracField x < 2 ^ 52 := hf
      _ ≤ 2 ^ 2098 := Nat.pow_le_pow_right (by omega) (by omega)
  · calc _ < 2 ^ 53 * 2 ^ (expField x - 1) := Nat.mul_lt_mul_of_pos_right (by omega) (Nat.two_pow_pos _)
      _ = 2 ^ (53 + (expField x - 1)) := by rw [Nat.pow_add]
      _ ≤ 2 ^ 2098 := Nat.pow_le_pow_right (by omega) (by omega)

/-! ### Values of patterns -/

/-- Every finite pattern is an integer below 2^53 times a power of two. -/
theorem patternValue_form (p : Nat) : ∃ v j, patternValue p = v * 2 ^ j ∧ v < 2 ^ 53 := by
  have hm : p % 2 ^ 52 < 2 ^ 52 := Nat.mod_lt _ (by omega)
  rw [patternValue]
  split
  · exact ⟨p % 2 ^ 52, 0, by omega, by omega⟩
  · exact ⟨_, _, rfl, by omega⟩

/-- What stands at or above 2^(52 + k) is a multiple of 2^k. -/
theorem patternValue_multiple {p k : Nat} (h : 2 ^ (52 + k) ≤ patternValue p) : ∃ v, patternValue p = v * 2 ^ k := by
  obtain ⟨v, j, hv, hlt⟩ := patternValue_form p
  have hjk : k ≤ j := by
    by_contra hc
    have hlt2 : v * 2 ^ j < 2 ^ 53 * 2 ^ j := Nat.mul_lt_mul_of_pos_right hlt (Nat.two_pow_pos j)
    have : 2 ^ 53 * 2 ^ j ≤ 2 ^ (52 + k) := by rw [← Nat.pow_add]; exact Nat.pow_le_pow_right (by omega) (by omega)
    omega
  refine ⟨v * 2 ^ (j - k), ?_⟩
  rw [hv, Nat.mul_assoc, ← Nat.pow_add, Nat.sub_add_cancel hjk]

/-- The pattern k * 2^52 + q has the value q * 2^k, also where q is 2^53 and carries into the next exponent. -/
theorem patternValue_of {k q : Nat} (hlo : k = 0 ∨ 2 ^ 52 ≤ q) (hhi : q ≤ 2 ^ 53) :
    patternValue (k * 2 ^ 52 + q) = q * 2 ^ k := by
  rw [patternValue]
  by_cases h53 : q = 2 ^ 53
  · subst h53
    rw [if_neg (by omega), show (k * 2 ^ 52 + 2 ^ 53) % 2 ^ 52 = 0 by omega,
      show (k * 2 ^ 52 + 2 ^ 53) / 2 ^ 52 - 1 = k + 1 by omega, Nat.pow_succ]
    ring
  · by_cases h52 : 2 ^ 52 ≤ q
    · rw [if_neg (by omega), show (k * 2 ^ 52 + q) % 2 ^ 52 = q - 2 ^ 52 by omega,
        show (k * 2 ^ 52 + q) / 2 ^ 52 - 1 = k by omega, show 2 ^ 52 + (q - 2 ^ 52) = q by omega]
    · have : k = 0 := by omega
      subst this
      rw [if_pos (by omega)]; omega

/-- The order of the patterns is the order of their values. -/
theorem patternValue_strictMono : StrictMono patternValue := by
  refine strictMono_nat_of_lt_succ fun p => ?_
  by_cases hf : p % 2 ^ 52 + 1 < 2 ^ 52
  · rw [patternValue, patternValue, show (p + 1) / 2 ^ 52 = p / 2 ^ 52 by omega,
      show (p + 1) % 2 ^ 52 = p % 2 ^ 52 + 1 by omega]
    split
    · omega
    · exact Nat.mul_lt_mul_of_pos_right (by omega) (Nat.two_pow_pos _)
  · rw [patternValue, patternValue, show (p + 1) / 2 ^ 52 = p / 2 ^ 52 + 1 by omega,
      show (p + 1) % 2 ^ 52 = 0 by omega, if_neg (show ¬ p / 2 ^ 52 + 1 = 0 by omega), Nat.add_sub_cancel]
    have hm : p % 2 ^ 52 < 2 ^ 52 := Nat.mod_lt _ (by omega)
    split
    · rename_i h0
      rw [h0]; omega
    · obtain ⟨e, he⟩ : ∃ e, p / 2 ^ 52 = e + 1 := ⟨p / 2 ^ 52 - 1, by omega⟩
      have := Nat.two_pow_pos e
      have hp : 2 ^ 52 * 2 ^ (e + 1) = 2 ^ 53 * 2 ^ e := by
        rw [← Nat.pow_add, ← Nat.pow_add]; congr 1; omega
      rw [he, Nat.add_sub_cancel, Nat.add_zero, hp]
      exact Nat.mul_lt_mul_of_pos_right (by omega) this

theorem patternValue_injective {p q : Nat} (h : patternValue p = patternValue q) : p = q :=
  patternValue_strictMono.injective h

/-- Rounding gives a nearest integer, and an even one where two are equally near. -/
theorem divNearestEven_nearest (n v : Nat) {d : Nat} (h : 0 < d) :
    ((d * divNearestEven n d : Int) - n).natAbs ≤ ((d * v : Int) - n).natAbs ∧
    (((d * divNearestEven n d : Int) - n).natAbs = ((d * v : Int) - n).natAbs →
      divNearestEven n d = v ∨ divNearestEven n d % 2 = 0) := by
  obtain ⟨b1, b2⟩ := divNearestEven_bounds n h
  have hm := Nat.div_add_mod n d
  have hl := Nat.mod_lt n h
  set q := divNearestEven n d with hq
  have e1 : (d * q : Int) = ((q * d : Nat) : Int) := by push_cast; ring
  have e2 : (d * v : Int) = ((v * d : Nat) : Int) := by push_cast; ring
  rw [e1, e2]
  rcases Nat.lt_trichotomy v q with hv | hv | hv
  · have : (v + 1) * d ≤ q * d := Nat.mul_le_mul_right _ hv
    rw [Nat.add_mul] at this
    refine ⟨by omega, fun ht => ?_⟩
    right
    have tie : 2 * (q * d) = 2 * n + d := by omega
    by_contra hodd
    rw [hq] at tie hodd
    unfold divNearestEven at tie hodd
    have hc : d * (n / d) = n / d * d := Nat.mul_comm _ _
    split at tie
    · omega
    · split at tie
      · rw [Nat.add_mul] at tie; omega
      · rename_i h1 h2
        rw [if_neg h1, if_neg h2] at hodd
        omega
  · subst hv; exact ⟨Nat.le_refl _, fun _ => .inl rfl⟩
  · have : (q + 1) * d ≤ v * d := Nat.mul_le_mul_right _ hv
    rw [Nat.add_mul] at this
    refine ⟨by omega, fun ht => ?_⟩
    right
    have tie : 2 * n = 2 * (q * d) + d := by omega
    by_contra hodd
    rw [hq] at tie hodd
    unfold divNearestEven at tie hodd
    have hc : d * (n / d) = n / d * d := Nat.mul_comm _ _
    split at tie
    · omega
    · split at tie
      · rw [Nat.add_mul] at tie; omega
      · rename_i h1 h2
        rw [if_neg h1, if_neg h2] at hodd
        omega

/-- The rounded significand: at most 2^53, and at least 2^52 where bits are given up. -/
theorem significand_bounds {n d : Nat} (hd : 0 < d) :
    let k := Nat.log2 (n / d) - 52
    (k = 0 ∨ (2 ^ 52 ≤ divNearestEven n (d * 2 ^ k) ∧ d * 2 ^ (52 + k) ≤ n)) ∧
      divNearestEven n (d * 2 ^ k) ≤ 2 ^ 53 := by
  intro k
  have hf := divNearestEven_floor n (d * 2 ^ k)
  have hdiv : n / (d * 2 ^ k) = n / d / 2 ^ k := (Nat.div_div_eq_div_mul n d (2 ^ k)).symm
  rw [hdiv] at hf
  by_cases h0 : n / d = 0
  · have : k = 0 := by show Nat.log2 (n / d) - 52 = 0; rw [h0]; decide
    rw [h0, Nat.zero_div] at hf
    exact ⟨.inl this, by omega⟩
  · have hlt : n / d < 2 ^ (Nat.log2 (n / d) + 1) := Nat.lt_log2_self
    have hle : 2 ^ Nat.log2 (n / d) ≤ n / d := Nat.log2_self_le h0
    have up : n / d / 2 ^ k < 2 ^ 53 := by
      rw [Nat.div_lt_iff_lt_mul (Nat.two_pow_pos k), ← Nat.pow_add]
      exact Nat.lt_of_lt_of_le hlt (Nat.pow_le_pow_right (by omega) (by omega))
    refine ⟨?_, by omega⟩
    by_cases hk : k = 0
    · exact .inl hk
    · right
      have e : Nat.log2 (n / d) = 52 + k := by omega
      rw [e] at hle
      have lo : 2 ^ 52 ≤ n / d / 2 ^ k := by
        rw [Nat.le_div_iff_mul_le (Nat.two_pow_pos k), ← Nat.pow_add]; exact hle
      refine ⟨by omega, ?_⟩
      rw [Nat.le_div_iff_mul_le hd] at hle
      rw [Nat.mul_comm]; exact hle

theorem magnitude_largest : magnitude 0x7FEFFFFFFFFFFFFF = (2 ^ 53 - 1) * 2 ^ 2045 := by decide +kernel

theorem magnitude_ofNat {p : Nat} (h : p < 2 ^ 63) : magnitude (BitVec.ofNat 64 p) = patternValue p := by
  rw [magnitude_eq_patternValue, BitVec.toNat_ofNat]; congr 1; omega

/-- No overflow up to the largest finite value. -/
theorem significand_lt_infPattern {n d : Nat} (hd : 0 < d) (hn : n ≤ d * ((2 ^ 53 - 1) * 2 ^ 2045)) :
    (Nat.log2 (n / d) - 52) * 2 ^ 52 + divNearestEven n (d * 2 ^ (Nat.log2 (n / d) - 52)) < infPattern := by
  obtain ⟨h1, h2⟩ := significand_bounds (n := n) hd
  set k := Nat.log2 (n / d) - 52 with hk
  have hdiv : n / d ≤ (2 ^ 53 - 1) * 2 ^ 2045 := by
    apply Nat.div_le_of_le_mul; exact hn
  rw [infPattern_eq]
  have hk2 : k ≤ 2045 := by
    by_contra hc
    have h0 : n / d ≠ 0 := by intro h; rw [h] at hk; simp [Nat.log2] at hk; omega
    have hle : 2 ^ Nat.log2 (n / d) ≤ n / d := Nat.log2_self_le h0
    have : 2 ^ (53 + 2045) ≤ 2 ^ Nat.log2 (n / d) := Nat.pow_le_pow_right (by omega) (by omega)
    rw [Nat.pow_add] at this
    have : (2 ^ 53 - 1) * 2 ^ 2045 < 2 ^ 53 * 2 ^ 2045 := Nat.mul_lt_mul_of_pos_right (by omega) (Nat.two_pow_pos 2045)
    omega
  by_cases hk3 : k = 2045
  · -- q ≤ 2^53 - 1
    have hq : divNearestEven n (d * 2 ^ k) ≤ 2 ^ 53 - 1 := by
      have hD : 0 < d * 2 ^ k := Nat.mul_pos hd (Nat.two_pow_pos k)
      have : n ≤ (2 ^ 53 - 1) * (d * 2 ^ k) := by rw [hk3]; calc n ≤ _ := hn
        _ = _ := by ring
      have := (divNearestEven_nearest n (2 ^ 53 - 1) hD).1
      by_contra hc
      obtain ⟨b1, b2⟩ := divNearestEven_bounds n hD
      have h3 : divNearestEven n (d * 2 ^ k) = 2 ^ 53 := by omega
      rw [h3] at b1
      have : 2 ^ 53 * (d * 2 ^ k) = (2 ^ 53 - 1) * (d * 2 ^ k) + d * 2 ^ k := by
        have : (2:Nat) ^ 53 = (2 ^ 53 - 1) + 1 := by norm_num
        rw [this, Nat.add_mul]; simp
      omega
    omega
  · omega

/-- Rounding does not pass a pattern: below its value, the rounded pattern is at most it. -/
theorem roundMagnitude_le_of_le {n d p : Nat} (hd : 0 < d) (h : n ≤ d * patternValue p) :
    roundMagnitude n d ≤ p := by
  obtain ⟨h1, h2⟩ := significand_bounds (n := n) hd
  rw [roundMagnitude]
  refine Nat.le_trans (Nat.min_le_left _ _) ?_
  by_contra hc
  have hv := patternValue_strictMono (Nat.lt_of_not_le hc)
  rw [patternValue_of (h1.imp id And.left) h2] at hv
  set k := Nat.log2 (n / d) - 52
  have hD : 0 < d * 2 ^ k := Nat.mul_pos hd (Nat.two_pow_pos k)
  set q := divNearestEven n (d * 2 ^ k) with hq
  have hfl := (divNearestEven_floor n (d * 2 ^ k)).2
  rw [← hq] at hfl
  have hq1 : q ≠ 0 := by intro h; rw [h, Nat.zero_mul] at hv; omega
  by_cases hmul : ∃ v, patternValue p = v * 2 ^ k
  · obtain ⟨v, hpv⟩ := hmul
    rw [hpv] at hv h
    have hvq : v < q := Nat.lt_of_mul_lt_mul_right hv
    have h3 := (divNearestEven_nearest n v hD).1
    obtain ⟨b1, b2⟩ := divNearestEven_bounds n hD
    rw [← hq] at b1 b2
    have e : d * (v * 2 ^ k) = v * (d * 2 ^ k) := by ring
    rw [e] at h
    have : (v + 1) * (d * 2 ^ k) ≤ q * (d * 2 ^ k) := Nat.mul_le_mul_right _ hvq
    rw [Nat.add_mul] at this
    omega
  · have hk : k ≠ 0 := by
      intro h; apply hmul; rw [h]; exact ⟨patternValue p, by omega⟩
    have hV : patternValue p < 2 ^ (52 + k) := by
      by_contra hc; exact hmul (patternValue_multiple (by omega))
    have h4 := (h1.resolve_left hk).2
    have : d * patternValue p < d * 2 ^ (52 + k) := Nat.mul_lt_mul_of_pos_left hV hd
    omega

/-- One exponent up is twice the value. -/
theorem patternValue_double {p : Nat} (h : 2 ^ 52 ≤ p) : patternValue (p + 2 ^ 52) = 2 * patternValue p := by
  rw [patternValue, patternValue, if_neg (by omega), if_neg (by omega), show (p + 2 ^ 52) % 2 ^ 52 = p % 2 ^ 52 by omega,
    show (p + 2 ^ 52) / 2 ^ 52 - 1 = (p / 2 ^ 52 - 1) + 1 by omega, Nat.pow_succ]
  ring

/-- Doubling the divisor steps one exponent down, above the subnormals. -/
theorem roundMagnitude_double {n d : Nat} (h : 2 ^ 53 ≤ n / d)
    (hlt : (Nat.log2 (n / d) - 52) * 2 ^ 52 + divNearestEven n (d * 2 ^ (Nat.log2 (n / d) - 52)) < infPattern) :
    roundMagnitude n (d * 2) + 2 ^ 52 = roundMagnitude n d := by
  have hl : 53 ≤ Nat.log2 (n / d) := (Nat.le_log2 (by have := Nat.two_pow_pos 53; omega)).mpr h
  have h2 : Nat.log2 (n / (d * 2)) + 1 = Nat.log2 (n / d) := by
    rw [← Nat.div_div_eq_div_mul]
    have : Nat.log2 (n / d) = Nat.log2 (n / d / 2) + 1 := by
      conv_lhs => rw [Nat.log2_def]
      rw [if_pos (by omega)]
    omega
  obtain ⟨k, hk⟩ : ∃ k, Nat.log2 (n / d) - 52 = k + 1 := ⟨Nat.log2 (n / d) - 53, by omega⟩
  have hk2 : Nat.log2 (n / (d * 2)) - 52 = k := by omega
  rw [roundMagnitude, roundMagnitude, hk2, hk]
  rw [hk] at hlt
  rw [show d * 2 * 2 ^ k = d * 2 ^ (k + 1) by rw [Nat.pow_succ]; ring]
  rw [infPattern_eq] at *
  omega

/-- What a packed finite nonzero magnitude is. -/
theorem packSign_facts {m : Nat} (h0 : 0 < m) (h : m < infPattern) : isNaN (packSign false m) = false ∧ isInf (packSign false m) = false ∧ isZero (packSign false m) = false ∧ signBit (packSign false m) = false ∧ magnitude (packSign false m) = patternValue m := by
  have hf := isFinite_packSign false h
  have h63 : m < 2 ^ 63 := by rw [infPattern_eq] at h; omega
  refine ⟨isNaN_of_isFinite hf, isInf_of_isFinite hf, ?_, signBit_packSign _ h63, magnitude_packSign _ h63⟩
  rw [isZero, expField_packSign _ h63, fracField_packSign _ h63]
  simp; omega


end Sys2Proof.Machine
end

