-- ==== Sys2Proof/Laws/Operands.lean ====
section
/-! SUPPORT. What the operand forms and the storing loops do: which words and bits a loop leaves, and that it changes
nothing but memory. -/

namespace Sys2Proof.Machine

/-! ### One bit -/

/-- Setting a bit sets that bit and keeps every other. -/
theorem getLsbD_setBit (w : Word) {i j : Nat} (b : Bool) (hj : j < 64) :
    (setBit w i b).getLsbD j = if j = i then b else w.getLsbD j := by
  unfold setBit
  by_cases h : j = i
  · subst h
    cases b <;> simp [hj]
  · cases b <;> simp [hj, h] <;> omega

theorem bitAt_congr {s t : State} (hm : t.mem = s.mem) (he : t.epoch = s.epoch) (base i : Nat) :
    bitAt t base i = bitAt s base i := by
  rw [bitAt, bitAt, readWord_congr hm he]

/-- Writing one bit of a bit buffer changes that bit of the buffer alone. -/
theorem bitAt_writeBit (s : State) (base i j : Nat) (b : Bool) :
    bitAt (writeBit s base i b) base j = if j = i then b else bitAt s base j := by
  unfold bitAt writeBit
  by_cases hw : j / 64 = i / 64
  · have hj : j % 64 < 64 := Nat.mod_lt _ (by omega)
    rw [show bitWordAddr base j = bitWordAddr base i by rw [bitWordAddr, bitWordAddr, hw],
      readWord_writeWord_same, getLsbD_setBit _ _ hj]
    by_cases h : j = i
    · rw [if_pos (by rw [h]), if_pos h]
    · rw [if_neg (by omega), if_neg h]
  · rw [readWord_writeWord_disjoint, if_neg (by intro h; exact hw (by rw [h]))]
    unfold bitWordAddr
    omega

/-- Writing one bit leaves every byte outside its word. -/
theorem readByte_writeBit_outside (s : State) (base i : Nat) (b : Bool) {a : Nat}
    (h : a < bitWordAddr base i ∨ bitWordAddr base i + 8 ≤ a) :
    readByte (writeBit s base i b) a = readByte s a := readByte_writeWord_outside s _ h

/-! ### The loop over bits -/

/-- The loop over bits changes memory alone. -/
theorem storeBits_eq (base : Nat) (f : Nat → Bool) (n : Nat) (s : State) :
    storeBits base f n s = { s with mem := (storeBits base f n s).mem } := by
  induction n with
  | zero => rfl
  | succ n ih => rw [storeBits, writeBit, writeWord, ih]

/-- The bits the loop leaves: the given ones below its count, the old ones from there on. -/
theorem bitAt_storeBits (base : Nat) (f : Nat → Bool) (n : Nat) (s : State) (i : Nat) :
    bitAt (storeBits base f n s) base i = if i < n then f i else bitAt s base i := by
  induction n with
  | zero => rfl
  | succ n ih =>
    rw [storeBits, bitAt_writeBit, ih]
    by_cases h : i = n
    · rw [if_pos h, if_pos (by omega), h]
    · rw [if_neg h]
      by_cases h2 : i < n
      · rw [if_pos h2, if_pos (by omega)]
      · rw [if_neg h2, if_neg (by omega)]

/-- The bytes the loop can touch: those of the words that hold its bits. -/
theorem readByte_storeBits_outside (base : Nat) (f : Nat → Bool) (n : Nat) (s : State) {a : Nat}
    (h : a < base ∨ base + 8 * ((n + 63) / 64) ≤ a) :
    readByte (storeBits base f n s) a = readByte s a := by
  induction n with
  | zero => rfl
  | succ n ih =>
    rw [storeBits, readByte_writeBit_outside, ih (by omega)]
    unfold bitWordAddr
    omega

theorem storeBits_wf (base : Nat) (f : Nat → Bool) (n : Nat) (s : State) (h : Memory.wf s.mem = true) :
    Memory.wf (storeBits base f n s).mem = true := by
  induction n with
  | zero => exact h
  | succ n ih => exact Memory.wf_storeBytes _ _ _ ih

theorem mem_storeBits (base : Nat) (f : Nat → Bool) (n : Nat) (s : State) {c : Host.Cell}
    (h : c ∈ (storeBits base f n s).mem) :
    (base ≤ c.1 ∧ c.1 < base + 8 * ((n + 63) / 64)) ∨ c ∈ s.mem := by
  induction n with
  | zero => exact .inr h
  | succ n ih =>
    rcases mem_storeBytes h with h | h
    · unfold bitWordAddr at h
      exact .inl (by omega)
    · rcases ih h with h | h
      · exact .inl (by omega)
      · exact .inr h

/-! ### The loop over symbols -/

/-- The loop over symbols changes memory alone. -/
theorem storeSymbols_eq (base : Nat) (re im : Nat → Word) (n : Nat) (s : State) :
    storeSymbols base re im n s = { s with mem := (storeSymbols base re im n s).mem } := by
  induction n with
  | zero => rfl
  | succ n ih => rw [storeSymbols, writeWord, writeWord, ih]

/-- The bytes the loop can touch: those of the entries below its count. -/
theorem readByte_storeSymbols_outside (base : Nat) (re im : Nat → Word) (n : Nat) (s : State) {a : Nat}
    (h : a < base ∨ base + 16 * n ≤ a) :
    readByte (storeSymbols base re im n s) a = readByte s a := by
  induction n with
  | zero => rfl
  | succ n ih =>
    rw [storeSymbols, readByte_writeWord_outside, readByte_writeWord_outside, ih (by omega)]
    · unfold reAddr; omega
    · unfold imAddr; omega

/-- The entries below the loop's count: the given real and imaginary parts. -/
theorem readWord_storeSymbols (base : Nat) (re im : Nat → Word) {n k : Nat} (s : State) (h : k < n) :
    readWord (storeSymbols base re im n s) (reAddr base k) = re k ∧
      readWord (storeSymbols base re im n s) (imAddr base k) = im k := by
  induction n with
  | zero => omega
  | succ n ih =>
    rw [storeSymbols]
    by_cases hk : k = n
    · subst hk
      refine ⟨?_, readWord_writeWord_same _ _ _⟩
      rw [readWord_writeWord_disjoint, readWord_writeWord_same]
      unfold reAddr imAddr; omega
    · obtain ⟨h1, h2⟩ := ih (by omega)
      constructor
      · rw [readWord_writeWord_disjoint, readWord_writeWord_disjoint, h1] <;> unfold reAddr <;>
          first | omega | (unfold imAddr; omega)
      · rw [readWord_writeWord_disjoint, readWord_writeWord_disjoint, h2] <;> unfold imAddr <;>
          first | omega | (unfold reAddr; omega)

/-- Words outside the entries below the loop's count read as before. -/
theorem readWord_storeSymbols_outside (base : Nat) (re im : Nat → Word) (n : Nat) (s : State) {a : Nat}
    (h : a + 8 ≤ base ∨ base + 16 * n ≤ a) :
    readWord (storeSymbols base re im n s) a = readWord s a :=
  readWord_eq_of_readByte fun k hk => readByte_storeSymbols_outside base re im n s (by omega)

theorem storeSymbols_wf (base : Nat) (re im : Nat → Word) (n : Nat) (s : State) (h : Memory.wf s.mem = true) :
    Memory.wf (storeSymbols base re im n s).mem = true := by
  induction n with
  | zero => exact h
  | succ n ih => exact Memory.wf_storeBytes _ _ _ (Memory.wf_storeBytes _ _ _ ih)

theorem mem_storeSymbols (base : Nat) (re im : Nat → Word) (n : Nat) (s : State) {c : Host.Cell}
    (h : c ∈ (storeSymbols base re im n s).mem) :
    (base ≤ c.1 ∧ c.1 < base + 16 * n) ∨ c ∈ s.mem := by
  induction n with
  | zero => exact .inr h
  | succ n ih =>
    rcases mem_storeBytes h with h | h
    · unfold imAddr at h
      exact .inl (by omega)
    · rcases mem_storeBytes h with h | h
      · unfold reAddr at h
        exact .inl (by omega)
      · rcases ih h with h | h
        · exact .inl (by omega)
        · exact .inr h

/-! ### The loops depend on memory and epoch alone -/

theorem storeSymbols_congr {s t : State} (base : Nat) {re im re' im' : Nat → Word} (n : Nat) (hm : t.mem = s.mem)
    (hre : ∀ k, re k = re' k) (him : ∀ k, im k = im' k) :
    (storeSymbols base re im n t).mem = (storeSymbols base re' im' n s).mem := by
  induction n with
  | zero => exact hm
  | succ n ih => simp only [storeSymbols, writeWord, ih, hre, him]

theorem storeBits_congr {s t : State} (base : Nat) {f g : Nat → Bool} (n : Nat) (hm : t.mem = s.mem)
    (he : t.epoch = s.epoch) (hf : ∀ k, f k = g k) :
    (storeBits base f n t).mem = (storeBits base g n s).mem := by
  induction n with
  | zero => exact hm
  | succ n ih =>
    have he' : (storeBits base f n t).epoch = (storeBits base g n s).epoch := by
      rw [storeBits_eq, storeBits_eq base g]; exact he
    simp only [storeBits, writeBit, writeWord]
    rw [readWord_congr ih he', ih, hf]

/-- Every operand form reads memory and epoch alone. -/
theorem operands_congr {s t : State} (hm : t.mem = s.mem) (he : t.epoch = s.epoch) (i : Nat) :
    txb t i = txb s i ∧ rxb t i = rxb s i ∧ noise t i = noise s i ∧ symRe t i = symRe s i ∧ symIm t i = symIm s i ∧
      rsymRe t i = rsymRe s i ∧ rsymIm t i = rsymIm s i :=
  ⟨bitAt_congr hm he _ _, bitAt_congr hm he _ _, readWord_congr hm he _, readWord_congr hm he _,
    readWord_congr hm he _, readWord_congr hm he _, readWord_congr hm he _⟩

/-! ### The count of bit errors -/

/-- At most one error a bit. -/
theorem bitErrors_le (s : State) (n : Nat) : bitErrors s n ≤ n := by
  induction n with
  | zero => exact Nat.le_refl _
  | succ n ih =>
    rw [bitErrors]
    split <;> omega

/-- No error where the sequences agree. -/
theorem bitErrors_eq_zero {s : State} {n : Nat} (h : ∀ i, i < n → rxb s i = txb s i) : bitErrors s n = 0 := by
  induction n with
  | zero => rfl
  | succ n ih =>
    rw [bitErrors, ih fun i hi => h i (by omega), h n (by omega)]
    simp

/-- The recursive count is the number of positions below n where TXB and RXB differ. -/
theorem bitErrors_eq_countP (s : State) (n : Nat) :
    bitErrors s n = (List.range n).countP fun i => txb s i != rxb s i := by
  induction n with
  | zero => rfl
  | succ n ih => simp only [bitErrors, ih, List.range_succ, List.countP_append, List.countP_cons, List.countP_nil,
      Nat.zero_add]

theorem bitErrors_congr {s t : State} (hm : t.mem = s.mem) (he : t.epoch = s.epoch) (n : Nat) :
    bitErrors t n = bitErrors s n := by
  induction n with
  | zero => rfl
  | succ n ih => rw [bitErrors, bitErrors, ih, txb, txb, rxb, rxb, bitAt_congr hm he, bitAt_congr hm he]

end Sys2Proof.Machine
end

