-- ==== Sys2Proof/Laws/Commands.lean ====
section
/-! SUPPORT. What the completion step of a command can do, said once: `exec` is `finish` of the command's rule, a rule
succeeds exactly when its checks pass, and its body leaves the fields the body's equation gives. -/

namespace Sys2Proof.Machine

/-! ### The storing loops leave every register -/

@[simp] theorem storeSymbols_ie (base : Nat) (re im : Nat → Word) (n : Nat) (s : State) :
    (storeSymbols base re im n s).ie = s.ie := by rw [storeSymbols_eq]
@[simp] theorem storeSymbols_status (base : Nat) (re im : Nat → Word) (n : Nat) (s : State) :
    (storeSymbols base re im n s).status = s.status := by rw [storeSymbols_eq]
@[simp] theorem storeSymbols_nBits (base : Nat) (re im : Nat → Word) (n : Nat) (s : State) :
    (storeSymbols base re im n s).nBits = s.nBits := by rw [storeSymbols_eq]
@[simp] theorem storeSymbols_snrDb (base : Nat) (re im : Nat → Word) (n : Nat) (s : State) :
    (storeSymbols base re im n s).snrDb = s.snrDb := by rw [storeSymbols_eq]
@[simp] theorem storeSymbols_symN (base : Nat) (re im : Nat → Word) (n : Nat) (s : State) :
    (storeSymbols base re im n s).symN = s.symN := by rw [storeSymbols_eq]
@[simp] theorem storeSymbols_rsymN (base : Nat) (re im : Nat → Word) (n : Nat) (s : State) :
    (storeSymbols base re im n s).rsymN = s.rsymN := by rw [storeSymbols_eq]
@[simp] theorem storeSymbols_rxN (base : Nat) (re im : Nat → Word) (n : Nat) (s : State) :
    (storeSymbols base re im n s).rxN = s.rxN := by rw [storeSymbols_eq]
@[simp] theorem storeSymbols_sigma (base : Nat) (re im : Nat → Word) (n : Nat) (s : State) :
    (storeSymbols base re im n s).sigma = s.sigma := by rw [storeSymbols_eq]
@[simp] theorem storeSymbols_errCnt (base : Nat) (re im : Nat → Word) (n : Nat) (s : State) :
    (storeSymbols base re im n s).errCnt = s.errCnt := by rw [storeSymbols_eq]
@[simp] theorem storeSymbols_bitCnt (base : Nat) (re im : Nat → Word) (n : Nat) (s : State) :
    (storeSymbols base re im n s).bitCnt = s.bitCnt := by rw [storeSymbols_eq]
@[simp] theorem storeSymbols_ber (base : Nat) (re im : Nat → Word) (n : Nat) (s : State) :
    (storeSymbols base re im n s).ber = s.ber := by rw [storeSymbols_eq]
@[simp] theorem storeSymbols_nmax (base : Nat) (re im : Nat → Word) (n : Nat) (s : State) :
    (storeSymbols base re im n s).nmax = s.nmax := by rw [storeSymbols_eq]
@[simp] theorem storeSymbols_cur (base : Nat) (re im : Nat → Word) (n : Nat) (s : State) :
    (storeSymbols base re im n s).cur = s.cur := by rw [storeSymbols_eq]
@[simp] theorem storeSymbols_epoch (base : Nat) (re im : Nat → Word) (n : Nat) (s : State) :
    (storeSymbols base re im n s).epoch = s.epoch := by rw [storeSymbols_eq]
@[simp] theorem storeSymbols_draws (base : Nat) (re im : Nat → Word) (n : Nat) (s : State) :
    (storeSymbols base re im n s).draws = s.draws := by rw [storeSymbols_eq]
@[simp] theorem storeSymbols_events (base : Nat) (re im : Nat → Word) (n : Nat) (s : State) :
    (storeSymbols base re im n s).events = s.events := by rw [storeSymbols_eq]
@[simp] theorem storeSymbols_rdata (base : Nat) (re im : Nat → Word) (n : Nat) (s : State) :
    (storeSymbols base re im n s).rdata = s.rdata := by rw [storeSymbols_eq]

@[simp] theorem storeBits_ie (base : Nat) (f : Nat → Bool) (n : Nat) (s : State) :
    (storeBits base f n s).ie = s.ie := by rw [storeBits_eq]
@[simp] theorem storeBits_status (base : Nat) (f : Nat → Bool) (n : Nat) (s : State) :
    (storeBits base f n s).status = s.status := by rw [storeBits_eq]
@[simp] theorem storeBits_nBits (base : Nat) (f : Nat → Bool) (n : Nat) (s : State) :
    (storeBits base f n s).nBits = s.nBits := by rw [storeBits_eq]
@[simp] theorem storeBits_snrDb (base : Nat) (f : Nat → Bool) (n : Nat) (s : State) :
    (storeBits base f n s).snrDb = s.snrDb := by rw [storeBits_eq]
@[simp] theorem storeBits_symN (base : Nat) (f : Nat → Bool) (n : Nat) (s : State) :
    (storeBits base f n s).symN = s.symN := by rw [storeBits_eq]
@[simp] theorem storeBits_rsymN (base : Nat) (f : Nat → Bool) (n : Nat) (s : State) :
    (storeBits base f n s).rsymN = s.rsymN := by rw [storeBits_eq]
@[simp] theorem storeBits_rxN (base : Nat) (f : Nat → Bool) (n : Nat) (s : State) :
    (storeBits base f n s).rxN = s.rxN := by rw [storeBits_eq]
@[simp] theorem storeBits_sigma (base : Nat) (f : Nat → Bool) (n : Nat) (s : State) :
    (storeBits base f n s).sigma = s.sigma := by rw [storeBits_eq]
@[simp] theorem storeBits_errCnt (base : Nat) (f : Nat → Bool) (n : Nat) (s : State) :
    (storeBits base f n s).errCnt = s.errCnt := by rw [storeBits_eq]
@[simp] theorem storeBits_bitCnt (base : Nat) (f : Nat → Bool) (n : Nat) (s : State) :
    (storeBits base f n s).bitCnt = s.bitCnt := by rw [storeBits_eq]
@[simp] theorem storeBits_ber (base : Nat) (f : Nat → Bool) (n : Nat) (s : State) :
    (storeBits base f n s).ber = s.ber := by rw [storeBits_eq]
@[simp] theorem storeBits_nmax (base : Nat) (f : Nat → Bool) (n : Nat) (s : State) :
    (storeBits base f n s).nmax = s.nmax := by rw [storeBits_eq]
@[simp] theorem storeBits_cur (base : Nat) (f : Nat → Bool) (n : Nat) (s : State) :
    (storeBits base f n s).cur = s.cur := by rw [storeBits_eq]
@[simp] theorem storeBits_epoch (base : Nat) (f : Nat → Bool) (n : Nat) (s : State) :
    (storeBits base f n s).epoch = s.epoch := by rw [storeBits_eq]
@[simp] theorem storeBits_draws (base : Nat) (f : Nat → Bool) (n : Nat) (s : State) :
    (storeBits base f n s).draws = s.draws := by rw [storeBits_eq]
@[simp] theorem storeBits_events (base : Nat) (f : Nat → Bool) (n : Nat) (s : State) :
    (storeBits base f n s).events = s.events := by rw [storeBits_eq]
@[simp] theorem storeBits_rdata (base : Nat) (f : Nat → Bool) (n : Nat) (s : State) :
    (storeBits base f n s).rdata = s.rdata := by rw [storeBits_eq]

/-! ### Completion -/

/-- The rule of each command: the state after its effects, or the error it raises. -/
def ruleOf (i : Instr) (s : State) : Except CmdError State :=
  match i with
  | .nop => .ok s
  | .modBpsk => modBpskRule s
  | .modQpsk => modQpskRule s
  | .awgnBpsk => awgnBpskRule s
  | .awgnQpsk => awgnQpskRule s
  | .demodBpsk => demodBpskRule s
  | .demodQpsk => demodQpskRule s
  | .count => countRule s
  | .estimate => estimateRule s
  | .runBpsk => runBpskRule s
  | .runQpsk => runQpskRule s
  | .clear => .ok (clearBody s)

/-- Every command is the completion of its rule. -/
theorem exec_eq_finish (i : Instr) (s : State) : exec i s = finish s (ruleOf i s) := by cases i <;> rfl

/-- What completion can do: retire the state after the effects, or raise the error on the state before. -/
theorem finish_eq_next {s t : State} {r : Except CmdError State} (h : finish s r = .next t) :
    (∃ u, r = .ok u ∧ t = retire u) ∨ (∃ e, r = .error e ∧ t = raise e s) := by
  cases r with
  | ok u => exact .inl ⟨u, rfl, by simpa [finish] using h.symm⟩
  | error e => exact .inr ⟨e, rfl, by simpa [finish] using h.symm⟩

/-- What a command can do. -/
theorem exec_eq_next {i : Instr} {s t : State} (h : exec i s = .next t) :
    (∃ u, ruleOf i s = .ok u ∧ t = retire u) ∨ (∃ e, ruleOf i s = .error e ∧ t = raise e s) :=
  finish_eq_next (exec_eq_finish i s ▸ h)

theorem exec_of_rule_ok {i : Instr} {s u : State} (h : ruleOf i s = .ok u) : exec i s = .next (retire u) := by
  rw [exec_eq_finish, h]; rfl

theorem exec_of_rule_error {i : Instr} {s : State} {e : CmdError} (h : ruleOf i s = .error e) :
    exec i s = .next (raise e s) := by rw [exec_eq_finish, h]; rfl

/-- A completion's STATUS in spec terms. -/
theorem Status.failed_eq (st : Status) (e : CmdError) : st.failed e = statusError st e := by
  cases e <;> cases st <;> simp [Status.failed, statusError]

theorem Status.succeeded_eq (st : Status) : st.succeeded = statusOk st := rfl

/-- A command succeeds exactly when its rule does. -/
theorem succeeds_iff {i : Instr} {s t : State} : Succeeds i s t ↔ ∃ u, ruleOf i s = .ok u ∧ t = retire u := by
  constructor
  · rintro ⟨h, he⟩
    rcases exec_eq_next h with h1 | ⟨e, _, rfl⟩
    · exact h1
    · simp at he
  · rintro ⟨u, h, rfl⟩
    exact ⟨exec_of_rule_ok h, rfl⟩

/-- A command fails exactly when its rule raises that error. -/
theorem fails_iff {i : Instr} {s : State} {e : CmdError} : Fails i s e ↔ ruleOf i s = .error e := by
  constructor
  · rintro ⟨t, h, he⟩
    rcases exec_eq_next h with ⟨u, _, rfl⟩ | ⟨e', h1, rfl⟩
    · simp at he
    · simp at he; rw [h1, he]
  · intro h
    exact ⟨_, exec_of_rule_error h, rfl⟩

/-! ### The checks in arithmetic -/

theorem bpskCountValid_iff (s : State) :
    bpskCountValid s = true ↔ 1 ≤ s64 s.nBits ∧ s64 s.nBits ≤ s.nMax := by
  rw [bpskCountValid, Bool.and_eq_true, decide_eq_true_iff, decide_eq_true_iff, bitCount]

theorem qpskCountValid_iff (s : State) :
    qpskCountValid s = true ↔ (1 ≤ s64 s.nBits ∧ s64 s.nBits ≤ s.nMax) ∧ s64 s.nBits % 2 = 0 := by
  rw [qpskCountValid, Bool.and_eq_true, bpskCountValid_iff, decide_eq_true_iff, bitCount]

theorem awgnBpskCountValid_iff (s : State) :
    awgnBpskCountValid s = true ↔ 1 ≤ u64 s.symN ∧ u64 s.symN ≤ s.nMax := by simp [awgnBpskCountValid]

theorem awgnQpskCountValid_iff (s : State) :
    awgnQpskCountValid s = true ↔ 1 ≤ u64 s.symN ∧ u64 s.symN ≤ s.nMax / 2 := by simp [awgnQpskCountValid]

theorem demodBpskCountValid_iff (s : State) :
    demodBpskCountValid s = true ↔ 1 ≤ u64 s.rsymN ∧ u64 s.rsymN ≤ s.nMax := by simp [demodBpskCountValid]

theorem demodQpskCountValid_iff (s : State) :
    demodQpskCountValid s = true ↔ 1 ≤ u64 s.rsymN ∧ u64 s.rsymN ≤ s.nMax / 2 := by simp [demodQpskCountValid]

theorem bitCntOverflows_iff (s : State) (n : Nat) :
    bitCntOverflows s n = true ↔ 2 ^ 64 - 1 < u64 s.bitCnt + n := by simp [bitCntOverflows]

theorem nMax_lt (s : State) : s.nMax < 2 ^ 64 := s.nmax.isLt

/-- A count that fits is read back as it was written. -/
theorem countWord_toNat {n : Nat} (h : n < 2 ^ 64) : (countWord n).toNat = n := by
  rw [countWord, BitVec.toNat_ofNat, Nat.mod_eq_of_lt h]

/-! ### When a rule succeeds, and with what -/

theorem modBpskRule_ok {s u : State} :
    modBpskRule s = .ok u ↔ bpskCountValid s = true ∧ u = modBpskBody (bitCount s).toNat s := by
  unfold modBpskRule
  cases bpskCountValid s <;> simp [eq_comm]

theorem modQpskRule_ok {s u : State} :
    modQpskRule s = .ok u ↔ qpskCountValid s = true ∧ u = modQpskBody (bitCount s).toNat s := by
  unfold modQpskRule
  cases qpskCountValid s <;> simp [eq_comm]

theorem awgnBpskRule_ok {s u : State} :
    awgnBpskRule s = .ok u ↔ awgnBpskCountValid s = true ∧ isFinite (sigmaBpsk s.draws s.snrDb) = true ∧
      u = awgnBpskBody (sigmaBpsk s.draws s.snrDb) (u64 s.symN) s := by
  unfold awgnBpskRule
  cases awgnBpskCountValid s <;> cases isFinite (sigmaBpsk s.draws s.snrDb) <;> simp [eq_comm]

theorem awgnQpskRule_ok {s u : State} :
    awgnQpskRule s = .ok u ↔ awgnQpskCountValid s = true ∧ isFinite (sigmaQpsk s.draws s.snrDb) = true ∧
      u = awgnQpskBody (sigmaQpsk s.draws s.snrDb) (u64 s.symN) s := by
  unfold awgnQpskRule
  cases awgnQpskCountValid s <;> cases isFinite (sigmaQpsk s.draws s.snrDb) <;> simp [eq_comm]

theorem demodBpskRule_ok {s u : State} :
    demodBpskRule s = .ok u ↔ demodBpskCountValid s = true ∧ u = demodBpskBody (u64 s.rsymN) s := by
  unfold demodBpskRule
  cases demodBpskCountValid s <;> simp [eq_comm]

theorem demodQpskRule_ok {s u : State} :
    demodQpskRule s = .ok u ↔ demodQpskCountValid s = true ∧ u = demodQpskBody (u64 s.rsymN) s := by
  unfold demodQpskRule
  cases demodQpskCountValid s <;> simp [eq_comm]

theorem countRule_ok {s u : State} :
    countRule s = .ok u ↔ bpskCountValid s = true ∧ (u64 s.rxN : Int) = bitCount s ∧
      bitCntOverflows s (bitCount s).toNat = false ∧ u = countBody (bitCount s).toNat s := by
  unfold countRule
  by_cases h : (u64 s.rxN : Int) = bitCount s <;> cases bpskCountValid s <;>
    cases bitCntOverflows s (bitCount s).toNat <;> simp [h, eq_comm]

theorem estimateRule_ok {s u : State} : estimateRule s = .ok u ↔ u64 s.bitCnt ≠ 0 ∧ u = estimateBody s := by
  unfold estimateRule
  by_cases h : u64 s.bitCnt = 0 <;> simp [h, eq_comm]

theorem runBpskRule_ok {s u : State} :
    runBpskRule s = .ok u ↔ bpskCountValid s = true ∧ isFinite (sigmaBpsk s.draws s.snrDb) = true ∧
      bitCntOverflows s (bitCount s).toNat = false ∧
      u = runBpskBody (sigmaBpsk s.draws s.snrDb) (bitCount s).toNat s := by
  unfold runBpskRule
  cases bpskCountValid s <;> cases isFinite (sigmaBpsk s.draws s.snrDb) <;>
    cases bitCntOverflows s (bitCount s).toNat <;> simp [eq_comm]

theorem runQpskRule_ok {s u : State} :
    runQpskRule s = .ok u ↔ qpskCountValid s = true ∧ isFinite (sigmaQpsk s.draws s.snrDb) = true ∧
      bitCntOverflows s (bitCount s).toNat = false ∧
      u = runQpskBody (sigmaQpsk s.draws s.snrDb) (bitCount s).toNat s := by
  unfold runQpskRule
  cases qpskCountValid s <;> cases isFinite (sigmaQpsk s.draws s.snrDb) <;>
    cases bitCntOverflows s (bitCount s).toNat <;> simp [eq_comm]

/-! ### What a body leaves -/

/-- The memory MOD.BPSK leaves. -/
def modBpskMem (n : Nat) (s : State) : Memory :=
  (storeSymbols symBase (fun i => bitSymbol ONE MONE (txb s i)) (fun _ => PZERO) n s).mem

/-- The memory MOD.QPSK leaves. -/
def modQpskMem (n : Nat) (s : State) : Memory :=
  (storeSymbols symBase (fun k => bitSymbol qpskA qpskNegA (txb s (2 * k)))
    (fun k => bitSymbol qpskA qpskNegA (txb s (2 * k + 1))) (n / 2) s).mem

/-- The memory AWGN.BPSK leaves. -/
def awgnBpskMem (sigma : Word) (m : Nat) (s : State) : Memory :=
  (storeSymbols rsymBase (fun i => addNoise s.draws (4 + 4 * i) sigma (symRe s i) (noise s i))
    (fun i => symIm s i) m s).mem

/-- The memory AWGN.QPSK leaves. -/
def awgnQpskMem (sigma : Word) (m : Nat) (s : State) : Memory :=
  (storeSymbols rsymBase (fun k => addNoise s.draws (4 + 4 * k) sigma (symRe s k) (noise s k))
    (fun k => addNoise s.draws (6 + 4 * k) sigma (symIm s k) (noise s (m + k))) m s).mem

/-- The memory DEMOD.BPSK leaves. -/
def demodBpskMem (m : Nat) (s : State) : Memory := (storeBits rxbBase (fun i => decide64 (rsymRe s i)) m s).mem

/-- The memory DEMOD.QPSK leaves. -/
def demodQpskMem (m : Nat) (s : State) : Memory := (storeBits rxbBase (fun i => qpskDecision s i) (2 * m) s).mem

theorem modBpskBody_eq (n : Nat) (s : State) :
    modBpskBody n s = { s with mem := modBpskMem n s, symN := countWord n } := by
  unfold modBpskBody modBpskMem; rw [storeSymbols_eq]

theorem modQpskBody_eq (n : Nat) (s : State) :
    modQpskBody n s = { s with mem := modQpskMem n s, symN := countWord (n / 2) } := by
  unfold modQpskBody modQpskMem; rw [storeSymbols_eq]

theorem awgnBpskBody_eq (sigma : Word) (m : Nat) (s : State) :
    awgnBpskBody sigma m s =
      { s with mem := awgnBpskMem sigma m s, rsymN := countWord m, sigma := sigma, draws := s.draws + 1 } := by
  unfold awgnBpskBody awgnBpskMem; rw [storeSymbols_eq]

theorem awgnQpskBody_eq (sigma : Word) (m : Nat) (s : State) :
    awgnQpskBody sigma m s =
      { s with mem := awgnQpskMem sigma m s, rsymN := countWord m, sigma := sigma, draws := s.draws + 1 } := by
  unfold awgnQpskBody awgnQpskMem; rw [storeSymbols_eq]

theorem demodBpskBody_eq (m : Nat) (s : State) :
    demodBpskBody m s = { s with mem := demodBpskMem m s, rxN := countWord m } := by
  unfold demodBpskBody demodBpskMem; rw [storeBits_eq]

theorem demodQpskBody_eq (m : Nat) (s : State) :
    demodQpskBody m s = { s with mem := demodQpskMem m s, rxN := countWord (2 * m) } := by
  unfold demodQpskBody demodQpskMem; rw [storeBits_eq]

/-- Two states with the same memory and epoch hold the same bytes: the form in which the loops' laws apply to any state
built on their memory. -/
theorem readByte_of_storeSymbols {t s : State} {base n : Nat} {re im : Nat → Word}
    (hm : t.mem = (storeSymbols base re im n s).mem) (he : t.epoch = s.epoch) (a : Nat) :
    readByte t a = readByte (storeSymbols base re im n s) a := readByte_congr hm (by simpa using he) a

theorem readWord_of_storeSymbols {t s : State} {base n : Nat} {re im : Nat → Word}
    (hm : t.mem = (storeSymbols base re im n s).mem) (he : t.epoch = s.epoch) (a : Nat) :
    readWord t a = readWord (storeSymbols base re im n s) a := readWord_congr hm (by simpa using he) a

theorem readByte_of_storeBits {t s : State} {base n : Nat} {f : Nat → Bool}
    (hm : t.mem = (storeBits base f n s).mem) (he : t.epoch = s.epoch) (a : Nat) :
    readByte t a = readByte (storeBits base f n s) a := readByte_congr hm (by simpa using he) a

theorem bitAt_of_storeBits {t s : State} {base n : Nat} {f : Nat → Bool}
    (hm : t.mem = (storeBits base f n s).mem) (he : t.epoch = s.epoch) (i : Nat) :
    bitAt t base i = if i < n then f i else bitAt s base i := by
  rw [bitAt_congr hm (by simpa using he), bitAt_storeBits]

/-- The memory every command leaves is canonical where it was. -/
theorem ruleOf_keeps_wf {i : Instr} {s u : State} (h : ruleOf i s = .ok u) (hw : Memory.wf s.mem = true) :
    Memory.wf u.mem = true := by
  have awgnB : ∀ σ m (t : State), Memory.wf t.mem = true → Memory.wf (awgnBpskBody σ m t).mem = true := by
    intro σ m t ht; rw [awgnBpskBody_eq]; exact storeSymbols_wf _ _ _ _ _ ht
  have awgnQ : ∀ σ m (t : State), Memory.wf t.mem = true → Memory.wf (awgnQpskBody σ m t).mem = true := by
    intro σ m t ht; rw [awgnQpskBody_eq]; exact storeSymbols_wf _ _ _ _ _ ht
  have modB : ∀ n (t : State), Memory.wf t.mem = true → Memory.wf (modBpskBody n t).mem = true := by
    intro n t ht; rw [modBpskBody_eq]; exact storeSymbols_wf _ _ _ _ _ ht
  have modQ : ∀ n (t : State), Memory.wf t.mem = true → Memory.wf (modQpskBody n t).mem = true := by
    intro n t ht; rw [modQpskBody_eq]; exact storeSymbols_wf _ _ _ _ _ ht
  have demB : ∀ n (t : State), Memory.wf t.mem = true → Memory.wf (demodBpskBody n t).mem = true := by
    intro n t ht; rw [demodBpskBody_eq]; exact storeBits_wf _ _ _ _ ht
  have demQ : ∀ n (t : State), Memory.wf t.mem = true → Memory.wf (demodQpskBody n t).mem = true := by
    intro n t ht; rw [demodQpskBody_eq]; exact storeBits_wf _ _ _ _ ht
  cases i with
  | nop => cases h; exact hw
  | modBpsk => obtain ⟨_, rfl⟩ := modBpskRule_ok.mp h; exact modB _ _ hw
  | modQpsk => obtain ⟨_, rfl⟩ := modQpskRule_ok.mp h; exact modQ _ _ hw
  | awgnBpsk => obtain ⟨_, _, rfl⟩ := awgnBpskRule_ok.mp h; exact awgnB _ _ _ hw
  | awgnQpsk => obtain ⟨_, _, rfl⟩ := awgnQpskRule_ok.mp h; exact awgnQ _ _ _ hw
  | demodBpsk => obtain ⟨_, rfl⟩ := demodBpskRule_ok.mp h; exact demB _ _ hw
  | demodQpsk => obtain ⟨_, rfl⟩ := demodQpskRule_ok.mp h; exact demQ _ _ hw
  | count => obtain ⟨_, _, _, rfl⟩ := countRule_ok.mp h; exact hw
  | estimate => obtain ⟨_, rfl⟩ := estimateRule_ok.mp h; exact hw
  | runBpsk => obtain ⟨_, _, _, rfl⟩ := runBpskRule_ok.mp h; exact demB _ _ (awgnB _ _ _ (modB _ _ hw))
  | runQpsk => obtain ⟨_, _, _, rfl⟩ := runQpskRule_ok.mp h; exact demQ _ _ (awgnQ _ _ _ (modQ _ _ hw))
  | clear => cases h; exact hw

/-- No command's effects touch IE, STATUS, the registers the host alone writes, NMAX, CUR, or the model's epoch, events
and read data. -/
theorem ruleOf_keeps {i : Instr} {s u : State} (h : ruleOf i s = .ok u) :
    u.ie = s.ie ∧ u.status = s.status ∧ u.nBits = s.nBits ∧ u.snrDb = s.snrDb ∧ u.nmax = s.nmax ∧ u.cur = s.cur ∧
      u.epoch = s.epoch ∧ u.events = s.events ∧ u.rdata = s.rdata := by
  cases i with
  | nop => cases h; simp
  | modBpsk => obtain ⟨_, rfl⟩ := modBpskRule_ok.mp h; simp [modBpskBody_eq]
  | modQpsk => obtain ⟨_, rfl⟩ := modQpskRule_ok.mp h; simp [modQpskBody_eq]
  | awgnBpsk => obtain ⟨_, _, rfl⟩ := awgnBpskRule_ok.mp h; simp [awgnBpskBody_eq]
  | awgnQpsk => obtain ⟨_, _, rfl⟩ := awgnQpskRule_ok.mp h; simp [awgnQpskBody_eq]
  | demodBpsk => obtain ⟨_, rfl⟩ := demodBpskRule_ok.mp h; simp [demodBpskBody_eq]
  | demodQpsk => obtain ⟨_, rfl⟩ := demodQpskRule_ok.mp h; simp [demodQpskBody_eq]
  | count => obtain ⟨_, _, _, rfl⟩ := countRule_ok.mp h; simp [countBody]
  | estimate => obtain ⟨_, rfl⟩ := estimateRule_ok.mp h; simp [estimateBody]
  | runBpsk =>
    obtain ⟨_, _, _, rfl⟩ := runBpskRule_ok.mp h
    simp [runBpskBody, estimateBody, countBody, demodBpskBody_eq, awgnBpskBody_eq, modBpskBody_eq]
  | runQpsk =>
    obtain ⟨_, _, _, rfl⟩ := runQpskRule_ok.mp h
    simp [runQpskBody, estimateBody, countBody, demodQpskBody_eq, awgnQpskBody_eq, modQpskBody_eq]
  | clear => cases h; simp [clearBody]

end Sys2Proof.Machine
end

