-- ==== Sys2Proof/Laws/Decode.lean ====
section
/-! SUPPORT. Decoding in the arithmetic of 30_encoding.md R84: the fields of a command word as numbers, and what the
write set of a command word in flight is. -/

namespace Sys2Proof

theorem opField_toNat (c : Word) : (opField c).toNat = c.toNat % 16 := by
  simp [opField, BitVec.extractLsb']

theorem schemeField_toNat (c : Word) : (schemeField c).toNat = c.toNat / 16 % 4 := by
  simp [schemeField, BitVec.extractLsb', Nat.shiftRight_eq_div_pow]

theorem rsvField_toNat (c : Word) : (rsvField c).toNat = c.toNat / 64 := by
  have := c.isLt
  simp [rsvField, BitVec.extractLsb', Nat.shiftRight_eq_div_pow]
  omega

theorem rsvField_eq_zero (c : Word) : rsvField c = 0 ↔ c.toNat / 64 = 0 := by
  rw [← rsvField_toNat]
  exact ⟨fun h => by rw [h]; rfl, fun h => BitVec.eq_of_toNat_eq h⟩

theorem schemeField_eq (c : Word) (k : BitVec 2) : schemeField c = k ↔ c.toNat / 16 % 4 = k.toNat := by
  rw [← schemeField_toNat]; exact BitVec.toNat_eq

/-- The scheme choice in arithmetic. -/
theorem byScheme_eq (c : Word) (bpsk qpsk : Instr) :
    byScheme (schemeField c) bpsk qpsk =
      if c.toNat / 16 % 4 = 0 then .ok bpsk
      else if c.toNat / 16 % 4 = 1 then .ok qpsk
      else .error .invalidScheme := by
  rw [byScheme]
  simp only [schemeField_eq]
  rfl

/-- A word with a reserved bit set is no command. -/
theorem decode_of_rsv {c : Word} (h : c.toNat / 64 ≠ 0) : decode c = .error .illegalCommand := by
  rw [decode, if_pos]
  rwa [ne_eq, rsvField_eq_zero]

/-- A word with a reserved operation is no command. -/
theorem decode_of_reservedOp {c : Word} (h : 8 ≤ c.toNat % 16) : decode c = .error .illegalCommand := by
  by_cases hr : c.toNat / 64 = 0
  · rw [decode, if_neg (by rw [ne_eq, rsvField_eq_zero]; omega), opField_toNat, if_pos h]
  · exact decode_of_rsv hr

/-- A decoded word has its reserved bits clear and an assigned operation, so it is one of 64 words. -/
theorem decode_ok_bounds {c : Word} {i : Instr} (h : decode c = .ok i) : c.toNat / 64 = 0 ∧ c.toNat % 16 < 8 := by
  constructor
  · by_contra hc
    rw [decode_of_rsv hc] at h
    cases h
  · by_contra hc
    rw [decode_of_reservedOp (by omega)] at h
    cases h

/-- The operation of a decoded word is its command's. -/
theorem decode_ok_op {c : Word} {i : Instr} (h : decode c = .ok i) : c.toNat % 16 = (opOf i).toNat := by
  obtain ⟨_, h8⟩ := decode_ok_bounds h
  rw [decode] at h
  split at h
  · cases h
  · split at h
    · cases h
    · simp only [opField_toNat, byScheme_eq] at h
      generalize c.toNat % 16 = o at *
      generalize c.toNat / 16 % 4 = sc at *
      rcases (by omega : o = 0 ∨ o = 1 ∨ o = 2 ∨ o = 3 ∨ o = 4 ∨ o = 5 ∨ o = 6 ∨ o = 7) with
        rfl | rfl | rfl | rfl | rfl | rfl | rfl | rfl <;> simp only at h <;> (repeat' split at h) <;>
        first
          | (cases h; rfl)
          | cases h

namespace Machine

theorem getLsbD_schemeMask : ∀ j : Fin 64, (0xFFFFFFFFFFFFFFCF : Word).getLsbD j = (decide (j.val < 4) || decide (6 ≤ j.val)) := by
  decide

/-- Clearing SCHEME keeps OP and RSV. -/
theorem withoutScheme_fields (c : Word) :
    (withoutScheme c).toNat % 16 = c.toNat % 16 ∧ (withoutScheme c).toNat / 16 % 4 = 0 ∧
      (withoutScheme c).toNat / 64 = c.toNat / 64 := by
  have bit : ∀ j, j < 64 → (withoutScheme c).getLsbD j = (c.getLsbD j && (decide (j < 4) || decide (6 ≤ j))) := by
    intro j hj
    rw [withoutScheme, BitVec.getLsbD_and, getLsbD_schemeMask ⟨j, hj⟩]
  refine ⟨?_, ?_, ?_⟩
  · rw [← opField_toNat, ← opField_toNat]
    congr 1
    apply BitVec.eq_of_getLsbD_eq
    intro j hj
    rw [opField, opField, BitVec.getLsbD_extractLsb', BitVec.getLsbD_extractLsb', bit _ (by omega)]
    rw [Nat.zero_add, decide_eq_true (show j < 4 from hj), Bool.true_or, Bool.and_true]
  · rw [← schemeField_toNat, show (0 : Nat) = (0 : BitVec 2).toNat from rfl]
    congr 1
    apply BitVec.eq_of_getLsbD_eq
    intro j hj
    rw [schemeField, BitVec.getLsbD_extractLsb', bit _ (by omega)]
    rw [decide_eq_false (show ¬ 4 + j < 4 by omega), decide_eq_false (show ¬ 6 ≤ 4 + j by omega)]
    simp
  · rw [← rsvField_toNat, ← rsvField_toNat]
    congr 1
    apply BitVec.eq_of_getLsbD_eq
    intro j hj
    rw [rsvField, rsvField, BitVec.getLsbD_extractLsb', BitVec.getLsbD_extractLsb', bit _ (by omega)]
    rw [decide_eq_true (show 6 ≤ 6 + j by omega), Bool.or_true, Bool.and_true]

/-- What the write set of a word in flight is: its command's row; none for an IllegalCommand; the row its operation has
with a recognised SCHEME for an InvalidScheme. -/
theorem inFlightWriteSet_ok {c : Word} {i : Instr} (h : decode c = .ok i) (loc : Location) :
    inFlightWriteSet c loc = writeSet i loc := by
  obtain ⟨h1, h2, h3⟩ := withoutScheme_fields c
  obtain ⟨hr, ho⟩ := decode_ok_bounds h
  have hop := decode_ok_op h
  have hd : ∀ w : Word, w.toNat / 64 = 0 → w.toNat % 16 < 8 → decode w =
      match w.toNat % 16 with
      | 0 => .ok .nop
      | 1 => byScheme (schemeField w) .modBpsk .modQpsk
      | 2 => byScheme (schemeField w) .awgnBpsk .awgnQpsk
      | 3 => byScheme (schemeField w) .demodBpsk .demodQpsk
      | 4 => .ok .count
      | 5 => .ok .estimate
      | 6 => byScheme (schemeField w) .runBpsk .runQpsk
      | 7 => .ok .clear
      | _ => .error .illegalCommand := by
    intro w hw hw2
    rw [decode, if_neg (by rw [ne_eq, rsvField_eq_zero]; omega), opField_toNat, if_neg (by omega)] <;> rfl
  rw [inFlightWriteSet, hd _ (by omega) (by omega)]
  simp only [byScheme_eq, h1, h2, hop, if_true]
  cases i <;> rfl

theorem inFlightWriteSet_illegal {c : Word} (h : decode c = .error .illegalCommand) (loc : Location) :
    inFlightWriteSet c loc = false := by
  obtain ⟨h1, h2, h3⟩ := withoutScheme_fields c
  have : c.toNat / 64 ≠ 0 ∨ 8 ≤ c.toNat % 16 := by
    by_contra hc
    have hr : c.toNat / 64 = 0 := by omega
    have ho : c.toNat % 16 < 8 := by omega
    rw [decode, if_neg (by rw [ne_eq, rsvField_eq_zero]; omega), opField_toNat, if_neg (by omega)] at h
    simp only [byScheme_eq] at h
    generalize c.toNat % 16 = o at *
    generalize c.toNat / 16 % 4 = sc at *
    rcases (by omega : o = 0 ∨ o = 1 ∨ o = 2 ∨ o = 3 ∨ o = 4 ∨ o = 5 ∨ o = 6 ∨ o = 7) with
      rfl | rfl | rfl | rfl | rfl | rfl | rfl | rfl <;> simp only at h <;> (repeat' split at h) <;> cases h
  rw [inFlightWriteSet]
  rcases this with hc | hc
  · rw [decode_of_rsv (by rw [h3]; exact hc)]
  · rw [decode_of_reservedOp (by rw [h1]; exact hc)]

end Machine

end Sys2Proof
end

