-- ==== Sys2Proof/Laws/PerInstr.lean ====
section
/-! SUPPORT. Statements about every command, made command by command. -/

namespace Sys2Proof.Laws

/-- Every command's word meets the three checks of 30_encoding.md R84: RSV is 0, OP is assigned, and SCHEME is recognised
where the operation depends on it. -/
def EncodeFits.Statement (i : Instr) : Prop := wordWellFormed (encode i) = true

theorem EncodeFits.nop : EncodeFits.Statement .nop := by unfold EncodeFits.Statement; decide
theorem EncodeFits.modBpsk : EncodeFits.Statement .modBpsk := by unfold EncodeFits.Statement; decide
theorem EncodeFits.modQpsk : EncodeFits.Statement .modQpsk := by unfold EncodeFits.Statement; decide
theorem EncodeFits.awgnBpsk : EncodeFits.Statement .awgnBpsk := by unfold EncodeFits.Statement; decide
theorem EncodeFits.awgnQpsk : EncodeFits.Statement .awgnQpsk := by unfold EncodeFits.Statement; decide
theorem EncodeFits.demodBpsk : EncodeFits.Statement .demodBpsk := by unfold EncodeFits.Statement; decide
theorem EncodeFits.demodQpsk : EncodeFits.Statement .demodQpsk := by unfold EncodeFits.Statement; decide
theorem EncodeFits.count : EncodeFits.Statement .count := by unfold EncodeFits.Statement; decide
theorem EncodeFits.estimate : EncodeFits.Statement .estimate := by unfold EncodeFits.Statement; decide
theorem EncodeFits.runBpsk : EncodeFits.Statement .runBpsk := by unfold EncodeFits.Statement; decide
theorem EncodeFits.runQpsk : EncodeFits.Statement .runQpsk := by unfold EncodeFits.Statement; decide
theorem EncodeFits.clear : EncodeFits.Statement .clear := by unfold EncodeFits.Statement; decide

end Sys2Proof.Laws
end

