-- ==== Sys2Proof/Laws/Step.lean ====
section
/-! SUPPORT. What a step can do, said once: the next event's effect, or a completion. -/

namespace Sys2Proof.Machine

/-- The block's turn with a command in flight: retire the state after the command's effects, or raise its error. -/
theorem blockTurn_busy {s t : State} (hb : s.status.busy = true) (h : blockTurn s = .next t) :
    (∃ i u, decode s.cur = .ok i ∧ ruleOf i s = .ok u ∧ t = retire u) ∨
      (∃ e, ((decode s.cur = .error e) ∨ ∃ i, decode s.cur = .ok i ∧ ruleOf i s = .error e) ∧ t = raise e s) := by
  rw [blockTurn, if_pos hb, completeCommand] at h
  split at h
  · rename_i i hi
    rcases exec_eq_next h with ⟨u, hu, rfl⟩ | ⟨e, he, rfl⟩
    · exact .inl ⟨i, u, hi, hu, rfl⟩
    · exact .inr ⟨e, .inr ⟨i, hi, he⟩, rfl⟩
  · rename_i e he
    refine .inr ⟨e, .inl he, ?_⟩
    injection h with h
    exact h.symm

theorem blockTurn_idle {s : State} (hb : s.status.busy = false) : blockTurn s = .next s := by
  rw [blockTurn, hb]; rfl

/-- A completion: BUSY 0, DONE 1, IE, CUR and DROP as before, FATAL never cleared. -/
theorem blockTurn_lifecycle {s t : State} (hb : s.status.busy = true) (h : blockTurn s = .next t) :
    t.status.busy = false ∧ t.status.done = true ∧ t.ie = s.ie ∧ t.cur = s.cur ∧ t.status.drop = s.status.drop ∧
      (s.status.fatal = true → t.status.fatal = true) := by
  rcases blockTurn_busy hb h with ⟨i, u, _, hu, rfl⟩ | ⟨e, _, rfl⟩
  · have hk := ruleOf_keeps hu
    simp [Status.succeeded, hk.1, hk.2.1, hk.2.2.2.2.2.1]
  · simp only [raise_status, raise_ie, raise_cur, Status.failed, true_and]
    intro hf
    rw [hf]
    split <;> rfl

/-- A step on the block's turn is the block's turn, with that turn taken. -/
theorem step_of_blockTurn {s : State} {es : List Event} (h : BlockTurn s es) :
    step s = blockTurn { s with events := es } := by
  rcases h with h | ⟨h, rfl⟩
  · unfold step; rw [h]; rfl
  · unfold step; rw [h]
    have : s = { s with events := [] } := by rw [← h]
    rw [← this]

theorem step_host {s : State} {x : Transaction} {es : List Event} (h : s.events = .host x :: es) :
    step s = .next (transact x { s with events := es }) := by unfold step; rw [h]; rfl

theorem step_reset {s : State} {lost : Option Transaction} {es : List Event} (h : s.events = .reset lost :: es) :
    step s = .next (resetBlock (loseTransaction lost { s with events := es })) := by unfold step; rw [h]; rfl

/-- What a step can do: a turn of the block with nothing in flight, a completion, a host transaction, or a reset. -/
theorem step_cases {s t : State} (h : step s = .next t) :
    (∃ es, BlockTurn s es ∧ s.status.busy = false ∧ t = { s with events := es }) ∨
      (∃ es, BlockTurn s es ∧ s.status.busy = true ∧ blockTurn { s with events := es } = .next t) ∨
      (∃ x es, s.events = .host x :: es ∧ t = transact x { s with events := es }) ∨
      (∃ lost es, s.events = .reset lost :: es ∧ t = resetBlock (loseTransaction lost { s with events := es })) := by
  have turn : ∀ es, BlockTurn s es →
      (∃ es, BlockTurn s es ∧ s.status.busy = false ∧ t = { s with events := es }) ∨
        (∃ es, BlockTurn s es ∧ s.status.busy = true ∧ blockTurn { s with events := es } = .next t) := by
    intro es hes
    rw [step_of_blockTurn hes] at h
    cases hb : s.status.busy
    · rw [blockTurn_idle (s := { s with events := es }) hb] at h
      injection h with h
      exact .inl ⟨es, hes, rfl, h.symm⟩
    · exact .inr ⟨es, hes, rfl, h⟩
  cases he : s.events with
  | nil =>
    rcases turn [] (.inr ⟨he, rfl⟩) with h1 | h1
    · exact .inl h1
    · exact .inr (.inl h1)
  | cons e es =>
    cases e with
    | complete =>
      rcases turn es (.inl he) with h1 | h1
      · exact .inl h1
      · exact .inr (.inl h1)
    | host x =>
      rw [step_host he] at h
      injection h with h
      exact .inr (.inr (.inl ⟨x, es, rfl, h.symm⟩))
    | reset lost =>
      rw [step_reset he] at h
      injection h with h
      exact .inr (.inr (.inr ⟨lost, es, rfl, h.symm⟩))

/-- A reset leaves every register at its reset value whatever transaction is lost with it. -/
theorem resetBlock_loseTransaction (lost : Option Transaction) (s : State) :
    resetBlock (loseTransaction lost s) =
      { State.reset with
        nmax := s.nmax
        epoch := s.epoch + 1
        draws := (loseTransaction lost s).draws
        events := s.events
        rdata := (loseTransaction lost s).rdata } := by
  cases lost with
  | none => rfl
  | some x => cases x <;> rfl

end Sys2Proof.Machine
end

