-- ==== Sys2Proof/Tests/Slice0.lean ====
section
/-! SUPPORT. Tests on fixed values, each expected value taken from spec/95_test_vectors.md or worked out from the rule
named beside it; then one witness for the hypotheses of each statement in Certificates/Slice0/Obligations.lean. -/

namespace Sys2Proof.Tests

open Sys2Proof Sys2Proof.Machine

/-! ### Well-formedness (V-ENC-5, V-ENC-14, V-ENC-18) -/

theorem test_wellFormed_refuses_reserved_bit : wordWellFormed 0x0000000000000040 = false := by decide
theorem test_wellFormed_refuses_reserved_operation : wordWellFormed 0x0000000000000008 = false := by decide
theorem test_wellFormed_refuses_unknown_scheme : wordWellFormed 0x0000000000000021 = false := by decide
theorem test_wellFormed_admits_ignored_scheme : wordWellFormed 0x0000000000000034 = true := by decide

/-! ### Decoding: words written out from 30_encoding.md R81 and R83, RSV then SCHEME then OP -/

/-- RSV 0, SCHEME 11 (ignored), OP 0000 (V-ENC-2). -/
theorem test_decode_nop : decode 0b110000 = .ok .nop := by decide
/-- RSV 0, SCHEME 00, OP 0001 (V-ENC-3). -/
theorem test_decode_modBpsk : decode 0b000001 = .ok .modBpsk := by decide
/-- RSV 0, SCHEME 01, OP 0001 (V-ENC-4). -/
theorem test_decode_modQpsk : decode 0b010001 = .ok .modQpsk := by decide
/-- RSV 0, SCHEME 00, OP 0010. -/
theorem test_decode_awgnBpsk : decode 0b000010 = .ok .awgnBpsk := by decide
/-- RSV 0, SCHEME 01, OP 0010 (V-ENC-7). -/
theorem test_decode_awgnQpsk : decode 0b010010 = .ok .awgnQpsk := by decide
/-- RSV 0, SCHEME 00, OP 0011 (V-ENC-8). -/
theorem test_decode_demodBpsk : decode 0b000011 = .ok .demodBpsk := by decide
/-- RSV 0, SCHEME 01, OP 0011. -/
theorem test_decode_demodQpsk : decode 0b010011 = .ok .demodQpsk := by decide
/-- RSV 0, SCHEME 10 (ignored), OP 0100 (V-ENC-9). -/
theorem test_decode_count : decode 0b100100 = .ok .count := by decide
/-- RSV 0, SCHEME 11 (ignored), OP 0101 (V-ENC-10). -/
theorem test_decode_estimate : decode 0b110101 = .ok .estimate := by decide
/-- RSV 0, SCHEME 00, OP 0110. -/
theorem test_decode_runBpsk : decode 0b000110 = .ok .runBpsk := by decide
/-- RSV 0, SCHEME 01, OP 0110 (V-ENC-11). -/
theorem test_decode_runQpsk : decode 0b010110 = .ok .runQpsk := by decide
/-- RSV 0, SCHEME 01 (ignored), OP 0111 (V-ENC-13). -/
theorem test_decode_clear : decode 0b010111 = .ok .clear := by decide
/-- V-ENC-6 and V-ENC-12. -/
theorem test_decode_unknown_scheme :
    decode 0x0000000000000031 = .error .invalidScheme ∧ decode 0x0000000000000026 = .error .invalidScheme := by decide
/-- V-ENC-14 to V-ENC-21. -/
theorem test_decode_illegal :
    decode 0x0000000000000008 = .error .illegalCommand ∧ decode 0x000000000000000F = .error .illegalCommand ∧
      decode 0x0000000000000028 = .error .illegalCommand ∧ decode 0x000000000000001F = .error .illegalCommand ∧
      decode 0x0000000000000040 = .error .illegalCommand ∧ decode 0x0000000000000061 = .error .illegalCommand ∧
      decode 0x8000000000000001 = .error .illegalCommand ∧ decode 0xFFFFFFFFFFFFFFFF = .error .illegalCommand := by
  decide

/-! ### The states the tests start from -/

/-- Right after reset, with N_MAX = 64 (the convention of spec/95_test_vectors.md). -/
def lab : State := { State.reset with nmax := 64 }

/-- A buffer word written. -/
def put (a : Nat) (v : Word) (s : State) : State := { s with mem := storeBytes s.mem a v 8 }

/-- k bytes of zeros from `a` on. -/
def zeros (a : Nat) : Nat → Memory
  | 0 => []
  | k + 1 => (a, 0) :: zeros (a + 1) k

/-- Zero in the first k words of NOISE, and nothing else written. -/
def zeroNoise (k : Nat) (s : State) : State := { s with mem := zeros 0x4000000 (8 * k) }

/-- A command word in flight. -/
def busyWith (c : Word) (s : State) : State := { s with cur := c, status := { s.status with busy := true } }

/-- What `f` says of the next state, if there is one. -/
def next? {α : Type} (o : Host.Outcome State Fault Refusal) (f : State → α) : Option α :=
  match o with
  | .next t => some (f t)
  | .fault _ => none
  | .refused _ => none

/-- STATUS as the host reads it. -/
def statusOf (s : State) : Word := statusWord s.status

/-- TXB.W[0] = 0xB1, N_BITS = 8 (P1 and P2). -/
def bits8 : State := put 0x1000000 0xB1 { lab with nBits := 8 }

/-! ### Commands -/

/-- V-CTL-1. -/
theorem test_nop_clears_the_error :
    next? (exec .nop { lab with status := { Status.reset with done := true, errCode := some .invalidInput } }) statusOf =
      some 0x002 := by decide

/-- V-MOD-1. -/
theorem test_modBpsk_maps_bits :
    next? (exec .modBpsk (put 0x1000000 0x2 { lab with nBits := 2 }))
        (fun t => (symRe t 0, symIm t 0, symRe t 1, symIm t 1, t.symN, statusOf t)) =
      some (0xBFF0000000000000, 0, 0x3FF0000000000000, 0, 2, 0x002) := by decide

/-- V-MOD-7. -/
theorem test_modBpsk_refuses_negative :
    next? (exec .modBpsk { lab with nBits := 0xFFFFFFFFFFFFFFFF }) (fun t => (t.symN, t.mem, statusOf t)) =
      some (0, [], 0x102) := by decide

/-- V-MOD-4, symbols 1 and 3. -/
theorem test_modQpsk_maps_pairs :
    next? (exec .modQpsk (put 0x1000000 0x4B { lab with nBits := 8 }))
        (fun t => (symRe t 1, symIm t 1, symRe t 3, symIm t 3, t.symN)) =
      some (0xBFE6A09E667F3BCC, 0x3FE6A09E667F3BCC, 0x3FE6A09E667F3BCC, 0xBFE6A09E667F3BCC, 4) := by decide

/-- V-MOD-9. -/
theorem test_modQpsk_refuses_odd :
    next? (exec .modQpsk { lab with nBits := 3 }) (fun t => (t.symN, t.mem, statusOf t)) = some (0, [], 0x102) := by
  decide

/-- V-AWGN-21: the imaginary part is copied without noise. -/
theorem test_awgnBpsk_adds_noise :
    next? (exec .awgnBpsk (put 0x4000000 0x3FE0000000000000 (put 0x8000008 0x3FD0000000000000
        (put 0x8000000 0x3FF0000000000000 { lab with symN := 1 }))))
        (fun t => (rsymRe t 0, rsymIm t 0, t.rsymN, t.sigma, statusOf t)) =
      some (0x3FF5A827999FCEF3, 0x3FD0000000000000, 1, 0x3FE6A09E667F3BCD, 0x002) := by decide +kernel

/-- V-AWGN-6: an infinite deviation. -/
theorem test_awgnBpsk_refuses_infinite_deviation :
    next? (exec .awgnBpsk { lab with symN := 1, snrDb := 0xFFF0000000000000, rsymN := 7 })
        (fun t => (t.rsymN, t.sigma, t.mem, statusOf t)) = some (7, 0, [], 0x102) := by decide +kernel

/-- V-AWGN-12: the I draws come before the Q draws. -/
theorem test_awgnQpsk_planar_draws :
    next? (exec .awgnQpsk (put 0x4000000 0x3FF0000000000000 (put 0x4000008 0xBFF0000000000000
        (put 0x4000010 0x3FE0000000000000 (put 0x4000018 0xBFE0000000000000
        (put 0x8000000 0xBFE6A09E667F3BCC (put 0x8000008 0x3FE6A09E667F3BCC
        (put 0x8000010 0x3FE6A09E667F3BCC (put 0x8000018 0xBFE6A09E667F3BCC
        { lab with symN := 2, snrDb := 0x4024000000000000 })))))))))
        (fun t => (rsymRe t 0, rsymIm t 0, rsymRe t 1, rsymIm t 1, t.sigma)) =
      some (0xBFDEF1A9EA1E80AC, 0x3FEA34831F373987, 0x3FDEF1A9EA1E80AC, 0xBFEA34831F373987, 0x3FCC9F25C5BFEDD9) := by
  decide +kernel

/-- V-AWGN-17: 33 symbols need more draws than NOISE holds. -/
theorem test_awgnQpsk_refuses_long_block :
    next? (exec .awgnQpsk { lab with symN := 33 }) (fun t => (t.mem, statusOf t)) = some ([], 0x102) := by
  decide

/-- V-DEM-10: the other bits of the word are kept. -/
theorem test_demodBpsk_keeps_other_bits :
    next? (exec .demodBpsk (put 0x2000000 0xFFFFFFFFFFFFFFFF (put 0xC000000 0xBFF0000000000000
        (put 0xC000010 0xBFF0000000000000 { lab with rsymN := 2 }))))
        (fun t => (readWord t 0x2000000, t.rxN)) = some (0xFFFFFFFFFFFFFFFC, 2) := by decide

/-- V-DEM-4: zero decides 0. -/
theorem test_demodQpsk_zero_tie :
    next? (exec .demodQpsk (put 0x2000000 0 (put 0xC000000 0 (put 0xC000008 0x3CA0000000000000 { lab with rsymN := 1 }))))
        (fun t => (rxb t 0, rxb t 1, t.rxN)) = some (false, true, 2) := by decide

/-- V-DEM-9. -/
theorem test_demodQpsk_refuses_long_block :
    next? (exec .demodQpsk { lab with rsymN := 33 }) (fun t => (t.rxN, t.mem, statusOf t)) = some (0, [], 0x102) := by
  decide

/-- V-CNT-1. -/
theorem test_count_counts_differences :
    next? (exec .count (put 0x2000000 0xB0 { bits8 with rxN := 8 })) (fun t => (t.errCnt, t.bitCnt, statusOf t)) =
      some (1, 8, 0x002) := by decide

/-- V-CNT-11: LengthMismatch is checked before overflow. -/
theorem test_count_mismatch_before_overflow :
    next? (exec .count { lab with nBits := 8, rxN := 4, bitCnt := 0xFFFFFFFFFFFFFFFE })
        (fun t => (t.errCnt, t.bitCnt, statusOf t)) = some (0, 0xFFFFFFFFFFFFFFFE, 0x306) := by decide

/-- V-EST-9: the exact ratio is rounded once. -/
theorem test_estimate_rounds_once :
    next? (exec .estimate { lab with errCnt := 1, bitCnt := 0x0020000000000001 }) (fun t => t.ber) =
      some 0x3C9FFFFFFFFFFFFF := by decide +kernel

/-- V-EST-10. -/
theorem test_estimate_refuses_no_bits :
    next? (exec .estimate { lab with ber := 0x3FF0000000000000 }) (fun t => (t.ber, statusOf t)) =
      some (0x3FF0000000000000, 0x102) := by decide

/-- P1: TXB.W[0] = 0xB1 (its first two bits), no noise, 0 dB, a stale RX_N. -/
theorem test_runBpsk_noiseless :
    next? (exec .runBpsk (put 0x2000000 0 (put 0x1000000 0xB1 (zeroNoise 2 { lab with nBits := 2, rxN := 3 }))))
        (fun t => (readWord t 0x2000000, t.rxN, t.sigma, t.errCnt, t.bitCnt, t.ber, statusOf t)) =
      some (0x1, 2, 0x3FE6A09E667F3BCD, 0, 2, 0, 0x002) := by decide +kernel

/-- V-CTL-4: nothing is written, although MOD alone would succeed. -/
theorem test_runBpsk_checks_before_writing :
    next? (exec .runBpsk { bits8 with snrDb := 0xFFF0000000000000 }) (fun t => (t.symN, t.mem == bits8.mem, statusOf t)) =
      some (0, true, 0x102) := by decide +kernel

/-- P4, the first run, its symbol 0 alone: the I draw -4.0 makes a bit error, the Q draw 0.25 none. -/
theorem test_runQpsk_one_error :
    next? (exec .runQpsk (put 0x2000000 0 (put 0x4000000 0xC010000000000000 (put 0x4000008 0x3FD0000000000000
        { bits8 with nBits := 2, snrDb := 0x4024000000000000 }))))
        (fun t => (rsymRe t 0, rsymIm t 0, readWord t 0x2000000, t.errCnt, t.ber)) =
      some (0xBFC7FA1D7D02C834, 0xBFE4D6AC0A233CEE, 0, 1, 0x3FE0000000000000) := by decide +kernel

/-- V-CTL-5. -/
theorem test_runQpsk_refuses_odd :
    next? (exec .runQpsk { lab with nBits := 7 }) (fun t => (t.mem, statusOf t)) = some ([], 0x102) := by decide

/-- V-CTL-2. -/
theorem test_clear_zeroes_the_counters :
    next? (exec .clear { lab with errCnt := 5, bitCnt := 64, ber := 0x3FB4000000000000, sigma := 1 })
        (fun t => (t.errCnt, t.bitCnt, t.ber, t.sigma)) = some (0, 0, 0, 1) := by decide

/-! ### The bus, the lifecycle and reset -/

/-- V-REG-2, V-REG-12, V-REG-13: the address map at its edges, N_MAX = 64 (20_memory.md R53, R57). -/
theorem test_locate_edges :
    locate 64 0x0000004 = .misaligned ∧ locate 64 0x0000FF8 = .reserved ∧ locate 64 0x0001000 = .unmapped ∧
      locate 64 0x1000000 = .buffer .txb ∧ locate 64 0x1000008 = .unmapped ∧ locate 64 0xC0003F8 = .buffer .rsym ∧
      locate 64 0xC000400 = .unmapped := by decide

/-- V-REG-4. -/
theorem test_status_write_one_to_clear :
    next? (step { lab with
        events := [.host (.write 0x0000010 0xFFFFFFFFFFFFFFFF)]
        status := { Status.reset with done := true, drop := true, errCode := some .invalidInput } }) statusOf =
      some 0x100 := by decide

/-- V-EXC-4 and V-CNT-5: a command is dropped while FATAL = 1. -/
theorem test_fatal_drops_commands :
    next? (step { lab with
        events := [.host (.write 0x0000018 0)]
        status := { Status.reset with done := true, fatal := true, errCode := some .lengthMismatch } }) statusOf =
      some 0x30E := by decide

/-- V-RST-2: a reset abandons the command in flight. -/
theorem test_reset_abandons :
    next? (step (busyWith 0x6 { bits8 with events := [.reset none] })) (fun t => (t.status, t.nBits, t.mem)) =
      some (Status.reset, 0, []) := by decide

/-- 30_encoding.md R83, 60_exceptions.md R209: a command word placed as the next one completes in the next step. -/
theorem test_withFetchWord_runs :
    next? (step ((bits8).withFetchWord 64 0x11)) (fun t => (t.symN, statusOf t)) = some (4, 0x002) := by decide

/-! ### Witnesses: each shows concrete states and operands that meet all the hypotheses of one statement, clause by clause,
at the ends of the ranges -/

/-- The state an outcome gives, if it gives one. -/
def got (o : Host.Outcome State Fault Refusal) (s : State) : State := (next? o id).getD s

/-- Whether an outcome is a next state. -/
def goesOn (o : Host.Outcome State Fault Refusal) : Bool := (next? o id).isSome

theorem eq_next_got {o : Host.Outcome State Fault Refusal} (s : State) (h : goesOn o = true) : o = .next (got o s) := by
  cases o <;> simp_all [goesOn, got, next?]

theorem lab_capacity : CapacityLegal lab := by unfold CapacityLegal; decide

theorem inBuffer_of (n a : Nat) (r : Region) (h : r.base ≤ a ∧ a < r.base + r.bytes n) : InBuffer n a := ⟨r, h⟩

theorem unmapped_of {n a : Nat} (h : 0x1000 ≤ a)
    (k : ∀ r ∈ [Region.txb, .rxb, .noise, .sym, .rsym], ¬ (r.base ≤ a ∧ a < r.base + r.bytes n)) : Unmapped n a :=
  ⟨h, fun ⟨r, hr⟩ => k r (by cases r <;> decide) hr⟩

theorem witness_DecodeInvertsEncode : Instr.nop.wellFormed = true ∧ Instr.clear.wellFormed = true := by decide

theorem witness_DecodeAgreesWithOpcodeTable :
    (0x30 : Word) &&& rowMask .nop = rowWord .nop ∧ (0x11 : Word) &&& rowMask .modQpsk = rowWord .modQpsk ∧
      8 ≤ (0x8 : Word).toNat % 16 ∧ 8 ≤ (0xFFFFFFFFFFFFFFFF : Word).toNat % 16 := by decide

theorem witness_DecodeIsTheRuleFunction :
    ((0x40 : Word).toNat = 64 ∧ 64 / 64 ≠ 0) ∧ ((0x3F : Word).toNat = 63 ∧ 63 / 64 = 0 ∧ 8 ≤ 63 % 16) ∧
      ((0x8 : Word).toNat = 8 ∧ 8 ≤ 8 % 16) ∧ ((0x30 : Word).toNat = 48 ∧ 48 % 16 = 0) ∧
      ((0x34 : Word).toNat = 52 ∧ 52 % 16 = 4) ∧ ((0x35 : Word).toNat = 53 ∧ 53 % 16 = 5) ∧
      ((0x37 : Word).toNat = 55 ∧ 55 % 16 = 7) ∧ ((0x21 : Word).toNat = 33 ∧ 33 % 16 ∈ [1, 2, 3, 6] ∧ 2 ≤ 33 / 16 % 4) ∧
      ((0x36 : Word).toNat = 54 ∧ 54 % 16 ∈ [1, 2, 3, 6] ∧ 2 ≤ 54 / 16 % 4) ∧
      ((0x1 : Word).toNat = 1 ∧ 1 % 16 = 1 ∧ 1 / 16 % 4 = 0) ∧ ((0x11 : Word).toNat = 17 ∧ 17 % 16 = 1 ∧ 17 / 16 % 4 = 1) ∧
      ((0x2 : Word).toNat = 2 ∧ 2 % 16 = 2 ∧ 2 / 16 % 4 = 0) ∧ ((0x12 : Word).toNat = 18 ∧ 18 % 16 = 2 ∧ 18 / 16 % 4 = 1) ∧
      ((0x3 : Word).toNat = 3 ∧ 3 % 16 = 3 ∧ 3 / 16 % 4 = 0) ∧ ((0x13 : Word).toNat = 19 ∧ 19 % 16 = 3 ∧ 19 / 16 % 4 = 1) ∧
      ((0x6 : Word).toNat = 6 ∧ 6 % 16 = 6 ∧ 6 / 16 % 4 = 0) ∧ ((0x16 : Word).toNat = 22 ∧ 22 % 16 = 6 ∧ 22 / 16 % 4 = 1) := by
  decide

/-- Both forms of the block's turn, and a state with no command in flight. -/
theorem witness_StepRunsDecodedCommand :
    (BlockTurn (busyWith 0x6 lab) [] ∧ (busyWith 0x6 lab).status.busy = true ∧ decode (busyWith 0x6 lab).cur = .ok .runBpsk ∧
      Instr.runBpsk.wellFormed = true) ∧
    (BlockTurn { busyWith 0 lab with events := [.complete, .complete] } [.complete] ∧ decode (busyWith 0 lab).cur = .ok .nop) ∧
    (BlockTurn lab [] ∧ lab.status.busy = false) :=
  ⟨⟨.inr ⟨rfl, rfl⟩, rfl, by decide, rfl⟩, ⟨.inl rfl, by decide⟩, .inr ⟨rfl, rfl⟩, rfl⟩

/-- A write to CMD when idle, while busy, and after a fatal error. -/
theorem witness_CommandAcceptanceOrDrop :
    let s : State := { lab with events := [.host (.write 0x0000018 0x6)] };
    (s.events = .host (.write 0x0000018 0x6) :: [] ∧ s.status.busy = false ∧ s.status.fatal = false) ∧
      (busyWith 0 s).status.busy = true ∧ ({ s with status := { s.status with fatal := true } } : State).status.fatal = true := by
  decide

/-- An error of the command word, and one of its operands. -/
theorem witness_ErrorCompletionChangesOnlyStatus :
    (BlockTurn (busyWith 0x21 lab) [] ∧ (busyWith 0x21 lab).status.busy = true ∧
      step (busyWith 0x21 lab) = .next (got (step (busyWith 0x21 lab)) lab) ∧
      (got (step (busyWith 0x21 lab)) lab).status.errCode = some .invalidScheme) ∧
    (BlockTurn (busyWith 0x5 lab) [] ∧ step (busyWith 0x5 lab) = .next (got (step (busyWith 0x5 lab)) lab) ∧
      (got (step (busyWith 0x5 lab)) lab).status.errCode = some .invalidInput) :=
  ⟨⟨.inr ⟨rfl, rfl⟩, rfl, eq_next_got _ (by decide), by decide⟩,
    .inr ⟨rfl, rfl⟩, eq_next_got _ (by decide), by decide⟩

theorem witness_InvalidSchemeExactly :
    exec .nop lab = .next (retire lab) ∧ BlockTurn (busyWith 0x36 lab) [] ∧ (busyWith 0x36 lab).status.busy = true ∧
      decode (busyWith 0x36 lab).cur = .error .invalidScheme := ⟨rfl, .inr ⟨rfl, rfl⟩, rfl, by decide⟩

theorem witness_IllegalCommandExactly :
    exec .nop lab = .next (retire lab) ∧ BlockTurn (busyWith 0x40 lab) [] ∧ (busyWith 0x40 lab).status.busy = true ∧
      decode (busyWith 0x40 lab).cur = .error .illegalCommand ∧ decode 0x8 = .error .illegalCommand :=
  ⟨rfl, .inr ⟨rfl, rfl⟩, rfl, by decide, by decide⟩

/-- Each kind of check, on either side of its limit: N_BITS 0, 64 and 65, SYM_N 64 and 33, RSYM_N 65, BIT_CNT 0 and the
last sum that fits. -/
theorem witness_InvalidInputExactly :
    (∀ p ∈ [(Instr.modBpsk, { lab with nBits := 0 }), (.modBpsk, { lab with nBits := 64 }), (.modQpsk, { lab with nBits := 65 }),
        (.awgnBpsk, { lab with symN := 64, snrDb := PINF }), (.awgnQpsk, { lab with symN := 33 }),
        (.demodBpsk, { lab with rsymN := 65 }), (.demodQpsk, { lab with rsymN := 32 }), (.estimate, lab), (.clear, lab),
        (.count, { lab with nBits := 1, rxN := 1, bitCnt := 0xFFFFFFFFFFFFFFFE }),
        (.count, { lab with nBits := 2, rxN := 2, bitCnt := 0xFFFFFFFFFFFFFFFE }),
        (.runBpsk, { lab with nBits := 0 }), (.runQpsk, { lab with nBits := 7 })],
      exec p.1 p.2 = .next (got (exec p.1 p.2) lab)) :=
  fun p hp => eq_next_got _ (by
    simp only [List.mem_cons, List.not_mem_nil, or_false] at hp
    rcases hp with h | h | h | h | h | h | h | h | h | h | h | h | h <;> subst h <;> decide)

/-- A mismatch at N_BITS = 1 and at N_BITS = N_MAX, and a COUNT without one. -/
theorem witness_LengthMismatchExactly :
    (∀ s ∈ [{ lab with nBits := 1, rxN := 0 }, { lab with nBits := 64, rxN := 63 }],
      exec .count s = .next (got (exec .count s) lab) ∧ (got (exec .count s) lab).status.errCode = some .lengthMismatch) ∧
    goesOn (exec .count { lab with nBits := 0, rxN := 5 }) = true := by
  refine ⟨fun s hs => ?_, by decide⟩
  simp only [List.mem_cons, List.not_mem_nil, or_false] at hs
  rcases hs with h | h <;> subst h <;> exact ⟨eq_next_got _ (by decide), by decide⟩

/-- FATAL = 1 and a command written. -/
def fatalState : State :=
  { lab with
    events := [.host (.write 0x0000018 0)]
    status := { Status.reset with done := true, fatal := true, errCode := some .lengthMismatch } }

theorem witness_FatalLastsUntilReset :
    fatalState.status.fatal = true ∧ fatalState.status.busy = false ∧ step fatalState = .next (got (step fatalState) lab) ∧
      ∀ lost es, fatalState.events ≠ .reset lost :: es :=
  ⟨rfl, rfl, eq_next_got _ (by decide), fun _ _ h => by simp [fatalState] at h⟩

/-- DROP cleared by the host, and by reset. -/
theorem witness_DropLastsUntilClearedOrReset :
    ∀ e ∈ [Event.host (.write 0x0000010 0x8), .reset none],
      let s : State := { lab with events := [e], status := { Status.reset with drop := true } };
      s.status.drop = true ∧ step s = .next (got (step s) lab) ∧ (got (step s) lab).status.drop = false := by
  intro e he
  simp only [List.mem_cons, List.not_mem_nil, or_false] at he
  rcases he with h | h <;> subst h <;> exact ⟨rfl, eq_next_got _ (by decide), by decide⟩

/-- irq raised by a completion, and by enabling it with DONE = 1. -/
theorem witness_InterruptRisesOnlyByCompletionOrEnable :
    let s : State := busyWith 0 { lab with ie := true };
    let r : State := { lab with events := [.host (.write 0x0000008 1)], status := { Status.reset with done := true } };
    (s.irq = false ∧ BlockTurn s [] ∧ s.status.busy = true ∧ step s = .next (got (step s) lab) ∧
      (got (step s) lab).irq = true) ∧
    (r.irq = false ∧ step r = .next (got (step r) lab) ∧ (got (step r) lab).irq = true) :=
  ⟨⟨rfl, .inr ⟨rfl, rfl⟩, rfl, eq_next_got _ (by decide), by decide⟩,
    rfl, eq_next_got _ (by decide), by decide⟩

/-- With no event pending, and with the host at work. -/
theorem witness_CommandInFlightCompletes :
    (busyWith 0 lab).status.busy = true ∧ (∀ e ∈ (busyWith 0 lab).events, ∀ lost, e ≠ .reset lost) ∧
    (∀ e ∈ [Event.host (.read 0x0000010), .host (.write 0x0000020 5), .complete], ∀ lost, e ≠ .reset lost) :=
  ⟨rfl, by simp [busyWith, lab, State.reset], by simp⟩

theorem witness_IdleLatchNeverShows :
    let s : State := { lab with events := [.host (.write 0x0000018 0x6)] };
    s.status.busy = false ∧ step s = .next (got (step s) lab) ∧ (got (step s) lab).status.busy = true :=
  ⟨rfl, eq_next_got _ (by decide), by decide⟩

theorem witness_InputsFrozenWhileBusy :
    let s : State := busyWith 0 { lab with events := [.host (.write 0x0000020 5)] };
    s.status.busy = true ∧ s.events = .host (.write 0x0000020 5) :: [] ∧ step s = .next (got (step s) lab) :=
  ⟨rfl, rfl, eq_next_got _ (by decide)⟩

theorem witness_ResetEventRestoresRegisters :
    ({ fatalState with events := [.reset (some (.read 0)), .complete] } : State).events =
      .reset (some (.read 0)) :: [.complete] := rfl

/-- The first and the last register. -/
theorem witness_RegisterReadsWhenIdle :
    ∀ p ∈ [((0x0000000 : Addr), (0x41424231 : Word)), (0x0000068, 64)],
      let s : State := { lab with events := [.host (.read p.1)] };
      s.status.busy = false ∧ s.events = .host (.read p.1) :: [] ∧
        p ∈ [((0x0000000 : Addr), (0x0000000041424231 : Word)), (0x0000068, s.nmax)] := by
  intro p hp
  simp only [List.mem_cons, List.not_mem_nil, or_false] at hp
  rcases hp with h | h <;> subst h <;> exact ⟨rfl, rfl, by decide⟩

theorem witness_ControlAndStatusWrites :
    ({ lab with events := [.host (.write 0x0000008 1)] } : State).events = .host (.write 0x0000008 1) :: [] ∧
      ({ lab with events := [.host (.write 0x0000010 0xA)] } : State).events = .host (.write 0x0000010 0xA) :: [] := ⟨rfl, rfl⟩

/-- The first and the last data register, any value. -/
theorem witness_DataRegisterWritesWhenIdle :
    ∀ a ∈ [(0x0000020 : Addr), 0x0000028, 0x0000030, 0x0000038, 0x0000040],
      let s : State := { lab with events := [.host (.write a 0xFFFFFFFFFFFFFFFF)] };
      s.status.busy = false ∧ s.events = .host (.write a 0xFFFFFFFFFFFFFFFF) :: [] := fun _ _ => ⟨rfl, rfl⟩

/-- Misaligned 0x4 and 0xFFFFFFF, reserved 0x70 and 0xFF8, unmapped 0x1000, 0x1000008 and 0xC000400 for N_MAX = 64, and the
read-only registers' ends. -/
theorem witness_DeadLocationsIgnoreWritesReadZero :
    CapacityLegal lab ∧ (0x0000004 : Addr).toNat % 8 ≠ 0 ∧ (0xFFFFFFF : Addr).toNat % 8 ≠ 0 ∧
      (0x70 ≤ (0x0000070 : Addr).toNat ∧ (0x0000FF8 : Addr).toNat < 0x1000) ∧
      Unmapped lab.nMax (0x0001000 : Addr).toNat ∧ Unmapped lab.nMax (0x1000008 : Addr).toNat ∧
      Unmapped lab.nMax (0xC000400 : Addr).toNat ∧
      ({ lab with events := [.host (.write 0x0000068 5)] } : State).events = .host (.write 0x0000068 5) :: [] ∧
      ({ lab with events := [.host (.read 0x0000018)] } : State).events = .host (.read 0x0000018) :: [] :=
  ⟨lab_capacity, by decide, by decide, by decide, unmapped_of (by decide) (by decide), unmapped_of (by decide) (by decide),
    unmapped_of (by decide) (by decide), rfl, rfl⟩

/-- The first word of TXB and the last word of RSYM. -/
theorem witness_BufferWordsAreLittleEndianBytes :
    CapacityLegal lab ∧ lab.status.busy = false ∧
      ((0x1000000 : Addr).toNat % 8 = 0 ∧ InBuffer lab.nMax (0x1000000 : Addr).toNat) ∧
      ((0xC0003F8 : Addr).toNat % 8 = 0 ∧ InBuffer lab.nMax (0xC0003F8 : Addr).toNat) ∧
      ({ lab with events := [.host (.write 0x1000000 1)] } : State).events = .host (.write 0x1000000 1) :: [] ∧
      ({ lab with events := [.host (.read 0xC0003F8)] } : State).events = .host (.read 0xC0003F8) :: [] :=
  ⟨lab_capacity, rfl, ⟨by decide, inBuffer_of _ _ .txb (by decide)⟩, ⟨by decide, inBuffer_of _ _ .rsym (by decide)⟩, rfl, rfl⟩

/-- One word of each buffer, the first or the last for N_MAX = 64. -/
theorem witness_HostWordsAreTheOperands :
    (∀ a ∈ [(0x1000000 : Addr), 0x2000000, 0x40001F8, 0x80003F0, 0x80003F8, 0xC0003F0, 0xC0003F8],
      let s : State := { lab with events := [.host (.write a 7)] };
      CapacityLegal s ∧ s.status.busy = false ∧ s.events = .host (.write a 7) :: [] ∧ step s = .next (got (step s) lab)) ∧
    (0 < lab.nMax / 64 ∧ (0x1000000 : Addr).toNat = 0x1000000 + 8 * 0 ∧ (0x2000000 : Addr).toNat = 0x2000000 + 8 * 0) ∧
    (63 < lab.nMax ∧ (0x40001F8 : Addr).toNat = 0x4000000 + 8 * 63 ∧ (0x80003F0 : Addr).toNat = 0x8000000 + 16 * 63 ∧
      (0x80003F8 : Addr).toNat = 0x8000000 + 16 * 63 + 8 ∧ (0xC0003F0 : Addr).toNat = 0xC000000 + 16 * 63 ∧
      (0xC0003F8 : Addr).toNat = 0xC000000 + 16 * 63 + 8) :=
  ⟨fun _ _ => ⟨lab_capacity, rfl, rfl, eq_next_got _ rfl⟩, by decide, by decide⟩

/-- One address for each clause, at the ends of its range. -/
theorem witness_InputWritesDroppedWhileBusy :
    let s : State := busyWith 0x1 { lab with events := [.host (.write 0x0000018 0)] };
    CapacityLegal s ∧ s.status.busy = true ∧ s.events = .host (.write 0x0000018 0) :: [] ∧
      ((0xC0003F8 : Addr).toNat % 8 = 0 ∧ InBuffer s.nMax (0xC0003F8 : Addr).toNat) ∧
      (0x70 ≤ (0x0000070 : Addr).toNat ∧ (0x0000FFF : Addr).toNat < 0x1000) ∧ Unmapped s.nMax (0x1000008 : Addr).toNat :=
  ⟨lab_capacity, rfl, rfl, ⟨by decide, inBuffer_of _ _ .rsym (by decide)⟩, by decide, unmapped_of (by decide) (by decide)⟩

/-- MOD in flight, SYM_N in its write set and N_BITS outside it; an IllegalCommand in flight (V-REG-20). -/
theorem witness_WriteSetReadsAreFree :
    let s : State := busyWith 0x1 { lab with events := [.host (.read 0x0000030)] };
    s.status.busy = true ∧ s.events = .host (.read 0x0000030) :: [] ∧ decode s.cur = .ok .modBpsk ∧
      locate s.nMax 0x0000030 ∈ [Location.buffer .sym, .reg .symN] ∧
      locate s.nMax 0x0000020 ∉ [Location.buffer .sym, .reg .symN] ∧
      decode (busyWith 0x8 s).cur = .error .illegalCommand :=
  ⟨rfl, rfl, by decide, by decide, by decide, by decide⟩

theorem witness_HostCannotWriteResults :
    let s : State := { lab with events := [.host (.write 0x0000048 5)] };
    s.events = .host (.write 0x0000048 5) :: [] ∧ step s = .next (got (step s) lab) := ⟨rfl, eq_next_got _ rfl⟩

/-- The ends of the table of integers, and a NaN. -/
theorem witness_PowTenRequiredPoints : 0 ≤ 22 ∧ 22 ≤ 22 ∧ isNaN 0x7FF0000000000001 = true := by decide

/-- The smallest and the largest rational, and a rational half way between two binary64 values. -/
theorem witness_RoundingIsNearestTiesToEven :
    (0 < 1 ∧ 0 ≤ 1 * magnitude 0x7FEFFFFFFFFFFFFF ∧ 0x7FEFFFFFFFFFFFFF < 0x7FF0000000000000) ∧
      magnitude 0x7FEFFFFFFFFFFFFF ≤ 1 * magnitude 0x7FEFFFFFFFFFFFFF ∧ (0 < 2 ∧ 1 ≤ 2 * magnitude 0x7FEFFFFFFFFFFFFF) := by
  decide +kernel

/-- The smallest and the largest positive operand. -/
theorem witness_SquareRootIsNearest :
    ∀ x ∈ [(0x0000000000000001 : Word), 0x7FEFFFFFFFFFFFFF], isFinite x = true ∧ signBit x = false ∧ isZero x = false ∧
      0x7FEFFFFFFFFFFFFF < 0x7FF0000000000000 := by
  intro x hx
  simp only [List.mem_cons, List.not_mem_nil, or_false] at hx
  rcases hx with h | h <;> subst h <;> decide

/-- A NaN from each operation. -/
theorem witness_NaNResultsTakeTheFreePattern :
    isNaN (add64 (quietNaN 0) PINF 0xFFF0000000000000) = true ∧ isNaN (mul64 (quietNaN 0) PINF 0) = true ∧
      isNaN (div64 (quietNaN 0) 0 0) = true ∧ isNaN (sqrt64 (quietNaN 0) MONE) = true := by decide

theorem witness_DeviationFormulasAgree :
    0x0010000000000000 ≤ (0x0010000000000000 : Word).toNat ∧ (0x7FC0000000000000 : Word).toNat ≤ 0x7FC0000000000000 := by
  decide

theorem witness_SpecialSnrValues :
    ({ lab with snrDb := 0xFFF0000000000000 } : State).snrDb = 0xFFF0000000000000 ∧
      isNaN ({ lab with snrDb := 0x7FF0000000000001 } : State).snrDb = true ∧
      (isFinite 0x7FEFFFFFFFFFFFFF = true ∧ isNaN PINF = false ∧ isZero PINF = false) := by decide

/-- The least and the greatest ratio of one bit. -/
theorem witness_EstimateRange :
    ∀ s ∈ [{ lab with errCnt := 0, bitCnt := 1 }, { lab with errCnt := 1, bitCnt := 1 }],
      CountersOrdered s ∧ Succeeds .estimate s (retire (estimateBody s)) := by
  intro s hs
  simp only [List.mem_cons, List.not_mem_nil, or_false] at hs
  rcases hs with h | h <;> subst h <;>
    exact ⟨by unfold CountersOrdered; decide, succeeds_iff.mpr ⟨_, estimateRule_ok.mpr ⟨by decide, rfl⟩, rfl⟩⟩

/-- One bit, and N_MAX of them. -/
theorem witness_ModBpskCompletes :
    ∀ n ∈ [1, 64], let s : State := { lab with nBits := BitVec.ofNat 64 n };
      s64 s.nBits = n ∧ 1 ≤ n ∧ n ≤ s.nMax := by decide

/-- One pair, and N_MAX bits. -/
theorem witness_ModQpskCompletes :
    ∀ n ∈ [2, 64], let s : State := { lab with nBits := BitVec.ofNat 64 n };
      s64 s.nBits = n ∧ 1 ≤ n ∧ n ≤ s.nMax ∧ n % 2 = 0 := by decide

/-- The deviations at 0 dB and in the noiseless limit are finite. -/
theorem deviations_finite :
    isFinite (sigmaBpsk 0 0) = true ∧ isFinite (sigmaBpsk 0 PINF) = true ∧ isFinite (sigmaQpsk 0 0) = true ∧
      isFinite (sigmaQpsk 0 PINF) = true := by decide +kernel

/-- One symbol and N_MAX of them, at 0 dB and in the noiseless limit. -/
theorem witness_AwgnBpskCompletes :
    (∀ n ∈ [1, 64], u64 ({ lab with symN := BitVec.ofNat 64 n } : State).symN = n ∧ 1 ≤ n ∧ n ≤ lab.nMax) ∧
      isFinite (sigmaBpsk 0 0) = true ∧ isFinite (sigmaBpsk 0 PINF) = true :=
  ⟨by decide, deviations_finite.1, deviations_finite.2.1⟩

/-- One symbol and N_MAX / 2 of them, at 0 dB and in the noiseless limit. -/
theorem witness_AwgnQpskCompletes :
    (∀ n ∈ [1, 32], u64 ({ lab with symN := BitVec.ofNat 64 n } : State).symN = n ∧ 1 ≤ n ∧ n ≤ lab.nMax / 2) ∧
      isFinite (sigmaQpsk 0 0) = true ∧ isFinite (sigmaQpsk 0 PINF) = true :=
  ⟨by decide, deviations_finite.2.2.1, deviations_finite.2.2.2⟩

theorem witness_DemodBpskCompletes :
    ∀ n ∈ [1, 64], u64 ({ lab with rsymN := BitVec.ofNat 64 n } : State).rsymN = n ∧ 1 ≤ n ∧ n ≤ lab.nMax := by decide

theorem witness_DemodQpskCompletes :
    ∀ n ∈ [1, 32], u64 ({ lab with rsymN := BitVec.ofNat 64 n } : State).rsymN = n ∧ 1 ≤ n ∧ n ≤ lab.nMax / 2 := by decide

/-- One bit, and N_MAX bits whose sum is the last that fits (V-CNT-10). -/
theorem witness_CountCompletes :
    (let s : State := { lab with nBits := 1, rxN := 1 };
      s64 s.nBits = 1 ∧ 1 ≤ s.nMax ∧ u64 s.rxN = 1 ∧ u64 s.bitCnt + 1 ≤ 2 ^ 64 - 1 ∧ CountersOrdered s) ∧
    (let s : State := { lab with nBits := 64, rxN := 64, bitCnt := 0xFFFFFFFFFFFFFFBF };
      s64 s.nBits = 64 ∧ 64 ≤ s.nMax ∧ u64 s.rxN = 64 ∧ u64 s.bitCnt + 64 ≤ 2 ^ 64 - 1 ∧ CountersOrdered s) := by
  unfold CountersOrdered; decide

theorem witness_EstimateCompletes : u64 ({ lab with bitCnt := 1 } : State).bitCnt ≠ 0 := by decide

/-- One bit, and N_MAX bits whose sum is the last that fits. -/
theorem witness_RunBpskCompletes :
    (let s : State := { lab with nBits := 1 };
      CapacityLegal s ∧ CountersOrdered s ∧ s64 s.nBits = 1 ∧ 1 ≤ s.nMax ∧ u64 s.bitCnt + 1 ≤ 2 ^ 64 - 1 ∧
        isFinite (sigmaBpsk s.draws s.snrDb) = true) ∧
    (let s : State := { lab with nBits := 64, bitCnt := 0xFFFFFFFFFFFFFFBF, snrDb := PINF };
      CapacityLegal s ∧ CountersOrdered s ∧ s64 s.nBits = 64 ∧ 64 ≤ s.nMax ∧ u64 s.bitCnt + 64 ≤ 2 ^ 64 - 1 ∧
        isFinite (sigmaBpsk s.draws s.snrDb) = true) := by
  unfold CapacityLegal CountersOrdered
  exact ⟨⟨by decide, by decide, by decide, by decide, by decide, deviations_finite.1⟩,
    by decide, by decide, by decide, by decide, by decide, deviations_finite.2.1⟩

/-- One pair, and N_MAX bits whose sum is the last that fits. -/
theorem witness_RunQpskCompletes :
    (let s : State := { lab with nBits := 2 };
      CapacityLegal s ∧ CountersOrdered s ∧ s64 s.nBits = 2 ∧ 2 ≤ s.nMax ∧ 2 % 2 = 0 ∧ u64 s.bitCnt + 2 ≤ 2 ^ 64 - 1 ∧
        isFinite (sigmaQpsk s.draws s.snrDb) = true) ∧
    (let s : State := { lab with nBits := 64, bitCnt := 0xFFFFFFFFFFFFFFBF, snrDb := PINF };
      CapacityLegal s ∧ CountersOrdered s ∧ s64 s.nBits = 64 ∧ 64 ≤ s.nMax ∧ 64 % 2 = 0 ∧ u64 s.bitCnt + 64 ≤ 2 ^ 64 - 1 ∧
        isFinite (sigmaQpsk s.draws s.snrDb) = true) := by
  unfold CapacityLegal CountersOrdered
  exact ⟨⟨by decide, by decide, by decide, by decide, by decide, by decide, deviations_finite.2.2.1⟩,
    by decide, by decide, by decide, by decide, by decide, by decide, deviations_finite.2.2.2⟩

/-- A RUN that succeeds and one that fails, for each scheme. -/
theorem witness_RunIsTheFiveCommands :
    let s : State := { lab with nBits := 2 };
    let r : State := { lab with nBits := 2, snrDb := 0xFFF0000000000000 };
    (Succeeds .runBpsk s (retire (runBpskBody (sigmaBpsk s.draws s.snrDb) (bitCount s).toNat s)) ∧ Fails .runBpsk r .invalidInput) ∧
    (Succeeds .runQpsk s (retire (runQpskBody (sigmaQpsk s.draws s.snrDb) (bitCount s).toNat s)) ∧ Fails .runQpsk r .invalidInput) :=
  ⟨⟨succeeds_iff.mpr ⟨_, runBpskRule_ok.mpr ⟨by decide, deviations_finite.1, by decide, rfl⟩, rfl⟩,
      got (exec .runBpsk { lab with nBits := 2, snrDb := 0xFFF0000000000000 }) lab,
      eq_next_got _ (by decide +kernel), by decide +kernel⟩,
    succeeds_iff.mpr ⟨_, runQpskRule_ok.mpr ⟨by decide, deviations_finite.2.2.1, by decide, rfl⟩, rfl⟩,
      got (exec .runQpsk { lab with nBits := 2, snrDb := 0xFFF0000000000000 }) lab,
      eq_next_got _ (by decide), by decide⟩

theorem lookup_zeros (a k i : Nat) (h : i < k) : lookupByte (zeros a k) (a + i) = some 0 := by
  induction k generalizing a i with
  | zero => omega
  | succ k ih =>
    cases i with
    | zero => simp [zeros, lookupByte]
    | succ i =>
      have := ih (a + 1) i (by omega)
      rw [show a + (i + 1) = a + 1 + i by omega]
      rw [zeros, lookupByte, if_neg (show ¬ a = a + 1 + i by omega)]
      exact this

theorem noise_zeroNoise (k j : Nat) (s : State) (h : j < k) : noise (zeroNoise k s) j = 0 := by
  have hb : ∀ i, i < 8 → readByte (zeroNoise k s) (noiseAddr j + i) = 0 := fun i hi => by
    unfold readByte
    rw [zeroNoise, noiseAddr, noiseBase, Nat.add_assoc, lookup_zeros _ _ _ (by omega)]
    rfl
  have h0 := hb 0 (by omega)
  rw [Nat.add_zero] at h0
  rw [noise, readWord, h0, hb 1 (by omega), hb 2 (by omega), hb 3 (by omega), hb 4 (by omega), hb 5 (by omega),
    hb 6 (by omega), hb 7 (by omega)]
  decide

/-- No noise at 0 dB over one bit and over N_MAX bits, and finite noise in the noiseless limit. -/
theorem witness_NoiselessRoundTrip :
    (∀ n ∈ [1, 64], let s : State := zeroNoise n { lab with nBits := BitVec.ofNat 64 n };
      (CapacityLegal s ∧ s64 s.nBits = n ∧ 1 ≤ n ∧ n ≤ s.nMax ∧ isFinite (sigmaBpsk s.draws s.snrDb) = true ∧
        isFinite (sigmaQpsk s.draws s.snrDb) = true) ∧ ∀ j, j < n → isZero (noise s j) = true) ∧
    (let s : State := put 0x4000008 0x7FEFFFFFFFFFFFFF (put 0x4000000 ONE { lab with nBits := 2, snrDb := PINF });
      CapacityLegal s ∧ s64 s.nBits = 2 ∧ 2 ≤ s.nMax ∧ 2 % 2 = 0 ∧ s.snrDb = 0x7FF0000000000000 ∧
        ∀ j, j < 2 → isFinite (noise s j) = true) := by
  refine ⟨fun n hn => ⟨?_, fun j hj => by rw [noise_zeroNoise n j _ hj]; rfl⟩, ?_⟩
  · simp only [List.mem_cons, List.not_mem_nil, or_false] at hn
    rcases hn with h | h <;> subst h <;>
      exact ⟨lab_capacity, by decide, by decide, by decide, deviations_finite.1, deviations_finite.2.2.1⟩
  · unfold CapacityLegal; decide

/-- The same word in both bit buffers. -/
def equalBits : State := put 0x2000000 0xB1 (put 0x1000000 0xB1 lab)

/-- One bit, and N_MAX bits, equal in both buffers. -/
theorem witness_IdentityLaw :
    ∀ n ∈ [1, 64], let s : State := { equalBits with nBits := BitVec.ofNat 64 n, rxN := BitVec.ofNat 64 n };
      (s64 s.nBits = n ∧ 1 ≤ n ∧ n ≤ s.nMax ∧ u64 s.rxN = n) ∧ ∀ i, i < n → rxb s i = txb s i := by
  intro n hn
  have hw : ∀ r : Word, readWord { equalBits with nBits := r, rxN := r } 0x2000000 =
      readWord { equalBits with nBits := r, rxN := r } 0x1000000 := fun r => by
    show readWord equalBits 0x2000000 = readWord equalBits 0x1000000
    decide
  have hl : n ≤ 64 := by simp only [List.mem_cons, List.not_mem_nil, or_false] at hn; omega
  refine ⟨?_, fun i hi => ?_⟩
  · simp only [List.mem_cons, List.not_mem_nil, or_false] at hn
    rcases hn with h | h <;> subst h <;> decide
  · have : i / 64 = 0 := by omega
    simp only [rxb, txb, bitAt, bitWordAddr, this, rxbBase, txbBase, Nat.mul_zero, Nat.add_zero]
    rw [hw]

/-- A state with written memory and MOD.BPSK in flight, which meets every invariant and steps on. -/
def running : State := busyWith 0x1 { bits8 with errCnt := 1, bitCnt := 1, ber := ONE, sigma := ONE }

theorem running_steps : step running = .next (got (step running) lab) := eq_next_got _ (by decide)

theorem witness_CapacityNeverChanges : step running = .next (got (step running) lab) := running_steps

theorem witness_StepKeepsMemoryCanonical :
    Memory.wf running.mem = true ∧ step running = .next (got (step running) lab) := ⟨by decide, running_steps⟩

theorem witness_StepKeepsBuffersMapped :
    CapacityLegal running ∧ BuffersMapped running ∧ step running = .next (got (step running) lab) := by
  refine ⟨lab_capacity, fun c hc => inBuffer_of _ _ .txb ?_, running_steps⟩
  have h : ∀ c ∈ running.mem, Region.txb.base ≤ c.1 ∧ c.1 < Region.txb.base + Region.txb.bytes running.nMax := by
    decide
  exact h c hc

theorem witness_StepKeepsHandshakeSound :
    (HandshakeSound running ∧ step running = .next (got (step running) lab)) ∧ HandshakeSound fatalState := by
  refine ⟨⟨?_, running_steps⟩, ?_⟩ <;> (unfold HandshakeSound; decide)

theorem witness_StepKeepsCountersOrdered : CountersOrdered running ∧ step running = .next (got (step running) lab) :=
  ⟨by unfold CountersOrdered; decide, running_steps⟩

theorem witness_StepKeepsResultsInRange :
    CountersOrdered running ∧ RateInRange running ∧ DeviationFinite running ∧
      step running = .next (got (step running) lab) :=
  ⟨by unfold CountersOrdered; decide, by unfold RateInRange; decide, by unfold DeviationFinite; decide, running_steps⟩

end Sys2Proof.Tests
end

section
/-! Host writes to the registers, and the writes to CTRL and STATUS (10_state.md R23, R25). -/

namespace Sys2Proof.Machine

/-- A host write to a register's address is that register's write, whatever the capacity and whatever is in flight. -/
theorem hostWrite_of_reg {a : Addr} {r : Reg} (ha : a.toNat % 8 = 0) (hlt : a.toNat < 0x1000)
    (hr : regAt a.toNat = .reg r) (v : Word) (s : State) : hostWrite a v s = writeReg s v r := by
  rw [hostWrite, locate_reg ha hlt, hr]

/-- A step whose next event is a host write to a register's address. -/
theorem step_write_reg {s : State} {es : List Event} {a : Addr} {r : Reg} {v : Word}
    (h : s.events = .host (.write a v) :: es) (ha : a.toNat % 8 = 0) (hlt : a.toNat < 0x1000)
    (hr : regAt a.toNat = .reg r) : step s = .next (writeReg { s with events := es } v r) := by
  rw [step_host h, transact, hostWrite_of_reg ha hlt hr]

/-- Writing 1 to clear, as a mask of the two flags instead of a choice. -/
theorem Status.writeOneToClear_eq_mask (st : Status) (v : Word) :
    st.writeOneToClear v =
      { st with done := st.done && !v.getLsbD 1, drop := st.drop && !v.getLsbD 3 } := by
  have clear : ∀ b c : Bool, (if c then false else b) = (b && !c) := by decide
  rw [Status.writeOneToClear, clear, clear]

/-- Settles O23: neither register's write looks at BUSY, so the step is the register's own write. -/
theorem controlAndStatusWrites : Obligations.ControlAndStatusWrites := by
  intro s es v
  constructor
  · intro hctrl
    exact step_write_reg (r := .ctrl) hctrl (by decide) (by decide) rfl
  · intro hstatus
    rw [step_write_reg (r := .status) hstatus (by decide) (by decide) rfl, writeReg,
      Status.writeOneToClear_eq_mask]

end Sys2Proof.Machine
end

section
/-! Host transactions at the locations that ignore them, at the input registers and at the buffer words
(20_memory.md R52, R54 to R57, R65). -/

namespace Sys2Proof.Machine

/-! ### Locations by what a transaction does there -/

/-- The locations that hold nothing (20_memory.md R52, R57; 10_state.md R37). -/
def deadLocations : List Location := [.misaligned, .reserved, .unmapped]

/-- The registers that ignore every host write (10_state.md R22, R38). -/
def readOnlyRegs : List Reg := [.id, .sigma, .errCnt, .bitCnt, .ber, .nmax]

/-- The registers whose host writes are dropped while BUSY = 1 (20_memory.md R65). -/
def inputRegs : List Reg := [.cmd, .nBits, .snrDb, .symN, .rsymN, .rxN]

/-- Misaligned, reserved and unmapped addresses name dead locations, whatever the capacity. -/
theorem locate_mem_deadLocations {n : Nat} {a : Addr}
    (h : a.toNat % 8 ≠ 0 ∨ (0x70 ≤ a.toNat ∧ a.toNat < 0x1000) ∨ Unmapped n a.toNat) :
    locate n a ∈ deadLocations := by
  by_cases halign : a.toNat % 8 = 0
  · rcases h with hmis | ⟨hlo, hhi⟩ | hun
    · exact absurd halign hmis
    · rw [locate_reg halign hhi, regAt_reserved hlo]; decide
    · rw [locate_unmapped halign hun]; decide
  · rw [locate_misaligned halign]; decide

theorem locate_readOnly {n : Nat} {a : Addr}
    (h : a ∈ [(0x0000000 : Addr), 0x0000048, 0x0000050, 0x0000058, 0x0000060, 0x0000068]) :
    ∃ r ∈ readOnlyRegs, locate n a = .reg r := by
  simp only [List.mem_cons, List.not_mem_nil, or_false] at h
  rcases h with rfl | rfl | rfl | rfl | rfl | rfl
  · exact ⟨.id, by decide, rfl⟩
  · exact ⟨.sigma, by decide, rfl⟩
  · exact ⟨.errCnt, by decide, rfl⟩
  · exact ⟨.bitCnt, by decide, rfl⟩
  · exact ⟨.ber, by decide, rfl⟩
  · exact ⟨.nmax, by decide, rfl⟩

theorem locate_input {n : Nat} {a : Addr}
    (h : a ∈ [(0x0000018 : Addr), 0x0000020, 0x0000028, 0x0000030, 0x0000038, 0x0000040]) :
    ∃ r ∈ inputRegs, locate n a = .reg r := by
  simp only [List.mem_cons, List.not_mem_nil, or_false] at h
  rcases h with rfl | rfl | rfl | rfl | rfl | rfl
  · exact ⟨.cmd, by decide, rfl⟩
  · exact ⟨.nBits, by decide, rfl⟩
  · exact ⟨.snrDb, by decide, rfl⟩
  · exact ⟨.symN, by decide, rfl⟩
  · exact ⟨.rsymN, by decide, rfl⟩
  · exact ⟨.rxN, by decide, rfl⟩

theorem locate_of_inBuffer {s : State} {a : Addr} (hcap : CapacityLegal s) (halign : a.toNat % 8 = 0)
    (hin : InBuffer s.nMax a.toNat) : ∃ r, locate s.nMax a = .buffer r := by
  obtain ⟨r, hlo, hhi⟩ := hin
  obtain ⟨_, _, hmax⟩ := hcap
  exact ⟨r, locate_buffer hmax halign hlo hhi⟩

/-! ### Writes -/

theorem unlessBusy_busy {s : State} (h : s.status.busy = true) (t : State) : unlessBusy s t = dropWrite s :=
  if_pos h

theorem unlessBusy_idle {s : State} (h : s.status.busy = false) (t : State) : unlessBusy s t = t := by
  rw [unlessBusy, h]; rfl

theorem submit_busy {s : State} (h : s.status.busy = true) (c : Word) : submit c s = dropWrite s := by
  rw [submit, h]; rfl

theorem writeReg_readOnly (s : State) (v : Word) : ∀ r ∈ readOnlyRegs, writeReg s v r = s := by
  simp [readOnlyRegs, writeReg]

theorem writeReg_input_busy {s : State} (h : s.status.busy = true) (v : Word) :
    ∀ r ∈ inputRegs, writeReg s v r = dropWrite s := by
  simp [inputRegs, writeReg, submit_busy h, unlessBusy_busy h]

theorem hostWrite_dead {a : Addr} {s : State} (h : locate s.nMax a ∈ deadLocations) (v : Word) :
    hostWrite a v s = s := by
  simp only [deadLocations, List.mem_cons, List.not_mem_nil, or_false] at h
  rcases h with h | h | h <;> rw [hostWrite, h]

theorem hostWrite_reg {a : Addr} {s : State} {r : Reg} (h : locate s.nMax a = .reg r) (v : Word) :
    hostWrite a v s = writeReg s v r := by
  rw [hostWrite, h]

theorem hostWrite_buffer {a : Addr} {s : State} {r : Region} (h : locate s.nMax a = .buffer r) (v : Word) :
    hostWrite a v s = unlessBusy s (writeWord s a.toNat v) := by
  rw [hostWrite, h]

/-- Dead locations and read-only registers ignore a write, DROP included, whether or not BUSY = 1. -/
theorem hostWrite_ignored {a : Addr} {s : State}
    (h : locate s.nMax a ∈ deadLocations ∨ ∃ r ∈ readOnlyRegs, locate s.nMax a = .reg r) (v : Word) :
    hostWrite a v s = s := by
  rcases h with hdead | ⟨r, hr, hloc⟩
  · exact hostWrite_dead hdead v
  · rw [hostWrite_reg hloc, writeReg_readOnly s v r hr]

/-- While BUSY = 1 a write to an input register or a buffer word only sets DROP (20_memory.md R65). -/
theorem hostWrite_dropped {a : Addr} {s : State} (hbusy : s.status.busy = true)
    (h : (∃ r ∈ inputRegs, locate s.nMax a = .reg r) ∨ ∃ r, locate s.nMax a = .buffer r) (v : Word) :
    hostWrite a v s = dropWrite s := by
  rcases h with ⟨r, hr, hloc⟩ | ⟨r, hloc⟩
  · rw [hostWrite_reg hloc, writeReg_input_busy hbusy v r hr]
  · rw [hostWrite_buffer hloc, unlessBusy_busy hbusy]

theorem readWord_hostWrite_buffer {a : Addr} {s : State} {r : Region} (hidle : s.status.busy = false)
    (h : locate s.nMax a = .buffer r) (v : Word) : readWord (hostWrite a v s) a.toNat = v := by
  rw [hostWrite_buffer h, unlessBusy_idle hidle, readWord_writeWord_same]

theorem step_write_ignored {s : State} {es : List Event} {a : Addr} {v : Word}
    (h : s.events = .host (.write a v) :: es)
    (hloc : locate s.nMax a ∈ deadLocations ∨ ∃ r ∈ readOnlyRegs, locate s.nMax a = .reg r) :
    step s = .next { s with events := es } := by
  rw [step_host h, transact, hostWrite_ignored (s := { s with events := es }) hloc]

theorem step_write_dropped {s : State} {es : List Event} {a : Addr} {v : Word}
    (h : s.events = .host (.write a v) :: es) (hbusy : s.status.busy = true)
    (hloc : (∃ r ∈ inputRegs, locate s.nMax a = .reg r) ∨ ∃ r, locate s.nMax a = .buffer r) :
    step s = .next (dropWrite { s with events := es }) := by
  rw [step_host h, transact, hostWrite_dropped (s := { s with events := es }) hbusy hloc]

/-- The word a host write leaves in a buffer, by its offset in that buffer. -/
theorem readWord_of_step_write {s t : State} {es : List Event} {a : Addr} {v : Word} (hcap : CapacityLegal s)
    (hidle : s.status.busy = false) (h : s.events = .host (.write a v) :: es) (ht : step s = .next t)
    (r : Region) (offset : Nat) (ha : a.toNat = r.base + offset) (halign : a.toNat % 8 = 0)
    (hoffset : offset < r.bytes s.nMax) : readWord t (r.base + offset) = v := by
  obtain ⟨_, hloc⟩ := locate_of_inBuffer hcap halign ⟨r, by omega, by omega⟩
  rw [step_host h, transact] at ht
  injection ht with ht
  rw [← ht, ← ha, readWord_hostWrite_buffer (s := { s with events := es }) hidle hloc]

/-- Bit i of word w of a bit buffer (20_memory.md R54). -/
theorem bitAt_word (s : State) (base w : Nat) {i : Nat} (hi : i < 64) :
    bitAt s base (64 * w + i) = (readWord s (base + 8 * w)).getLsbD i := by
  rw [bitAt, bitWordAddr, show (64 * w + i) / 64 = w by omega, show (64 * w + i) % 64 = i by omega]

/-! ### Reads -/

/-- No command's write set holds CMD or a dead location (20_memory.md R66). -/
theorem inFlightWriteSet_cmd_or_dead (c : Word) {loc : Location} (h : loc ∈ .reg .cmd :: deadLocations) :
    inFlightWriteSet c loc = false := by
  have rows : ∀ i : Instr, ∀ loc ∈ .reg .cmd :: deadLocations, writeSet i loc = false := by
    intro i
    cases i <;> decide
  rw [inFlightWriteSet]
  split
  · exact rows _ loc h
  · rfl

theorem readLocation_cmd_or_dead (s : State) (a : Addr) :
    ∀ loc ∈ .reg .cmd :: deadLocations, readLocation s a loc = 0 := by
  simp [deadLocations, readLocation, readReg]

theorem hostRead_cmd_or_dead {a : Addr} {s : State} (h : locate s.nMax a ∈ .reg .cmd :: deadLocations) :
    hostRead a s = { s with rdata := 0 } := by
  rw [hostRead, inFlightWriteSet_cmd_or_dead _ h, Bool.and_false, readLocation_cmd_or_dead s a _ h]
  rfl

/-! ### The statements -/

/-- Settles O25: the address map sends each such address to a dead location, a read-only register or CMD, and no write
set holds one of those, so BUSY plays no part. -/
theorem deadLocationsIgnoreWritesReadZero : Obligations.DeadLocationsIgnoreWritesReadZero := by
  intro s es a _
  constructor
  · intro ha v h
    refine step_write_ignored h ?_
    rcases ha with hmis | hres | hun | hro
    · exact .inl (locate_mem_deadLocations (.inl hmis))
    · exact .inl (locate_mem_deadLocations (.inr (.inl hres)))
    · exact .inl (locate_mem_deadLocations (.inr (.inr hun)))
    · exact .inr (locate_readOnly hro)
  · intro ha h
    have hloc : locate s.nMax a ∈ .reg .cmd :: deadLocations := by
      rcases ha with hmis | hres | hun | rfl
      · exact .tail _ (locate_mem_deadLocations (.inl hmis))
      · exact .tail _ (locate_mem_deadLocations (.inr (.inl hres)))
      · exact .tail _ (locate_mem_deadLocations (.inr (.inr hun)))
      · exact .head _
    rw [step_host h, transact, hostRead_cmd_or_dead (s := { s with events := es }) hloc]

/-- Settles O27: each operand is a word at an offset of its buffer, and the write leaves `v` there. -/
theorem hostWordsAreTheOperands : Obligations.HostWordsAreTheOperands := by
  intro s t es a v hcap hidle h ht
  have written := readWord_of_step_write hcap hidle h ht
  refine ⟨?txbWord, ?rxbWord, ?noiseWord, ?symRe, ?symIm, ?rsymRe, ?rsymIm⟩
  case txbWord =>
    intro w hw ha i hi
    rw [txb, bitAt_word t txbBase w hi]
    exact congrArg (·.getLsbD i) (written .txb (8 * w) ha (by omega) (by rw [Region.bytes]; omega))
  case rxbWord =>
    intro w hw ha i hi
    rw [rxb, bitAt_word t rxbBase w hi]
    exact congrArg (·.getLsbD i) (written .rxb (8 * w) ha (by omega) (by rw [Region.bytes]; omega))
  case noiseWord =>
    intro j hj ha
    exact written .noise (8 * j) ha (by omega) (by rw [Region.bytes]; omega)
  case symRe =>
    intro k hk ha
    exact written .sym (16 * k) ha (by omega) (by rw [Region.bytes]; omega)
  case symIm =>
    intro k hk ha
    rw [symIm, imAddr, Nat.add_assoc]
    exact written .sym (16 * k + 8) ha (by omega) (by rw [Region.bytes]; omega)
  case rsymRe =>
    intro k hk ha
    exact written .rsym (16 * k) ha (by omega) (by rw [Region.bytes]; omega)
  case rsymIm =>
    intro k hk ha
    rw [rsymIm, imAddr, Nat.add_assoc]
    exact written .rsym (16 * k + 8) ha (by omega) (by rw [Region.bytes]; omega)

/-- Settles O28: an address class either names input locations, whose writes are dropped, or ignores writes; CTRL and
STATUS never look at BUSY (`controlAndStatusWrites`). -/
theorem inputWritesDroppedWhileBusy : Obligations.InputWritesDroppedWhileBusy := by
  intro s es a v hcap hbusy h
  refine ⟨?dropped, ?ctrl, ?status, ?ignored⟩
  case dropped =>
    rintro (hin | ⟨halign, hbuf⟩)
    · exact step_write_dropped h hbusy (.inl (locate_input hin))
    · exact step_write_dropped h hbusy (.inr (locate_of_inBuffer hcap halign hbuf))
  case ctrl =>
    rintro rfl
    exact (controlAndStatusWrites s es v).1 h
  case status =>
    rintro rfl
    exact (controlAndStatusWrites s es v).2 h
  case ignored =>
    rintro (hro | hres | hun)
    · exact step_write_ignored h (.inr (locate_readOnly hro))
    · exact step_write_ignored h (.inl (locate_mem_deadLocations (.inr (.inl hres))))
    · exact step_write_ignored h (.inl (locate_mem_deadLocations (.inr (.inr hun))))

end Sys2Proof.Machine
end

section
/-! The decode rule of 30_encoding.md (R84): what a word with RSV 0 and an assigned OP decodes to, read off the
command's own fields (`opOf`, `schemeOf`), and the clauses of the rule as its uses. -/

namespace Sys2Proof

/-- A word with a command's OP, and its SCHEME where the operation depends on it, is that command: NOP, COUNT, ESTIMATE
and CLEAR ask nothing of SCHEME (30_encoding.md R87). -/
theorem decode_of_fields {c : Word} (i : Instr) (hrsv : c.toNat / 64 = 0) (hop : c.toNat % 16 = (opOf i).toNat)
    (hscheme : ∀ sch, schemeOf i = some sch → c.toNat / 16 % 4 = (schemeBits (some sch)).toNat) : decode c = .ok i := by
  rw [decode, if_neg (not_not.mpr ((rsvField_eq_zero c).mpr hrsv)), opField_toNat, hop]
  cases i
  case nop | count | estimate | clear => rfl
  case modBpsk | awgnBpsk | demodBpsk | runBpsk =>
    have bpsk : schemeField c = 0 := (schemeField_eq c 0).mpr (hscheme .bpsk rfl)
    rw [bpsk]; rfl
  case modQpsk | awgnQpsk | demodQpsk | runQpsk =>
    have qpsk : schemeField c = 1 := (schemeField_eq c 1).mpr (hscheme .qpsk rfl)
    rw [qpsk]; rfl

/-- SCHEME 2 and 3 name no scheme (30_encoding.md R82). -/
theorem byScheme_of_unrecognised {c : Word} (h : 2 ≤ c.toNat / 16 % 4) (bpsk qpsk : Instr) :
    byScheme (schemeField c) bpsk qpsk = .error .invalidScheme := by
  rw [byScheme_eq, if_neg (by omega), if_neg (by omega)]

/-- A scheme-dependent operation with an unrecognised SCHEME is no command. -/
theorem decode_of_unrecognisedScheme {c : Word} (hrsv : c.toNat / 64 = 0) (hop : c.toNat % 16 ∈ [1, 2, 3, 6])
    (hscheme : 2 ≤ c.toNat / 16 % 4) : decode c = .error .invalidScheme := by
  have unrecognised := byScheme_of_unrecognised hscheme
  rw [decode, if_neg (not_not.mpr ((rsvField_eq_zero c).mpr hrsv)), opField_toNat]
  simp only [List.mem_cons, List.not_mem_nil, or_false] at hop
  obtain mod | awgn | demod | run := hop
  · rw [mod]; exact unrecognised .modBpsk .modQpsk
  · rw [awgn]; exact unrecognised .awgnBpsk .awgnQpsk
  · rw [demod]; exact unrecognised .demodBpsk .demodQpsk
  · rw [run]; exact unrecognised .runBpsk .runQpsk

/-- A scheme-independent command is decided by RSV and OP alone. -/
theorem decode_of_op {c : Word} (i : Instr) (hindep : schemeOf i = none) (hrsv : c.toNat / 64 = 0)
    (hop : c.toNat % 16 = (opOf i).toNat) : decode c = .ok i :=
  decode_of_fields i hrsv hop fun sch h => by rw [hindep] at h; cases h

/-- A scheme-dependent command is decided by RSV, OP and SCHEME. -/
theorem decode_of_op_scheme {c : Word} (i : Instr) {sch : Scheme} (hdep : schemeOf i = some sch)
    (hrsv : c.toNat / 64 = 0) (hop : c.toNat % 16 = (opOf i).toNat)
    (hscheme : c.toNat / 16 % 4 = (schemeBits (some sch)).toNat) : decode c = .ok i :=
  decode_of_fields i hrsv hop fun _ h => by rw [hdep] at h; cases h; exact hscheme

/-- Settles O3: each clause of the rule is one of the two errors, or the command whose OP and SCHEME the clause names. -/
theorem decodeIsTheRuleFunction : Obligations.DecodeIsTheRuleFunction := by
  rintro c _ rfl
  exact ⟨decode_of_rsv, fun _ => decode_of_reservedOp,
    decode_of_op .nop rfl, decode_of_op .count rfl, decode_of_op .estimate rfl, decode_of_op .clear rfl,
    decode_of_unrecognisedScheme,
    decode_of_op_scheme .modBpsk rfl, decode_of_op_scheme .modQpsk rfl,
    decode_of_op_scheme .awgnBpsk rfl, decode_of_op_scheme .awgnQpsk rfl,
    decode_of_op_scheme .demodBpsk rfl, decode_of_op_scheme .demodQpsk rfl,
    decode_of_op_scheme .runBpsk rfl, decode_of_op_scheme .runQpsk rfl⟩

end Sys2Proof
end

section
/-! The QPSK amplitude and the symbol energies (40_modulator.md R103, R105): the primitives on finite operands, where no
NaN pattern plays a part, and what rounding gives at the amplitude. -/

namespace Sys2Proof.Machine

/-! ### The primitives on finite operands -/

/-- The magnitude does not know the sign bit. -/
theorem magnitude_congr {x y : Word} (h : x.toNat % 2 ^ 63 = y.toNat % 2 ^ 63) : magnitude x = magnitude y := by
  rw [magnitude_eq_patternValue, magnitude_eq_patternValue, h]

/-- The product of two finite values is their exact product, rounded. -/
theorem mul64_of_isFinite (nan : Word) {a b : Word} (ha : isFinite a = true) (hb : isFinite b = true) :
    mul64 nan a b =
      packSign (signBit a != signBit b) (roundMagnitude (magnitude a * magnitude b) (2 ^ unitExp)) := by
  simp [mul64, isNaN_of_isFinite, isInf_of_isFinite, ha, hb]

/-- The quotient of two finite values, the divisor not zero, is their exact quotient, rounded. -/
theorem div64_of_isFinite (nan : Word) {a b : Word} (ha : isFinite a = true) (hb : isFinite b = true)
    (hb0 : isZero b = false) :
    div64 nan a b =
      packSign (signBit a != signBit b) (roundMagnitude (magnitude a * 2 ^ unitExp) (magnitude b)) := by
  simp [div64, isNaN_of_isFinite, isInf_of_isFinite, ha, hb, hb0]

/-- The root of a finite positive value is its exact root, rounded. -/
theorem sqrt64_of_pos (nan : Word) {a : Word} (ha : isFinite a = true) (hpos : signBit a = false)
    (ha0 : isZero a = false) : sqrt64 nan a = packSign false (roundRoot (magnitude a * 2 ^ unitExp)) := by
  simp [sqrt64, isNaN_of_isFinite, isInf_of_isFinite, ha, hpos, ha0]

/-- A square does not know the sign of what was squared. -/
theorem mul64_self (nan : Word) {a : Word} (ha : isFinite a = true) :
    mul64 nan a a = packSign false (roundMagnitude (magnitude a * magnitude a) (2 ^ unitExp)) := by
  rw [mul64_of_isFinite nan ha ha, bne_self_eq_false]

theorem toNat_mod_lt_infPattern {x : Word} (hx : isFinite x = true) : x.toNat % 2 ^ 63 < infPattern := by
  rw [isFinite, bne_iff_ne, expField_eq] at hx
  rw [infPattern_eq]
  omega

theorem magnitude_one : magnitude ONE = 2 ^ unitExp := by decide +kernel

/-- Multiplying by 1.0 or -1.0 is exact: only the sign can change. -/
theorem mul64_unit_right (nan : Word) {a b : Word} (ha : isFinite a = true) (hb : isFinite b = true)
    (hunit : magnitude b = 2 ^ unitExp) :
    mul64 nan a b = packSign (signBit a != signBit b) (a.toNat % 2 ^ 63) := by
  rw [mul64_of_isFinite nan ha hb, hunit, magnitude_eq_patternValue a,
    roundMagnitude_exact (toNat_mod_lt_infPattern ha) (Nat.two_pow_pos unitExp)]

/-- A positive normal value added to itself is exact: the same fraction, one exponent up. -/
theorem add64_self_packSign (nan : Word) {m : Nat} (hnormal : 2 ^ 52 ≤ m) (hlt : m + 2 ^ 52 < infPattern) :
    add64 nan (packSign false m) (packSign false m) = packSign false (m + 2 ^ 52) := by
  obtain ⟨hnan, hinf, hzero, hsign, hmag⟩ := packSign_facts (m := m) (by omega) (by omega)
  have hne : patternValue m ≠ 0 := by rwa [← hmag, Ne, magnitude_eq_zero_iff, Bool.not_eq_true]
  have hsum : signedMagnitude (packSign false m) + signedMagnitude (packSign false m) =
      (patternValue (m + 2 ^ 52) : Int) := by
    rw [signedMagnitude, hsign, if_neg Bool.false_ne_true, hmag, patternValue_double hnormal]
    omega
  have hround : roundMagnitude (patternValue (m + 2 ^ 52)) 1 = m + 2 ^ 52 := by
    simpa using roundMagnitude_exact hlt Nat.one_pos
  have hnz : (patternValue (m + 2 ^ 52) : Int) ≠ 0 := by rw [patternValue_double hnormal]; omega
  have hnonneg : ¬ (patternValue (m + 2 ^ 52) : Int) < 0 := by omega
  rw [add64, hnan, hinf, hsum, Int.natAbs_natCast, hround, if_neg hnz, decide_eq_false hnonneg]
  simp

/-! ### The amplitude -/

/-- sqrt64(2.0) (40_modulator.md R103). -/
theorem sqrt64_two (nan : Word) : sqrt64 nan TWO = 0x3FF6A09E667F3BCD := by
  rw [sqrt64_of_pos nan (by decide) (by decide) (by decide)]
  decide +kernel

/-- sqrt64(0.5), the binary64 value nearest to 1/√2 (40_modulator.md R103). -/
theorem sqrt64_half (nan : Word) : sqrt64 nan 0x3FE0000000000000 = 0x3FE6A09E667F3BCD := by
  rw [sqrt64_of_pos nan (by decide) (by decide) (by decide)]
  decide +kernel

/-- The amplitude's bits, sign aside: 1.0 divided by sqrt64(2.0), rounded. -/
theorem roundMagnitude_amplitude :
    roundMagnitude (magnitude ONE * 2 ^ unitExp) (magnitude 0x3FF6A09E667F3BCD) = 0x3FE6A09E667F3BCC := by
  decide +kernel

theorem div64_one_sqrt64_two (p q : Word) : div64 p ONE (sqrt64 q TWO) = qpskA := by
  rw [sqrt64_two, div64_of_isFinite p (by decide) (by decide) (by decide), roundMagnitude_amplitude]
  decide

/-- -1.0 has the magnitude of 1.0, so its quotient is the amplitude with the sign bit set. -/
theorem div64_mone_sqrt64_two (p q : Word) : div64 p MONE (sqrt64 q TWO) = qpskNegA := by
  have hmag : magnitude MONE = magnitude ONE := magnitude_congr (by decide)
  rw [sqrt64_two, div64_of_isFinite p (by decide) (by decide) (by decide), hmag, roundMagnitude_amplitude]
  decide

/-! ### The energies -/

/-- The amplitude's square, rounded: a little below 1/2. -/
theorem roundMagnitude_amplitude_sq :
    roundMagnitude (magnitude qpskA * magnitude qpskA) (2 ^ unitExp) = 0x3FDFFFFFFFFFFFFE := by
  decide +kernel

theorem mul64_qpsk_self (nan : Word) {x : Word} (hx : x ∈ [qpskA, qpskNegA]) :
    mul64 nan x x = packSign false 0x3FDFFFFFFFFFFFFE := by
  obtain ⟨hfin, hbits⟩ : isFinite x = true ∧ x.toNat % 2 ^ 63 = qpskA.toNat % 2 ^ 63 := by
    rcases List.mem_pair.mp hx with rfl | rfl <;> decide
  rw [mul64_self nan hfin, magnitude_congr hbits, roundMagnitude_amplitude_sq]

/-- Both parts of a QPSK symbol have the same square, and twice it is exact. -/
theorem qpsk_energy (p q r : Word) {x y : Word} (hx : x ∈ [qpskA, qpskNegA]) (hy : y ∈ [qpskA, qpskNegA]) :
    add64 p (mul64 q x x) (mul64 r y y) = 0x3FEFFFFFFFFFFFFE := by
  rw [mul64_qpsk_self q hx, mul64_qpsk_self r hy, add64_self_packSign p (by decide) (by decide)]
  decide

/-- The square of 1.0 or -1.0 is exact. -/
theorem mul64_bpsk_self (nan : Word) {x : Word} (hx : x ∈ [ONE, MONE]) : mul64 nan x x = ONE := by
  obtain ⟨hfin, hbits⟩ : isFinite x = true ∧ x.toNat % 2 ^ 63 = ONE.toNat % 2 ^ 63 := by
    rcases List.mem_pair.mp hx with rfl | rfl <;> decide
  have hunit : magnitude x = 2 ^ unitExp := (magnitude_congr hbits).trans magnitude_one
  rw [mul64_unit_right nan hfin hfin hunit, bne_self_eq_false, hbits]
  decide

/-- A BPSK symbol's imaginary part adds a zero to the square of its real part. -/
theorem bpsk_energy (p q r : Word) {x : Word} (hx : x ∈ [ONE, MONE]) :
    add64 p (mul64 q x x) (mul64 r PZERO PZERO) = ONE := by
  have hzero : isZero (mul64 r PZERO PZERO) = true := by
    rw [mul64_zero_right r (by decide) (by decide)]
    exact isZero_of_eq_packSign _
  rw [mul64_bpsk_self q hx]
  exact add64_zero_right p (by decide) (by decide) hzero

/-- Settles O31: every operand is finite, so each value is an exact result rounded once, and no NaN pattern is asked for. -/
theorem amplitudeAndEnergyValues : Obligations.AmplitudeAndEnergyValues := by
  intro p q r
  exact ⟨sqrt64_two q, div64_one_sqrt64_two p q, div64_mone_sqrt64_two p q, sqrt64_half p, rfl, rfl,
    mul64_qpsk_self p (.head _), fun _ hx _ hy => qpsk_energy p q r hx hy, fun _ hx => bpsk_energy p q r hx⟩

end Sys2Proof.Machine
end

section
/-! The decision function (42_demodulator.md R140): each kind of pattern as a range of the pattern's number. -/

namespace Sys2Proof.Machine

/-- The NaNs lie above the infinities, sign aside. -/
theorem isNaN_iff (x : Word) : isNaN x = true ↔ infPattern < x.toNat % 2 ^ 63 := by
  rw [isNaN, Bool.and_eq_true, beq_iff_eq, bne_iff_ne, expField_eq, fracField_eq, infPattern_eq]
  omega

theorem isZero_iff (x : Word) : isZero x = true ↔ x.toNat % 2 ^ 63 = 0 := by
  rw [isZero, Bool.and_eq_true, beq_iff_eq, beq_iff_eq, expField_eq, fracField_eq]
  omega

theorem signBit_iff (x : Word) : signBit x = true ↔ 2 ^ 63 ≤ x.toNat := by
  rw [signBit_eq, decide_eq_true_iff]

theorem decide64_iff (x : Word) :
    decide64 x = true ↔ ¬ isNaN x = true ∧ ¬ signBit x = true ∧ ¬ isZero x = true := by
  simp [decide64, gt0, and_assoc]

/-- Settles O38: no NaN, no sign bit and no zero together leave the patterns from 1 to that of +infinity. -/
theorem decisionIsStrictlyPositive : Obligations.DecisionIsStrictlyPositive := by
  intro x
  rw [decide64_iff, isNaN_iff, signBit_iff, isZero_iff, infPattern]
  omega

end Sys2Proof.Machine
end

section
/-! The round-trip law (42_demodulator.md R143). MOD, AWGN and DEMOD of the two schemes are the same three storing loops
over different operands, so what each stage leaves is said once for both; the schemes differ in the bit that decides. -/

namespace Sys2Proof.Machine

/-! ### A noise term that vanishes -/

/-- The two conditions of 42_demodulator.md R143 on one noise sample: the product of deviation and sample is a zero. -/
def NoiseVanishes (sigma g : Word) : Prop :=
  (isFinite sigma = true ∧ isZero g = true) ∨ (isZero sigma = true ∧ isFinite g = true)

theorem isZero_mul64_of_noiseVanishes (nan : Word) {sigma g : Word} (h : NoiseVanishes sigma g) :
    isZero (mul64 nan sigma g) = true := by
  obtain ⟨hsigma, hg⟩ | ⟨hsigma, hg⟩ := h
  · rw [mul64_zero_right nan hsigma hg]
    exact isZero_of_eq_packSign _
  · rw [mul64_zero_left nan hg hsigma]
    exact isZero_of_eq_packSign _

theorem isFinite_of_noiseVanishes {sigma g : Word} (h : NoiseVanishes sigma g) : isFinite sigma = true :=
  h.elim And.left fun hzero => isFinite_of_isZero hzero.1

/-- No symbol part of either scheme is a zero, and its sign is its bit (40_modulator.md R101, R102). -/
theorem bitSymbol_facts {p : Word × Word} (hp : p ∈ [(ONE, MONE), (qpskA, qpskNegA)]) (b : Bool) :
    isFinite (bitSymbol p.1 p.2 b) = true ∧ isZero (bitSymbol p.1 p.2 b) = false ∧
      decide64 (bitSymbol p.1 p.2 b) = b := by
  rcases List.mem_pair.mp hp with rfl | rfl
  case inl => cases b <;> decide
  case inr => cases b <;> decide

/-- A symbol part decides to its bit where the noise vanishes: adding a zero leaves it unchanged. -/
theorem decide64_addNoise {p : Word × Word} (hp : p ∈ [(ONE, MONE), (qpskA, qpskNegA)]) (draw site : Nat)
    {sigma g : Word} (hv : NoiseVanishes sigma g) (b : Bool) :
    decide64 (addNoise draw site sigma (bitSymbol p.1 p.2 b) g) = b := by
  obtain ⟨hfin, hnz, hdec⟩ := bitSymbol_facts hp b
  rw [addNoise, add64_zero_right _ hfin hnz (isZero_mul64_of_noiseVanishes _ hv), hdec]

/-! ### The deviation in the noiseless limit -/

theorem pinf_facts : isNaN PINF = false ∧ isInf PINF = true ∧ isZero PINF = false ∧ signBit PINF = false := by decide

theorem div64_inf_left (nan : Word) {b : Word} (hb : isFinite b = true) :
    div64 nan PINF b = packSign (signBit b) infPattern := by
  simp [div64, pinf_facts, isNaN_of_isFinite hb, isInf_of_isFinite hb]

theorem div64_inf_right (nan : Word) {a : Word} (ha : isFinite a = true) :
    div64 nan a PINF = packSign (signBit a) 0 := by
  simp [div64, pinf_facts, isNaN_of_isFinite ha, isInf_of_isFinite ha]

theorem mul64_inf_right (nan : Word) {a : Word} (ha : isFinite a = true) (hnz : isZero a = false) :
    mul64 nan a PINF = packSign (signBit a) infPattern := by
  simp [mul64, pinf_facts, isNaN_of_isFinite ha, hnz]

theorem sqrt64_zero (nan : Word) {a : Word} (hz : isZero a = true) : sqrt64 nan a = a := by
  simp [sqrt64, isNaN_of_isFinite (isFinite_of_isZero hz), hz]

theorem pow10_inf : pow10 PINF = PINF := by simp [pow10, pinf_facts]

theorem linearSnr_inf (draw : Nat) : linearSnr draw PINF = PINF := by
  have quotient : packSign (signBit TEN) infPattern = PINF := by decide
  rw [linearSnr, div64_inf_left _ (by decide), quotient, pow10_inf]

/-- Doubling the infinite SNR keeps it infinite, and 1.0 over it is +0.0. -/
theorem sigmaBpsk_inf (draw : Nat) : sigmaBpsk draw PINF = PZERO := by
  have double : packSign (signBit TWO) infPattern = PINF := by decide
  have reciprocal : packSign (signBit ONE) 0 = PZERO := by decide
  rw [sigmaBpsk, linearSnr_inf, mul64_inf_right _ (by decide) (by decide), double,
    div64_inf_right _ (by decide), reciprocal, sqrt64_zero _ (by decide)]

/-- 1.0 over the infinite SNR is +0.0, and half of it too. -/
theorem sigmaQpsk_inf (draw : Nat) : sigmaQpsk draw PINF = PZERO := by
  have reciprocal : packSign (signBit ONE) 0 = PZERO := by decide
  have half (nan : Word) : div64 nan PZERO TWO = PZERO := by
    rw [div64_of_isFinite nan (by decide) (by decide) (by decide), show magnitude PZERO = 0 by decide, Nat.zero_mul,
      roundMagnitude_zero]
    decide
  rw [sigmaQpsk, linearSnr_inf, div64_inf_right _ (by decide), reciprocal, half, sqrt64_zero _ (by decide)]

/-- Under either condition of the law every noise sample vanishes, for a deviation that is +0.0 at SNR +infinity. -/
theorem noiseVanishes_of_conditions {s : State} {n : Nat} {sigma : Word} (hinf : s.snrDb = PINF → sigma = PZERO)
    (h : (isFinite sigma = true ∧ ∀ j, j < n → isZero (noise s j) = true) ∨
      (s.snrDb = PINF ∧ ∀ j, j < n → isFinite (noise s j) = true)) :
    ∀ j, j < n → NoiseVanishes sigma (noise s j) := by
  intro j hj
  obtain ⟨hsigma, hg⟩ | ⟨hsnr, hg⟩ := h
  · exact .inl ⟨hsigma, hg j hj⟩
  · exact .inr ⟨by rw [hinf hsnr]; rfl, hg j hj⟩

/-! ### What each stage leaves for the next -/

/-- After MOD: m symbols with the given parts, and AWGN's other inputs as before. -/
structure Modulated (s t : State) (m : Nat) (re im : Nat → Word) : Prop where
  symN : u64 t.symN = m
  nMax : t.nMax = s.nMax
  snrDb : t.snrDb = s.snrDb
  draws : t.draws = s.draws
  noise : ∀ j, j < s.nMax → noise t j = noise s j
  symRe : ∀ k, k < m → symRe t k = re k
  symIm : ∀ k, k < m → symIm t k = im k

/-- After AWGN: m received symbols with the given parts. -/
structure Received (s t : State) (m : Nat) (re im : Nat → Word) : Prop where
  rsymN : u64 t.rsymN = m
  nMax : t.nMax = s.nMax
  rsymRe : ∀ k, k < m → rsymRe t k = re k
  rsymIm : ∀ k, k < m → rsymIm t k = im k

/-- NOISE ends below SYM for a legal capacity. -/
theorem noiseAddr_lt_symBase {s : State} (hcap : CapacityLegal s) {j : Nat} (hj : j < s.nMax) :
    noiseAddr j + 8 ≤ symBase := by
  obtain ⟨_, _, hmax⟩ := hcap
  rw [Config.nMaxMax] at hmax
  rw [noiseAddr, noiseBase, symBase]
  omega

/-- The state MOD of either scheme retires to. -/
theorem modulated_retire {s : State} (hcap : CapacityLegal s) {m : Nat} (hm : m ≤ s.nMax) (re im : Nat → Word) :
    Modulated s (retire { storeSymbols symBase re im m s with symN := countWord m }) m re im where
  symN := countWord_toNat (Nat.lt_of_le_of_lt hm (nMax_lt s))
  nMax := by simp [State.nMax]
  snrDb := by simp
  draws := by simp
  noise j hj := (readWord_of_storeSymbols (s := s) rfl (by simp) _).trans
    (readWord_storeSymbols_outside _ re im m s (.inl (noiseAddr_lt_symBase hcap hj)))
  symRe k hk := (readWord_of_storeSymbols (s := s) rfl (by simp) _).trans (readWord_storeSymbols _ re im s hk).1
  symIm k hk := (readWord_of_storeSymbols (s := s) rfl (by simp) _).trans (readWord_storeSymbols _ re im s hk).2

/-- The state AWGN of either scheme retires to. -/
theorem received_retire {s : State} {m : Nat} (hm : m ≤ s.nMax) (sigma : Word) (re im : Nat → Word) :
    Received s (retire { storeSymbols rsymBase re im m s with
      rsymN := countWord m, sigma := sigma, draws := s.draws + 1 }) m re im where
  rsymN := countWord_toNat (Nat.lt_of_le_of_lt hm (nMax_lt s))
  nMax := by simp [State.nMax]
  rsymRe k hk := (readWord_of_storeSymbols (s := s) rfl (by simp) _).trans (readWord_storeSymbols _ re im s hk).1
  rsymIm k hk := (readWord_of_storeSymbols (s := s) rfl (by simp) _).trans (readWord_storeSymbols _ re im s hk).2

/-- The state DEMOD of either scheme retires to: n decided bits in RXB. -/
theorem decided_retire {s : State} {n : Nat} (hn : n ≤ s.nMax) (f : Nat → Bool) :
    let t := retire { storeBits rxbBase f n s with rxN := countWord n }
    u64 t.rxN = n ∧ ∀ i, i < n → rxb t i = f i := by
  refine ⟨countWord_toNat (Nat.lt_of_le_of_lt hn (nMax_lt s)), fun i hi => ?_⟩
  exact (bitAt_of_storeBits (s := s) rfl (by simp) i).trans (if_pos hi)

/-! ### The six commands, where their checks pass -/

theorem modBpsk_modulates {s : State} {n : Nat} (hcap : CapacityLegal s) (hbits : s64 s.nBits = n) (h1 : 1 ≤ n)
    (hmax : n ≤ s.nMax) :
    ∃ t, Succeeds .modBpsk s t ∧
      Modulated s t n (fun i => bitSymbol ONE MONE (txb s i)) (fun _ => PZERO) := by
  have valid : bpskCountValid s = true := (bpskCountValid_iff s).mpr (by omega)
  refine ⟨_, succeeds_iff.mpr ⟨_, modBpskRule_ok.mpr ⟨valid, rfl⟩, rfl⟩, ?_⟩
  rw [bitCount, hbits, Int.toNat_natCast]
  exact modulated_retire hcap hmax _ _

theorem modQpsk_modulates {s : State} {n : Nat} (hcap : CapacityLegal s) (hbits : s64 s.nBits = n) (h1 : 1 ≤ n)
    (hmax : n ≤ s.nMax) (heven : n % 2 = 0) :
    ∃ t, Succeeds .modQpsk s t ∧
      Modulated s t (n / 2) (fun k => bitSymbol qpskA qpskNegA (txb s (2 * k)))
        (fun k => bitSymbol qpskA qpskNegA (txb s (2 * k + 1))) := by
  have valid : qpskCountValid s = true := (qpskCountValid_iff s).mpr (by omega)
  refine ⟨_, succeeds_iff.mpr ⟨_, modQpskRule_ok.mpr ⟨valid, rfl⟩, rfl⟩, ?_⟩
  rw [bitCount, hbits, Int.toNat_natCast]
  exact modulated_retire hcap (by omega) _ _

theorem awgnBpsk_receives {s : State} {m : Nat} (hsym : u64 s.symN = m) (h1 : 1 ≤ m) (hmax : m ≤ s.nMax)
    (hfin : isFinite (sigmaBpsk s.draws s.snrDb) = true) :
    ∃ t, Succeeds .awgnBpsk s t ∧
      Received s t m (fun i => addNoise s.draws (4 + 4 * i) (sigmaBpsk s.draws s.snrDb) (symRe s i) (noise s i))
        (fun i => symIm s i) := by
  subst hsym
  exact ⟨_, succeeds_iff.mpr ⟨_, awgnBpskRule_ok.mpr ⟨(awgnBpskCountValid_iff s).mpr ⟨h1, hmax⟩, hfin, rfl⟩, rfl⟩,
    received_retire hmax _ _ _⟩

theorem awgnQpsk_receives {s : State} {m : Nat} (hsym : u64 s.symN = m) (h1 : 1 ≤ m) (hmax : m ≤ s.nMax / 2)
    (hfin : isFinite (sigmaQpsk s.draws s.snrDb) = true) :
    ∃ t, Succeeds .awgnQpsk s t ∧
      Received s t m (fun k => addNoise s.draws (4 + 4 * k) (sigmaQpsk s.draws s.snrDb) (symRe s k) (noise s k))
        (fun k => addNoise s.draws (6 + 4 * k) (sigmaQpsk s.draws s.snrDb) (symIm s k) (noise s (m + k))) := by
  subst hsym
  exact ⟨_, succeeds_iff.mpr ⟨_, awgnQpskRule_ok.mpr ⟨(awgnQpskCountValid_iff s).mpr ⟨h1, hmax⟩, hfin, rfl⟩, rfl⟩,
    received_retire (by omega) _ _ _⟩

theorem demodBpsk_decides {s : State} {m : Nat} (hsym : u64 s.rsymN = m) (h1 : 1 ≤ m) (hmax : m ≤ s.nMax) :
    ∃ t, Succeeds .demodBpsk s t ∧ u64 t.rxN = m ∧ ∀ i, i < m → rxb t i = decide64 (rsymRe s i) := by
  subst hsym
  exact ⟨_, succeeds_iff.mpr ⟨_, demodBpskRule_ok.mpr ⟨(demodBpskCountValid_iff s).mpr ⟨h1, hmax⟩, rfl⟩, rfl⟩,
    decided_retire hmax _⟩

theorem demodQpsk_decides {s : State} {m : Nat} (hsym : u64 s.rsymN = m) (h1 : 1 ≤ m) (hmax : m ≤ s.nMax / 2) :
    ∃ t, Succeeds .demodQpsk s t ∧ u64 t.rxN = 2 * m ∧ ∀ i, i < 2 * m → rxb t i = qpskDecision s i := by
  subst hsym
  exact ⟨_, succeeds_iff.mpr ⟨_, demodQpskRule_ok.mpr ⟨(demodQpskCountValid_iff s).mpr ⟨h1, hmax⟩, rfl⟩, rfl⟩,
    decided_retire (by omega) _⟩

/-! ### The law for each scheme -/

/-- BPSK: bit i travels in the real part of symbol i. -/
theorem bpsk_roundTrip {s : State} {n : Nat} (hcap : CapacityLegal s) (hbits : s64 s.nBits = n) (h1 : 1 ≤ n)
    (hmax : n ≤ s.nMax) (hv : ∀ j, j < n → NoiseVanishes (sigmaBpsk s.draws s.snrDb) (noise s j)) :
    ∃ s₁ s₂ s₃ : State, Succeeds .modBpsk s s₁ ∧ Succeeds .awgnBpsk s₁ s₂ ∧ Succeeds .demodBpsk s₂ s₃ ∧
      u64 s₃.rxN = n ∧ ∀ i, i < n → rxb s₃ i = txb s i := by
  have hfin := isFinite_of_noiseVanishes (hv 0 h1)
  obtain ⟨s₁, mod, sent⟩ := modBpsk_modulates hcap hbits h1 hmax
  obtain ⟨s₂, awgn, received⟩ := awgnBpsk_receives sent.symN h1 (sent.nMax ▸ hmax)
    (by rwa [sent.draws, sent.snrDb])
  obtain ⟨s₃, demod, rxN, decided⟩ := demodBpsk_decides received.rsymN h1 (by rwa [received.nMax, sent.nMax])
  refine ⟨s₁, s₂, s₃, mod, awgn, demod, rxN, fun i hi => ?_⟩
  rw [decided i hi, received.rsymRe i hi, sent.symRe i hi, sent.noise i (by omega), sent.draws, sent.snrDb]
  exact decide64_addNoise (p := (ONE, MONE)) (by simp) _ _ (hv i hi) _

/-- QPSK: the even bits travel in the real parts, with noise samples 0 to n/2 - 1, the odd bits in the imaginary parts,
with the samples after those. -/
theorem qpsk_roundTrip {s : State} {n : Nat} (hcap : CapacityLegal s) (hbits : s64 s.nBits = n) (h1 : 1 ≤ n)
    (hmax : n ≤ s.nMax) (heven : n % 2 = 0)
    (hv : ∀ j, j < n → NoiseVanishes (sigmaQpsk s.draws s.snrDb) (noise s j)) :
    ∃ s₁ s₂ s₃ : State, Succeeds .modQpsk s s₁ ∧ Succeeds .awgnQpsk s₁ s₂ ∧ Succeeds .demodQpsk s₂ s₃ ∧
      u64 s₃.rxN = n ∧ ∀ i, i < n → rxb s₃ i = txb s i := by
  have hfin := isFinite_of_noiseVanishes (hv 0 h1)
  have hhalf : 1 ≤ n / 2 ∧ n / 2 ≤ s.nMax / 2 := by omega
  obtain ⟨s₁, mod, sent⟩ := modQpsk_modulates hcap hbits h1 hmax heven
  obtain ⟨s₂, awgn, received⟩ := awgnQpsk_receives sent.symN hhalf.1 (by rw [sent.nMax]; exact hhalf.2)
    (by rwa [sent.draws, sent.snrDb])
  obtain ⟨s₃, demod, rxN, decided⟩ := demodQpsk_decides received.rsymN hhalf.1
    (by rw [received.nMax, sent.nMax]; exact hhalf.2)
  rw [show 2 * (n / 2) = n by omega] at rxN decided
  refine ⟨s₁, s₂, s₃, mod, awgn, demod, rxN, fun i hi => ?_⟩
  have hk : i / 2 < n / 2 := by omega
  rw [decided i hi, qpskDecision]
  split
  case isTrue even =>
    rw [received.rsymRe _ hk, sent.symRe _ hk, sent.noise _ (by omega), sent.draws, sent.snrDb,
      show 2 * (i / 2) = i by omega]
    exact decide64_addNoise (p := (qpskA, qpskNegA)) (by simp) _ _ (hv _ (by omega)) _
  case isFalse odd =>
    rw [received.rsymIm _ hk, sent.symIm _ hk, sent.noise _ (by omega), sent.draws, sent.snrDb,
      show 2 * (i / 2) + 1 = i by omega]
    exact decide64_addNoise (p := (qpskA, qpskNegA)) (by simp) _ _ (hv _ (by omega)) _

/-- Settles O52: both noise conditions make every noise term vanish, at SNR +infinity because the deviation is +0.0. -/
theorem noiselessRoundTrip : Obligations.NoiselessRoundTrip := by
  intro s n hcap hbits h1 hmax
  constructor
  · intro h
    exact bpsk_roundTrip hcap hbits h1 hmax
      (noiseVanishes_of_conditions (fun hinf => by rw [hinf]; exact sigmaBpsk_inf _) h)
  · intro heven h
    exact qpsk_roundTrip hcap hbits h1 hmax heven
      (noiseVanishes_of_conditions (fun hinf => by rw [hinf]; exact sigmaQpsk_inf _) h)

end Sys2Proof.Machine
end

section
/-! The BER counter (43_ber_counter.md R160 to R163): where a ratio rounds, and what CLEAR, COUNT and ESTIMATE leave. -/

namespace Sys2Proof.Machine

/-! ### Ratios rounded once -/

/-- A value of at least the least subnormal does not round to zero: the significand keeps its floor, or the pattern its
exponent. -/
theorem roundMagnitude_pos {n d : Nat} (hd : 0 < d) (h : d ≤ n) : 0 < roundMagnitude n d := by
  have hfloor : 1 ≤ n / d := (Nat.one_le_div_iff hd).mpr h
  rw [roundMagnitude, infPattern_eq]
  cases hk : Nat.log2 (n / d) - 52 with
  | zero =>
    have hsig := (divNearestEven_floor n d).1
    rw [Nat.pow_zero, Nat.mul_one]
    omega
  | succ k => omega

/-- A rounded ratio as a number: its sign bit is clear. -/
theorem rnd64_toNat (n d : Nat) : (rnd64 n d).toNat = roundMagnitude (n * 2 ^ unitExp) d := by
  have hle := roundMagnitude_le (n * 2 ^ unitExp) d
  rw [infPattern_eq] at hle
  rw [rnd64_eq, packSign_toNat false (by omega)]
  simp

theorem patternValue_one : patternValue ONE.toNat = 2 ^ unitExp := by
  rw [← magnitude_one, magnitude_eq_patternValue]
  rfl

/-- Rounding does not pass 1.0. -/
theorem rnd64_le_one {n d : Nat} (hd : 0 < d) (h : n ≤ d) : (rnd64 n d).toNat ≤ ONE.toNat := by
  rw [rnd64_toNat]
  refine roundMagnitude_le_of_le hd ?_
  rw [patternValue_one]
  exact Nat.mul_le_mul_right _ h

/-- The ratio of equals is exact. -/
theorem rnd64_self {d : Nat} (hd : 0 < d) : rnd64 d d = ONE := by
  apply BitVec.eq_of_toNat_eq
  rw [rnd64_toNat, Nat.mul_comm, ← patternValue_one]
  exact roundMagnitude_exact (by decide) hd

/-- No ratio underflows to zero unless its divisor is beyond every register value. -/
theorem rnd64_eq_zero_iff {n d : Nat} (hd : 0 < d) (hfits : d ≤ 2 ^ unitExp) : rnd64 n d = PZERO ↔ n = 0 := by
  constructor
  · intro hzero
    by_contra hn
    have hunit : d ≤ n * 2 ^ unitExp := Nat.le_trans hfits (Nat.le_mul_of_pos_left _ (Nat.pos_of_ne_zero hn))
    have hpos := roundMagnitude_pos hd hunit
    rw [← rnd64_toNat, hzero] at hpos
    exact absurd hpos (by decide)
  · rintro rfl
    exact if_pos rfl

/-- Every register value is far below 2^1074, so a ratio of two keeps at least one unit. -/
theorem u64_le_two_pow_unitExp (v : Word) : u64 v ≤ 2 ^ unitExp :=
  Nat.le_trans (Nat.le_of_lt v.isLt) (Nat.pow_le_pow_right (by decide) (by decide))

/-! ### The three commands, where their checks pass -/

/-- CLEAR has no check. -/
theorem succeeds_clear (s : State) : Succeeds .clear s (retire (clearBody s)) :=
  succeeds_iff.mpr ⟨_, rfl, rfl⟩

theorem succeeds_count {s : State} {n : Nat} (hbits : s64 s.nBits = n) (h1 : 1 ≤ n) (hmax : n ≤ s.nMax)
    (hrx : u64 s.rxN = n) (hfits : u64 s.bitCnt + n ≤ 2 ^ 64 - 1) :
    Succeeds .count s (retire (countBody n s)) := by
  have valid : bpskCountValid s = true := (bpskCountValid_iff s).mpr (by omega)
  have count : bitCount s = n := hbits
  have noOverflow : bitCntOverflows s n = false := by
    rw [← Bool.not_eq_true, bitCntOverflows_iff]
    omega
  refine succeeds_iff.mpr ⟨_, countRule_ok.mpr ⟨valid, by rw [hrx, count], ?_, ?_⟩, rfl⟩ <;>
    rw [count, Int.toNat_natCast]
  exact noOverflow

theorem succeeds_estimate_iff {s t : State} :
    Succeeds .estimate s t ↔ u64 s.bitCnt ≠ 0 ∧ t = retire (estimateBody s) := by
  rw [succeeds_iff]
  constructor
  · rintro ⟨u, hrule, rfl⟩
    obtain ⟨hne, rfl⟩ := estimateRule_ok.mp hrule
    exact ⟨hne, rfl⟩
  · rintro ⟨hne, rfl⟩
    exact ⟨_, estimateRule_ok.mpr ⟨hne, rfl⟩, rfl⟩

/-! ### The range of BER -/

/-- One error short of 2^64 - 1 bits: 1 - 1/b is nearer 1.0 than the binary64 value below it. -/
def almostAllErrors : State :=
  { State.reset with errCnt := 0xFFFFFFFFFFFFFFFE, bitCnt := 0xFFFFFFFFFFFFFFFF }

theorem rnd64_almostAllErrors : rnd64 (u64 almostAllErrors.errCnt) (u64 almostAllErrors.bitCnt) = ONE := by
  decide +kernel

/-- Settles O39: rounding is monotone and exact at 1.0, and no ratio of two counters is below the least subnormal. -/
theorem estimateRange : Obligations.EstimateRange := by
  refine ⟨fun s t hord hest => ?_, almostAllErrors, retire (estimateBody almostAllErrors), by decide, by decide,
    succeeds_estimate_iff.mpr ⟨by decide, rfl⟩, rnd64_almostAllErrors⟩
  obtain ⟨hne, rfl⟩ := succeeds_estimate_iff.mp hest
  have hpos : 0 < u64 s.bitCnt := Nat.pos_of_ne_zero hne
  refine ⟨rnd64_le_one hpos hord, rnd64_eq_zero_iff hpos (u64_le_two_pow_unitExp _), fun heq => ?_⟩
  show rnd64 (u64 s.errCnt) (u64 s.bitCnt) = ONE
  rw [heq, rnd64_self hpos]

/-! ### The identity law -/

/-- COUNT from cleared counters, with the sequences equal, leaves no error and n bits. -/
theorem countBody_clear_of_equal {s : State} {n : Nat} (hmax : n ≤ s.nMax)
    (hequal : ∀ i, i < n → rxb s i = txb s i) :
    u64 (countBody n (retire (clearBody s))).errCnt = 0 ∧ u64 (countBody n (retire (clearBody s))).bitCnt = n := by
  have hfits : n < 2 ^ 64 := Nat.lt_of_le_of_lt hmax (nMax_lt s)
  have hnone : bitErrors (retire (clearBody s)) n = 0 :=
    (bitErrors_congr rfl rfl n).trans (bitErrors_eq_zero hequal)
  constructor
  · show (countWord (0 + bitErrors _ n)).toNat = 0
    rw [hnone]
    rfl
  · show (countWord (0 + n)).toNat = n
    rw [Nat.zero_add, countWord_toNat hfits]

/-- Settles O53: CLEAR makes room for any valid length, and the ratio of no errors is +0.0. -/
theorem identityLaw : Obligations.IdentityLaw := by
  intro s n hbits h1 hmax hrx hequal
  obtain ⟨herr, hbit⟩ := countBody_clear_of_equal hmax hequal
  have hfits : u64 (retire (clearBody s)).bitCnt + n ≤ 2 ^ 64 - 1 := by
    have hlt := nMax_lt s
    have hcleared : u64 (retire (clearBody s)).bitCnt = 0 := rfl
    omega
  have hsome : u64 (countBody n (retire (clearBody s))).bitCnt ≠ 0 := by omega
  refine ⟨_, _, _, succeeds_clear s, succeeds_count hbits h1 hmax hrx hfits,
    succeeds_estimate_iff.mpr ⟨hsome, rfl⟩, herr, hbit, ?_⟩
  exact (rnd64_eq_zero_iff (Nat.pos_of_ne_zero hsome) (u64_le_two_pow_unitExp _)).mpr herr

end Sys2Proof.Machine
end

section
/-! The errors of a command word (60_exceptions.md R202, R204): what decoding can answer, and for which words. -/

namespace Sys2Proof

/-- A scheme-dependent operation with SCHEME 0 or 1 is one of its two commands. -/
theorem decode_of_recognisedScheme {c : Word} (bpsk qpsk : Instr) (hb : schemeOf bpsk = some .bpsk)
    (hq : schemeOf qpsk = some .qpsk) (hrsv : c.toNat / 64 = 0) (hopb : c.toNat % 16 = (opOf bpsk).toNat)
    (hopq : c.toNat % 16 = (opOf qpsk).toNat) (hscheme : c.toNat / 16 % 4 < 2) : ∃ i, decode c = .ok i := by
  obtain h0 | h1 : c.toNat / 16 % 4 = 0 ∨ c.toNat / 16 % 4 = 1 := by omega
  · exact ⟨bpsk, decode_of_op_scheme bpsk hb hrsv hopb h0⟩
  · exact ⟨qpsk, decode_of_op_scheme qpsk hq hrsv hopq h1⟩

/-- A word that passes the three checks of 30_encoding.md R84 is a command. -/
theorem decode_of_checks {c : Word} (hrsv : c.toNat / 64 = 0) (hop : c.toNat % 16 < 8)
    (hscheme : c.toNat % 16 ∈ [1, 2, 3, 6] → c.toNat / 16 % 4 < 2) : ∃ i, decode c = .ok i := by
  obtain nop | mod | awgn | demod | count | estimate | run | clear :
      c.toNat % 16 = 0 ∨ c.toNat % 16 = 1 ∨ c.toNat % 16 = 2 ∨ c.toNat % 16 = 3 ∨ c.toNat % 16 = 4 ∨
        c.toNat % 16 = 5 ∨ c.toNat % 16 = 6 ∨ c.toNat % 16 = 7 := by omega
  · exact ⟨.nop, decode_of_op .nop rfl hrsv nop⟩
  · exact decode_of_recognisedScheme .modBpsk .modQpsk rfl rfl hrsv mod mod (hscheme (by simp [mod]))
  · exact decode_of_recognisedScheme .awgnBpsk .awgnQpsk rfl rfl hrsv awgn awgn (hscheme (by simp [awgn]))
  · exact decode_of_recognisedScheme .demodBpsk .demodQpsk rfl rfl hrsv demod demod (hscheme (by simp [demod]))
  · exact ⟨.count, decode_of_op .count rfl hrsv count⟩
  · exact ⟨.estimate, decode_of_op .estimate rfl hrsv estimate⟩
  · exact decode_of_recognisedScheme .runBpsk .runQpsk rfl rfl hrsv run run (hscheme (by simp [run]))
  · exact ⟨.clear, decode_of_op .clear rfl hrsv clear⟩

/-- What decoding can answer, with the check that decides it. -/
theorem decode_cases (c : Word) :
    (decode c = .error .illegalCommand ∧ (c.toNat / 64 ≠ 0 ∨ 8 ≤ c.toNat % 16)) ∨
      (decode c = .error .invalidScheme ∧ c.toNat / 64 = 0 ∧ c.toNat % 16 ∈ [1, 2, 3, 6] ∧ 2 ≤ c.toNat / 16 % 4) ∨
      ∃ i, decode c = .ok i := by
  by_cases hrsv : c.toNat / 64 = 0
  · by_cases hop : c.toNat % 16 < 8
    · by_cases hscheme : c.toNat % 16 ∈ [1, 2, 3, 6] ∧ 2 ≤ c.toNat / 16 % 4
      · exact .inr (.inl ⟨decode_of_unrecognisedScheme hrsv hscheme.1 hscheme.2, hrsv, hscheme⟩)
      · exact .inr (.inr (decode_of_checks hrsv hop fun hdep => Nat.lt_of_not_le fun h2 => hscheme ⟨hdep, h2⟩))
    · exact .inl ⟨decode_of_reservedOp (Nat.le_of_not_lt hop), .inr (Nat.le_of_not_lt hop)⟩
  · exact .inl ⟨decode_of_rsv hrsv, .inl hrsv⟩

theorem decode_illegalCommand_iff (c : Word) :
    decode c = .error .illegalCommand ↔ c.toNat / 64 ≠ 0 ∨ 8 ≤ c.toNat % 16 := by
  constructor
  · intro h
    rcases decode_cases c with ⟨_, hcheck⟩ | ⟨hscheme, _⟩ | ⟨i, hi⟩
    · exact hcheck
    · rw [h] at hscheme; cases hscheme
    · rw [h] at hi; cases hi
  · rintro (hrsv | hop)
    · exact decode_of_rsv hrsv
    · exact decode_of_reservedOp hop

theorem decode_invalidScheme_iff (c : Word) :
    decode c = .error .invalidScheme ↔
      c.toNat / 64 = 0 ∧ c.toNat % 16 ∈ [1, 2, 3, 6] ∧ 2 ≤ c.toNat / 16 % 4 := by
  constructor
  · intro h
    rcases decode_cases c with ⟨hillegal, _⟩ | ⟨_, hcheck⟩ | ⟨i, hi⟩
    · rw [h] at hillegal; cases hillegal
    · exact hcheck
    · rw [h] at hi; cases hi
  · rintro ⟨hrsv, hop, hscheme⟩
    exact decode_of_unrecognisedScheme hrsv hop hscheme

/-- The eight words of 60_exceptions.md R202, by their fields. -/
theorem mem_invalidSchemeWords_iff (c : Word) :
    c ∈ [0x21, 0x31, 0x22, 0x32, 0x23, 0x33, 0x26, 0x36] ↔
      c.toNat / 64 = 0 ∧ c.toNat % 16 ∈ [1, 2, 3, 6] ∧ 2 ≤ c.toNat / 16 % 4 := by
  simp only [List.mem_cons, List.not_mem_nil, or_false]
  bv_omega

end Sys2Proof
end

section
/-! How a command begins and how it ends with an error (60_exceptions.md R201 to R211): acceptance, which errors a rule
can raise, and the one completion step that all errors share. -/

namespace Sys2Proof.Machine

/-! ### Acceptance -/

theorem submit_accepts {s : State} (hidle : s.status.busy = false) (hlive : s.status.fatal = false) (c : Word) :
    submit c s = accept c s := by
  rw [submit, hidle, hlive]; rfl

theorem submit_drops {s : State} (h : s.status.busy = true ∨ s.status.fatal = true) (c : Word) :
    submit c s = dropWrite s := by
  obtain hbusy | hfatal := h
  · exact submit_busy hbusy c
  · rw [submit, hfatal, Bool.not_true, Bool.and_false]; rfl

/-! ### Errors of a command's rule -/

/-- COUNT finds LengthMismatch after its first check and before its last (60_exceptions.md R206). -/
theorem countRule_lengthMismatch (s : State) :
    countRule s = .error .lengthMismatch ↔ bpskCountValid s = true ∧ (u64 s.rxN : Int) ≠ bitCount s := by
  unfold countRule
  cases bpskCountValid s
  · simp
  · by_cases hrx : (u64 s.rxN : Int) = bitCount s
    · cases bitCntOverflows s (bitCount s).toNat <;> simp [hrx]
    · simp [hrx]

/-- The only errors a decoded command ends with: the checks on its operands, and COUNT's comparison of lengths. -/
theorem ruleOf_error {i : Instr} {s : State} {e : CmdError} (h : ruleOf i s = .error e) :
    e = .invalidInput ∨ (e = .lengthMismatch ∧ i = .count) := by
  cases i
  case nop | clear => cases h
  case count =>
    rw [ruleOf, countRule] at h
    repeat' split at h
    all_goals cases h
    · exact .inl rfl
    · exact .inr ⟨rfl, rfl⟩
    · exact .inl rfl
  case modBpsk | modQpsk | awgnBpsk | awgnQpsk | demodBpsk | demodQpsk | estimate | runBpsk | runQpsk =>
    simp only [ruleOf, modBpskRule, modQpskRule, awgnBpskRule, awgnQpskRule, demodBpskRule, demodQpskRule, estimateRule,
      runBpskRule, runQpskRule] at h
    repeat' split at h
    all_goals cases h
    all_goals exact .inl rfl

theorem ruleOf_lengthMismatch_iff (i : Instr) (s : State) :
    ruleOf i s = .error .lengthMismatch ↔
      i = .count ∧ 1 ≤ s64 s.nBits ∧ s64 s.nBits ≤ s.nMax ∧ (u64 s.rxN : Int) ≠ s64 s.nBits := by
  have ofCount := countRule_lengthMismatch s
  rw [bpskCountValid_iff, and_assoc] at ofCount
  constructor
  · intro h
    obtain hinput | ⟨_, rfl⟩ := ruleOf_error h
    · cases hinput
    · exact ⟨rfl, ofCount.mp h⟩
  · rintro ⟨rfl, hmismatch⟩
    exact ofCount.mpr hmismatch

/-- A rule that neither succeeds nor finds a length mismatch has found its operands invalid. -/
theorem ruleOf_invalidInput_iff (i : Instr) (s : State) :
    ruleOf i s = .error .invalidInput ↔
      (¬ ∃ u, ruleOf i s = .ok u) ∧ ¬ ruleOf i s = .error .lengthMismatch := by
  cases h : ruleOf i s with
  | ok u => simp
  | error e => obtain rfl | ⟨rfl, _⟩ := ruleOf_error h <;> simp

/-! ### Completion with an error -/

/-- The error a completed command reports is the one its rule raised. -/
theorem errCode_exec_iff {i : Instr} {s t : State} (h : exec i s = .next t) (e : CmdError) :
    t.status.errCode = some e ↔ ruleOf i s = .error e := by
  rw [← fails_iff]
  constructor
  · exact fun he => ⟨t, h, he⟩
  · rintro ⟨t', h', he⟩
    rw [h] at h'
    injection h' with h'
    exact h' ▸ he

/-- The errors of a command word are never those of a decoded command (60_exceptions.md R202, R204). -/
theorem exec_not_wordError {i : Instr} {s t : State} (h : exec i s = .next t) :
    t.status.errCode ≠ some .invalidScheme ∧ t.status.errCode ≠ some .illegalCommand := by
  rw [ne_eq, ne_eq, errCode_exec_iff h, errCode_exec_iff h]
  constructor <;> intro hrule <;> obtain ⟨⟨⟩⟩ | ⟨⟨⟩, _⟩ := ruleOf_error hrule

/-- Error entry in the terms of 60_exceptions.md R210. -/
theorem raise_eq (e : CmdError) (s : State) : raise e s = { s with status := statusError s.status e } := by
  rw [raise, Status.failed_eq]

/-- A word in flight that decodes to an error completes with it, whatever the registers and buffers hold. -/
theorem step_of_decode_error {s : State} {es : List Event} {e : CmdError} (hturn : BlockTurn s es)
    (hbusy : s.status.busy = true) (hdecode : decode s.cur = .error e) :
    step s = .next { s with events := es, status := statusError s.status e } := by
  rw [step_of_blockTurn hturn, blockTurn, if_pos hbusy, completeCommand, hdecode]
  exact congrArg _ (raise_eq e _)

/-! ### The statements -/

/-- Settles O8: a completion that leaves an error code cannot have retired, and `raise` writes STATUS alone. -/
theorem errorCompletionChangesOnlyStatus : Obligations.ErrorCompletionChangesOnlyStatus := by
  intro s t es e hturn hbusy hstep herr
  rw [step_of_blockTurn hturn] at hstep
  rcases blockTurn_busy (s := { s with events := es }) hbusy hstep with ⟨i, u, _, _, rfl⟩ | ⟨e', _, rfl⟩
  · cases herr
  · cases herr
    exact raise_eq e _

/-- Settles O9: the word's fields decide the error, and a rule raises InvalidInput or LengthMismatch only. -/
theorem invalidSchemeExactly : Obligations.InvalidSchemeExactly :=
  ⟨fun c => (decode_invalidScheme_iff c).trans (mem_invalidSchemeWords_iff c).symm,
    fun _ _ _ hexec => (exec_not_wordError hexec).1, fun _ _ => step_of_decode_error⟩

/-- Settles O10: as for InvalidScheme, with the words of 30_encoding.md R85 and R86. -/
theorem illegalCommandExactly : Obligations.IllegalCommandExactly :=
  ⟨decode_illegalCommand_iff, fun _ _ _ hexec => (exec_not_wordError hexec).2, fun _ _ => step_of_decode_error⟩

/-- Settles O12: LengthMismatch comes from COUNT's rule alone, and error entry sets FATAL for it. -/
theorem lengthMismatchExactly : Obligations.LengthMismatchExactly := by
  intro i s t hexec
  rw [errCode_exec_iff hexec, ← ruleOf_lengthMismatch_iff]
  refine ⟨Iff.rfl, fun hrule => ?_⟩
  rw [exec_of_rule_error hrule] at hexec
  cases hexec
  rfl

/-- Settles O11: a command that does not succeed and does not find a length mismatch ends with InvalidInput, and each
rule's success is the conjunction of its checks. -/
theorem invalidInputExactly : Obligations.InvalidInputExactly := by
  intro i s t hexec
  rw [errCode_exec_iff hexec, ruleOf_invalidInput_iff, ruleOf_lengthMismatch_iff]
  cases i
  case nop | clear => simp [ruleOf]
  case modBpsk | modQpsk | demodBpsk | demodQpsk | estimate =>
    simp only [ruleOf, modBpskRule_ok, modQpskRule_ok, demodBpskRule_ok, demodQpskRule_ok, estimateRule_ok,
      bpskCountValid_iff, qpskCountValid_iff, demodBpskCountValid_iff, demodQpskCountValid_iff,
      exists_and_left, exists_eq, and_true, reduceCtorEq, false_and, not_false_eq_true]
    omega
  case awgnBpsk | awgnQpsk =>
    simp only [ruleOf, awgnBpskRule_ok, awgnQpskRule_ok, awgnBpskCountValid_iff, awgnQpskCountValid_iff,
      ← Bool.not_eq_true, exists_and_left, exists_eq, and_true, reduceCtorEq, false_and, not_false_eq_true]
    grind
  case count =>
    simp only [ruleOf, countRule_ok, bpskCountValid_iff, bitCntOverflows_iff, bitCount, ← Bool.not_eq_true,
      exists_and_left, exists_eq, and_true, true_and]
    omega
  case runBpsk | runQpsk =>
    simp only [ruleOf, runBpskRule_ok, runQpskRule_ok, bpskCountValid_iff, qpskCountValid_iff, bitCntOverflows_iff,
      bitCount, ← Bool.not_eq_true, exists_and_left, exists_eq, and_true, reduceCtorEq, false_and, not_false_eq_true]
    grind

/-- Settles O7: the step is the CMD register's write, which is `submit`. -/
theorem commandAcceptanceOrDrop : Obligations.CommandAcceptanceOrDrop := by
  intro s es c hevent
  rw [step_write_reg (r := .cmd) hevent (by decide) (by decide) rfl, writeReg]
  refine ⟨fun hidle hlive => ?_, fun hrefuse => ?_⟩
  · rw [submit_accepts (s := { s with events := es }) hidle hlive]
    rfl
  · rw [submit_drops (s := { s with events := es }) hrefuse]
    rfl

end Sys2Proof.Machine
end

section
/-! Invariants of a step: a predicate that each kind of move keeps is kept by every step, and what a host transaction
leaves of the state (10_state.md R36, R38, R46; 20_memory.md R53, R57, R59). -/

namespace Sys2Proof.Machine

/-! ### Moves -/

/-- A predicate that every kind of move keeps. -/
structure KeptByMoves (P : State → Prop) : Prop where
  onEvents : ∀ {s : State} (es : List Event), P s → P { s with events := es }
  onSuccess : ∀ {i : Instr} {s u : State}, P s → s.status.busy = true → ruleOf i s = .ok u → P (retire u)
  onError : ∀ {s : State} (e : CmdError), P s → s.status.busy = true → P (raise e s)
  onHost : ∀ {s : State} (x : Transaction), P s → P (transact x s)
  onReset : ∀ {s : State} (lost : Option Transaction), P s → P (resetBlock (loseTransaction lost s))

/-- What every kind of move keeps, every step keeps. -/
theorem KeptByMoves.step {P : State → Prop} (kept : KeptByMoves P) {s t : State} (hP : P s) (h : step s = .next t) :
    P t := by
  rcases step_cases h with ⟨es, _, _, rfl⟩ | ⟨es, _, hbusy, hturn⟩ | ⟨x, es, _, rfl⟩ | ⟨lost, es, _, rfl⟩
  · exact kept.onEvents es hP
  · rcases blockTurn_busy (s := { s with events := es }) hbusy hturn with ⟨i, u, _, hrule, rfl⟩ | ⟨e, _, rfl⟩
    · exact kept.onSuccess (kept.onEvents es hP) hbusy hrule
    · exact kept.onError e (kept.onEvents es hP) hbusy
  · exact kept.onHost x (kept.onEvents es hP)
  · exact kept.onReset lost (kept.onEvents es hP)

/-! ### What a host transaction leaves -/

/-- No host transaction touches the results, NMAX, FATAL, ERRCODE or the reset count (10_state.md R38). -/
theorem transact_keeps_results (x : Transaction) (s : State) :
    (transact x s).sigma = s.sigma ∧ (transact x s).errCnt = s.errCnt ∧ (transact x s).bitCnt = s.bitCnt ∧
      (transact x s).ber = s.ber ∧ (transact x s).nmax = s.nmax ∧
      (transact x s).status.fatal = s.status.fatal ∧ (transact x s).status.errCode = s.status.errCode ∧
      (transact x s).epoch = s.epoch := by
  cases x with
  | read a =>
    rw [transact, hostRead_eq]
    simp
  | write a v =>
    rw [transact]
    rcases hostWrite_cases a v s with h | h | ⟨_, h⟩ | ⟨_, h⟩ | ⟨_, _, _, h⟩ | ⟨_, _, _, _, _, _, h⟩ | ⟨_, _, h⟩ <;>
      simp [h]

/-- A host transaction leaves the buffers as they are, or writes one word of a buffer. -/
theorem transact_mem (x : Transaction) (s : State) :
    (transact x s).mem = s.mem ∨
      ∃ a v r, locate s.nMax a = .buffer r ∧ (transact x s).mem = storeBytes s.mem a.toNat v 8 := by
  cases x with
  | read a =>
    rw [transact, hostRead_eq]
    exact .inl rfl
  | write a v =>
    rw [transact]
    rcases hostWrite_cases a v s with h | h | ⟨_, h⟩ | ⟨_, h⟩ | ⟨_, _, _, h⟩ | ⟨_, _, _, _, _, _, h⟩ | ⟨_, ⟨r, hr⟩, h⟩
    case inr.inr.inr.inr.inr.inr => exact .inr ⟨a, v, r, hr, by rw [h]; rfl⟩
    all_goals exact .inl (by simp [h])

theorem resetBlock_lose_nmax (lost : Option Transaction) (s : State) :
    (resetBlock (loseTransaction lost s)).nmax = s.nmax := by
  rw [resetBlock_loseTransaction]

/-! ### The canonical form of memory -/

theorem keptByMoves_wf : KeptByMoves fun s => Memory.wf s.mem = true where
  onEvents _ hwf := hwf
  onSuccess hwf _ hrule := by simpa using ruleOf_keeps_wf hrule hwf
  onError _ hwf _ := hwf
  onHost {s} x hwf := by
    rcases transact_mem x s with h | ⟨a, v, _, _, h⟩ <;> rw [h]
    · exact hwf
    · exact Memory.wf_storeBytes _ _ _ hwf
  onReset _ _ := rfl

/-- Settles O55: bytes are inserted in order, and a reset empties the list. -/
theorem stepKeepsMemoryCanonical : Obligations.StepKeepsMemoryCanonical :=
  fun _ _ hwf hstep => keptByMoves_wf.step hwf hstep

/-! ### The capacity -/

theorem ruleOf_keeps_nMax {i : Instr} {s u : State} (h : ruleOf i s = .ok u) : u.nMax = s.nMax := by
  obtain ⟨_, _, _, _, hnmax, _⟩ := ruleOf_keeps h
  rw [State.nMax, State.nMax, hnmax]

theorem transact_nMax (x : Transaction) (s : State) : (transact x s).nMax = s.nMax := by
  obtain ⟨_, _, _, _, hnmax, _⟩ := transact_keeps_results x s
  rw [State.nMax, State.nMax, hnmax]

theorem keptByMoves_nmax (n : Word) : KeptByMoves fun s => s.nmax = n where
  onEvents _ hn := hn
  onSuccess hn _ hrule := by
    obtain ⟨_, _, _, _, hnmax, _⟩ := ruleOf_keeps hrule
    exact hnmax.trans hn
  onError _ hn _ := hn
  onHost {s} x hn := by
    obtain ⟨_, _, _, _, hnmax, _⟩ := transact_keeps_results x s
    exact hnmax.trans hn
  onReset lost hn := (resetBlock_lose_nmax lost _).trans hn

/-- Settles O54: no move writes NMAX, a reset included. -/
theorem capacityNeverChanges : Obligations.CapacityNeverChanges :=
  fun s _ hstep => (keptByMoves_nmax s.nmax).step rfl hstep

/-! ### Bytes inside the buffers -/

/-- Each cell of a memory is one the state held before or lies in a buffer. -/
def StoresMapped (s : State) (m : Memory) : Prop := ∀ c ∈ m, c ∈ s.mem ∨ InBuffer s.nMax c.1

theorem StoresMapped.trans {s u : State} {m : Memory} (h : StoresMapped s u.mem) (hn : u.nMax = s.nMax)
    (h' : StoresMapped u m) : StoresMapped s m := by
  intro c hc
  rcases h' c hc with hold | hnew
  · exact h c hold
  · exact .inr (hn ▸ hnew)

theorem StoresMapped.buffersMapped {s u : State} (h : StoresMapped s u.mem) (hn : u.nMax = s.nMax)
    (hs : BuffersMapped s) : BuffersMapped u := by
  intro c hc
  rw [hn]
  exact (h c hc).elim (hs c) id

/-- A loop over at most N_MAX symbols stays in its buffer. -/
theorem storesMapped_storeSymbols {s : State} {r : Region} (hr : ∀ n, r.bytes n = 16 * n) (re im : Nat → Word) {m : Nat}
    (hm : m ≤ s.nMax) : StoresMapped s (storeSymbols r.base re im m s).mem := by
  intro c hc
  rcases mem_storeSymbols _ _ _ _ _ hc with ⟨hlo, hhi⟩ | hold
  · exact .inr ⟨r, hlo, by rw [hr]; omega⟩
  · exact .inl hold

/-- A loop over at most N_MAX bits stays in RXB: N_MAX is a multiple of 64, so the last word is whole. -/
theorem storesMapped_storeBits {s : State} (hcap : CapacityLegal s) (f : Nat → Bool) {n : Nat} (hn : n ≤ s.nMax) :
    StoresMapped s (storeBits rxbBase f n s).mem := by
  obtain ⟨hmul, _, _⟩ := hcap
  intro c hc
  rcases mem_storeBits _ _ _ _ hc with ⟨hlo, hhi⟩ | hold
  · exact .inr ⟨.rxb, hlo, by rw [Region.bytes, Region.base]; omega⟩
  · exact .inl hold

theorem storesMapped_modBpsk {s : State} {n : Nat} (hn : n ≤ s.nMax) : StoresMapped s (modBpskBody n s).mem := by
  rw [modBpskBody_eq]
  exact storesMapped_storeSymbols (r := .sym) (fun _ => rfl) _ _ hn

theorem storesMapped_modQpsk {s : State} {n : Nat} (hn : n ≤ s.nMax) : StoresMapped s (modQpskBody n s).mem := by
  rw [modQpskBody_eq]
  exact storesMapped_storeSymbols (r := .sym) (fun _ => rfl) _ _ (by omega)

theorem storesMapped_awgnBpsk {s : State} (sigma : Word) {m : Nat} (hm : m ≤ s.nMax) :
    StoresMapped s (awgnBpskBody sigma m s).mem := by
  rw [awgnBpskBody_eq]
  exact storesMapped_storeSymbols (r := .rsym) (fun _ => rfl) _ _ hm

theorem storesMapped_awgnQpsk {s : State} (sigma : Word) {m : Nat} (hm : m ≤ s.nMax) :
    StoresMapped s (awgnQpskBody sigma m s).mem := by
  rw [awgnQpskBody_eq]
  exact storesMapped_storeSymbols (r := .rsym) (fun _ => rfl) _ _ hm

theorem storesMapped_demodBpsk {s : State} (hcap : CapacityLegal s) {m : Nat} (hm : m ≤ s.nMax) :
    StoresMapped s (demodBpskBody m s).mem := by
  rw [demodBpskBody_eq]
  exact storesMapped_storeBits hcap _ hm

theorem storesMapped_demodQpsk {s : State} (hcap : CapacityLegal s) {m : Nat} (hm : 2 * m ≤ s.nMax) :
    StoresMapped s (demodQpskBody m s).mem := by
  rw [demodQpskBody_eq]
  exact storesMapped_storeBits hcap _ hm

/-- The bit count of a command whose check passed, as a number. -/
theorem bitCount_toNat_bounds {s : State} (h : bpskCountValid s = true) :
    1 ≤ (bitCount s).toNat ∧ (bitCount s).toNat ≤ s.nMax := by
  rw [bpskCountValid_iff] at h
  rw [bitCount]
  omega

theorem bpskCountValid_of_qpsk {s : State} (h : qpskCountValid s = true) : bpskCountValid s = true := by
  rw [qpskCountValid, Bool.and_eq_true] at h
  exact h.1

/-- The checks of a command bound every store of its body. -/
theorem ruleOf_storesMapped {i : Instr} {s u : State} (hcap : CapacityLegal s) (h : ruleOf i s = .ok u) :
    StoresMapped s u.mem := by
  have unchanged : StoresMapped s s.mem := fun _ hc => .inl hc
  cases i with
  | nop | clear => cases h; exact unchanged
  | count => obtain ⟨_, _, _, rfl⟩ := countRule_ok.mp h; exact unchanged
  | estimate => obtain ⟨_, rfl⟩ := estimateRule_ok.mp h; exact unchanged
  | modBpsk =>
    obtain ⟨hvalid, rfl⟩ := modBpskRule_ok.mp h
    exact storesMapped_modBpsk (bitCount_toNat_bounds hvalid).2
  | modQpsk =>
    obtain ⟨hvalid, rfl⟩ := modQpskRule_ok.mp h
    exact storesMapped_modQpsk (bitCount_toNat_bounds (bpskCountValid_of_qpsk hvalid)).2
  | awgnBpsk =>
    obtain ⟨hvalid, _, rfl⟩ := awgnBpskRule_ok.mp h
    rw [awgnBpskCountValid_iff] at hvalid
    exact storesMapped_awgnBpsk _ hvalid.2
  | awgnQpsk =>
    obtain ⟨hvalid, _, rfl⟩ := awgnQpskRule_ok.mp h
    rw [awgnQpskCountValid_iff] at hvalid
    exact storesMapped_awgnQpsk _ (by omega)
  | demodBpsk =>
    obtain ⟨hvalid, rfl⟩ := demodBpskRule_ok.mp h
    rw [demodBpskCountValid_iff] at hvalid
    exact storesMapped_demodBpsk hcap hvalid.2
  | demodQpsk =>
    obtain ⟨hvalid, rfl⟩ := demodQpskRule_ok.mp h
    rw [demodQpskCountValid_iff] at hvalid
    exact storesMapped_demodQpsk hcap (by omega)
  | runBpsk =>
    obtain ⟨hvalid, _, _, rfl⟩ := runBpskRule_ok.mp h
    have hn := (bitCount_toNat_bounds hvalid).2
    generalize (bitCount s).toNat = n at hn
    generalize sigmaBpsk s.draws s.snrDb = sigma
    have hmod : (modBpskBody n s).nMax = s.nMax := by rw [modBpskBody_eq]; rfl
    have hawgn : (awgnBpskBody sigma n (modBpskBody n s)).nMax = s.nMax := by rw [awgnBpskBody_eq]; exact hmod
    refine .trans (.trans (storesMapped_modBpsk hn) hmod (storesMapped_awgnBpsk sigma (hmod ▸ hn))) hawgn ?_
    exact storesMapped_demodBpsk (by rwa [CapacityLegal, hawgn]) (hawgn ▸ hn)
  | runQpsk =>
    obtain ⟨hvalid, _, _, rfl⟩ := runQpskRule_ok.mp h
    have hn := (bitCount_toNat_bounds (bpskCountValid_of_qpsk hvalid)).2
    generalize (bitCount s).toNat = n at hn
    generalize sigmaQpsk s.draws s.snrDb = sigma
    have hmod : (modQpskBody n s).nMax = s.nMax := by rw [modQpskBody_eq]; rfl
    have hawgn : (awgnQpskBody sigma (n / 2) (modQpskBody n s)).nMax = s.nMax := by rw [awgnQpskBody_eq]; exact hmod
    refine .trans (.trans (storesMapped_modQpsk hn) hmod (storesMapped_awgnQpsk sigma (by omega))) hawgn ?_
    exact storesMapped_demodQpsk (by rwa [CapacityLegal, hawgn]) (by omega)

theorem inBuffer_of_wordAt {n : Nat} {a : Addr} {r : Region} (hn : n % 64 = 0) (h : locate n a = .buffer r) {x : Nat}
    (hx : a.toNat ≤ x ∧ x < a.toNat + 8) : InBuffer n x := by
  obtain ⟨halign, hlo, hhi⟩ := locate_eq_buffer h
  have hwhole : (r.base + r.bytes n) % 8 = 0 := by
    cases r <;> simp only [Region.base, Region.bytes, txbBase, rxbBase, noiseBase, symBase, rsymBase] <;> omega
  exact ⟨r, by omega, by omega⟩

theorem keptByMoves_buffersMapped : KeptByMoves fun s => CapacityLegal s ∧ BuffersMapped s where
  onEvents _ h := h
  onSuccess {_ s u} h _ hrule := by
    obtain ⟨hcap, hmapped⟩ := h
    have hn := ruleOf_keeps_nMax hrule
    refine ⟨?_, (ruleOf_storesMapped hcap hrule).buffersMapped hn hmapped⟩
    rwa [CapacityLegal, retire_nMax, hn]
  onError _ h _ := h
  onHost {s} x h := by
    obtain ⟨hcap, hmapped⟩ := h
    have hn := transact_nMax x s
    refine ⟨by rwa [CapacityLegal, hn], StoresMapped.buffersMapped ?_ hn hmapped⟩
    rcases transact_mem x s with hmem | ⟨a, v, r, hloc, hmem⟩ <;> rw [hmem]
    · exact fun _ hc => .inl hc
    · intro c hc
      exact (mem_storeBytes hc).elim (fun hx => .inr (inBuffer_of_wordAt hcap.1 hloc hx)) .inl
  onReset {s} lost h := by
    refine ⟨?_, fun c hc => absurd hc List.not_mem_nil⟩
    rw [CapacityLegal, State.nMax, resetBlock_lose_nmax]
    exact h.1

/-- Settles O56: a legal capacity makes every buffer a whole number of words, and every store lies below its check. -/
theorem stepKeepsBuffersMapped : Obligations.StepKeepsBuffersMapped :=
  fun _ _ hcap hmapped hstep => (keptByMoves_buffersMapped.step ⟨hcap, hmapped⟩ hstep).2

/-! ### The counters -/

/-- COUNT adds at most as many errors as bits, and neither sum wraps (43_ber_counter.md R160). -/
theorem countBody_counters {s : State} {n : Nat} (hord : CountersOrdered s) (hfits : u64 s.bitCnt + n ≤ 2 ^ 64 - 1) :
    u64 (countBody n s).errCnt = u64 s.errCnt + bitErrors s n ∧ u64 (countBody n s).bitCnt = u64 s.bitCnt + n := by
  have herr := bitErrors_le s n
  rw [CountersOrdered] at hord
  exact ⟨countWord_toNat (by omega), countWord_toNat (by omega)⟩

theorem countBody_ordered {s : State} {n : Nat} (hord : CountersOrdered s) (hfits : bitCntOverflows s n = false) :
    CountersOrdered (countBody n s) := by
  have herr := bitErrors_le s n
  rw [← Bool.not_eq_true, bitCntOverflows_iff] at hfits
  obtain ⟨hsumErr, hsumBit⟩ := countBody_counters (n := n) hord (by omega)
  rw [CountersOrdered] at hord ⊢
  omega

/-- MOD, AWGN and DEMOD leave the counters. -/
theorem runBpskStages_counters (sigma : Word) (n : Nat) (s : State) :
    let u := demodBpskBody n (awgnBpskBody sigma n (modBpskBody n s))
    u.errCnt = s.errCnt ∧ u.bitCnt = s.bitCnt := by
  simp [demodBpskBody_eq, awgnBpskBody_eq, modBpskBody_eq]

theorem runQpskStages_counters (sigma : Word) (n : Nat) (s : State) :
    let u := demodQpskBody (n / 2) (awgnQpskBody sigma (n / 2) (modQpskBody n s))
    u.errCnt = s.errCnt ∧ u.bitCnt = s.bitCnt := by
  simp [demodQpskBody_eq, awgnQpskBody_eq, modQpskBody_eq]

/-- COUNT keeps the order also from a state that an earlier stage of RUN left. -/
theorem countBody_ordered_of_counters {s u : State} {n : Nat} (hu : u.errCnt = s.errCnt ∧ u.bitCnt = s.bitCnt)
    (hord : CountersOrdered s) (hfits : bitCntOverflows s n = false) : CountersOrdered (countBody n u) := by
  refine countBody_ordered ?_ ?_
  · rwa [CountersOrdered, hu.1, hu.2]
  · rwa [bitCntOverflows, hu.2]

theorem ruleOf_keeps_counters {i : Instr} {s u : State} (hord : CountersOrdered s) (h : ruleOf i s = .ok u) :
    CountersOrdered u := by
  cases i with
  | nop => cases h; exact hord
  | clear => cases h; exact Nat.le_refl 0
  | modBpsk => obtain ⟨_, rfl⟩ := modBpskRule_ok.mp h; rw [modBpskBody_eq]; exact hord
  | modQpsk => obtain ⟨_, rfl⟩ := modQpskRule_ok.mp h; rw [modQpskBody_eq]; exact hord
  | awgnBpsk => obtain ⟨_, _, rfl⟩ := awgnBpskRule_ok.mp h; rw [awgnBpskBody_eq]; exact hord
  | awgnQpsk => obtain ⟨_, _, rfl⟩ := awgnQpskRule_ok.mp h; rw [awgnQpskBody_eq]; exact hord
  | demodBpsk => obtain ⟨_, rfl⟩ := demodBpskRule_ok.mp h; rw [demodBpskBody_eq]; exact hord
  | demodQpsk => obtain ⟨_, rfl⟩ := demodQpskRule_ok.mp h; rw [demodQpskBody_eq]; exact hord
  | count => obtain ⟨_, _, hfits, rfl⟩ := countRule_ok.mp h; exact countBody_ordered hord hfits
  | estimate => obtain ⟨_, rfl⟩ := estimateRule_ok.mp h; exact hord
  | runBpsk =>
    obtain ⟨_, _, hfits, rfl⟩ := runBpskRule_ok.mp h
    exact countBody_ordered_of_counters (runBpskStages_counters _ _ s) hord hfits
  | runQpsk =>
    obtain ⟨_, _, hfits, rfl⟩ := runQpskRule_ok.mp h
    exact countBody_ordered_of_counters (runQpskStages_counters _ _ s) hord hfits

theorem keptByMoves_countersOrdered : KeptByMoves CountersOrdered where
  onEvents _ hord := hord
  onSuccess hord _ hrule := by simpa [CountersOrdered] using ruleOf_keeps_counters hord hrule
  onError _ hord _ := hord
  onHost {s} x hord := by
    obtain ⟨_, herr, hbit, _⟩ := transact_keeps_results x s
    rwa [CountersOrdered, herr, hbit]
  onReset _ _ := Nat.le_refl 0

/-- Settles O58: COUNT and RUN add at most as many errors as bits, CLEAR and a reset zero both. -/
theorem stepKeepsCountersOrdered : Obligations.StepKeepsCountersOrdered :=
  fun _ _ hord hstep => keptByMoves_countersOrdered.step hord hstep

end Sys2Proof.Machine
end

section
/-! The command lifecycle (60_exceptions.md R207 to R220) and what a host transaction may change while a command is in
flight (20_memory.md R59, R67). -/

namespace Sys2Proof.Machine

/-! ### Registers by their offset -/

/-- The offset of each register (10_state.md R21). -/
def Reg.offset : Reg → Nat
  | .id => 0x000
  | .ctrl => 0x008
  | .status => 0x010
  | .cmd => 0x018
  | .nBits => 0x020
  | .snrDb => 0x028
  | .symN => 0x030
  | .rsymN => 0x038
  | .rxN => 0x040
  | .sigma => 0x048
  | .errCnt => 0x050
  | .bitCnt => 0x058
  | .ber => 0x060
  | .nmax => 0x068

theorem eq_offset_of_regAt {a : Nat} {r : Reg} (h : regAt a = .reg r) : a = r.offset := by
  unfold regAt at h
  split at h <;> cases h <;> rfl

/-- A register has one address. -/
theorem eq_addr_of_locate_reg {n : Nat} {a : Addr} {r : Reg} (h : locate n a = .reg r) :
    a = BitVec.ofNat 28 r.offset := by
  obtain ⟨_, hreg⟩ := locate_eq_reg h
  rw [← eq_offset_of_regAt hreg, BitVec.ofNat_toNat, BitVec.setWidth_eq]

/-! ### A completion -/

/-- The block's turn with a command in flight, as one step. -/
theorem step_completes {s t : State} {es : List Event} (hturn : BlockTurn s es) (h : step s = .next t) : blockTurn { s with events := es } = .next t := by
  rwa [step_of_blockTurn hturn] at h

/-- The block's turn always has a next state. -/
theorem blockTurn_total (s : State) : ∃ t, blockTurn s = .next t := by
  cases hbusy : s.status.busy with
  | false => exact ⟨s, blockTurn_idle hbusy⟩
  | true =>
    rw [blockTurn, if_pos hbusy, completeCommand]
    cases decode s.cur with
    | error e => exact ⟨_, rfl⟩
    | ok i =>
      cases hrule : ruleOf i s with
      | ok u => exact ⟨_, exec_of_rule_ok hrule⟩
      | error e => exact ⟨_, exec_of_rule_error hrule⟩

/-- Settles O6: each kind of move gives a next state. -/
theorem everyStepHasANextState : Obligations.EveryStepHasANextState := by
  intro s
  cases hev : s.events with
  | nil =>
    rw [step_of_blockTurn (.inr ⟨hev, rfl⟩)]
    exact blockTurn_total _
  | cons e es =>
    cases e with
    | host x => exact ⟨_, step_host hev⟩
    | reset lost => exact ⟨_, step_reset hev⟩
    | complete =>
      rw [step_of_blockTurn (.inl hev)]
      exact blockTurn_total _

/-- Settles O5: the completion step executes the command that CUR decodes to. -/
theorem stepRunsDecodedCommand : Obligations.StepRunsDecodedCommand := by
  intro s es hturn
  rw [step_of_blockTurn hturn]
  constructor
  · intro i hbusy hdecode _
    rw [blockTurn, if_pos hbusy, completeCommand, hdecode]
  · exact fun hidle => blockTurn_idle (s := { s with events := es }) hidle

/-! ### Host transactions and the lifecycle -/

/-- While a command is in flight a host transaction changes at most IE, DONE, DROP, the read-data latch and the draw
counter (20_memory.md R67). -/
theorem transact_busy {s : State} (hbusy : s.status.busy = true) (x : Transaction) :
    ∃ (ie done drop : Bool) (draws : Nat) (rdata : Word),
      transact x s = { s with ie := ie, draws := draws, rdata := rdata,
                              status := { s.status with done := done, drop := drop } } := by
  cases x with
  | read a => exact ⟨s.ie, s.status.done, s.status.drop, _, _, hostRead_eq a s⟩
  | write a v =>
    rw [transact]
    rcases hostWrite_cases a v s with h | h | ⟨_, h⟩ | ⟨_, h⟩ | ⟨_, hidle, _⟩ | ⟨hidle, _⟩ | ⟨hidle, _⟩
    · exact ⟨s.ie, s.status.done, s.status.drop, s.draws, s.rdata, h⟩
    · exact ⟨s.ie, s.status.done, true, s.draws, s.rdata, h⟩
    · exact ⟨v.getLsbD 0, s.status.done, s.status.drop, s.draws, s.rdata, h⟩
    · exact ⟨s.ie, _, _, s.draws, s.rdata, h⟩
    all_goals rw [hbusy] at hidle; cases hidle

/-- Settles O18: `transact_busy`, with the transaction taken from the events. -/
theorem inputsFrozenWhileBusy : Obligations.InputsFrozenWhileBusy := by
  intro s t x es hbusy hevent hstep
  rw [step_host hevent] at hstep
  cases hstep
  obtain ⟨ie, done, drop, draws, rdata, h⟩ := transact_busy (s := { s with events := es }) hbusy x
  exact ⟨ie, done, drop, draws, rdata, h⟩

/-- Settles O30: the results, FATAL and ERRCODE are no host transaction's to change. -/
theorem hostCannotWriteResults : Obligations.HostCannotWriteResults := by
  intro s t x es hevent hstep
  rw [step_host hevent] at hstep
  cases hstep
  obtain ⟨hsigma, herr, hbit, hber, hnmax, hfatal, hcode, hepoch⟩ := transact_keeps_results x { s with events := es }
  refine ⟨hsigma, herr, hbit, hber, hnmax, hfatal, hcode, hepoch, ?_⟩
  rintro a rfl
  exact hostRead_eq a { s with events := es }

/-- With FATAL = 1 and no command in flight, a host transaction leaves CUR and starts no command (60_exceptions.md
R211). -/
theorem transact_fatal_idle {s : State} (hfatal : s.status.fatal = true) (hidle : s.status.busy = false)
    (x : Transaction) : (transact x s).status.busy = false ∧ (transact x s).cur = s.cur := by
  cases x with
  | read a =>
    rw [transact, hostRead_eq]
    exact ⟨hidle, rfl⟩
  | write a v =>
    rw [transact]
    rcases hostWrite_cases a v s with h | h | ⟨_, h⟩ | ⟨_, h⟩ | ⟨_, _, hlive, _⟩ | ⟨_, _, _, _, _, _, h⟩ | ⟨_, _, h⟩
    case inr.inr.inr.inr.inl => rw [hfatal] at hlive; cases hlive
    all_goals simp [h, hidle]

/-- Settles O13: a completion never clears FATAL, and the host can neither clear it nor have a command accepted. -/
theorem fatalLastsUntilReset : Obligations.FatalLastsUntilReset := by
  intro s t hfatal hstep hnoReset
  rcases step_cases hstep with ⟨es, _, _, rfl⟩ | ⟨es, _, hbusy, hturn⟩ | ⟨x, es, _, rfl⟩ | ⟨lost, es, hreset, _⟩
  · exact ⟨hfatal, fun hidle => ⟨hidle, rfl⟩⟩
  · obtain ⟨_, _, _, _, _, hkeeps⟩ := blockTurn_lifecycle (s := { s with events := es }) hbusy hturn
    exact ⟨hkeeps hfatal, fun hidle => absurd (hidle.symm.trans hbusy) Bool.false_ne_true⟩
  · obtain ⟨_, _, _, _, _, hkept, _⟩ := transact_keeps_results x { s with events := es }
    exact ⟨hkept.trans hfatal, fun hidle => transact_fatal_idle (s := { s with events := es }) hfatal hidle x⟩
  · exact absurd hreset (hnoReset lost es)

/-- Only a STATUS write with bit 3 set lets a host transaction clear DROP. -/
theorem transact_clears_drop {s : State} {x : Transaction} (hdrop : s.status.drop = true)
    (h : (transact x s).status.drop = false) : ∃ v, x = .write 0x0000010 v ∧ v.getLsbD 3 = true := by
  cases x with
  | read a =>
    rw [transact, hostRead_eq] at h
    exact absurd (hdrop.symm.trans h) Bool.true_eq_false.mp
  | write a v =>
    rw [transact] at h
    rcases hostWrite_cases a v s with hw | hw | ⟨_, hw⟩ | ⟨hloc, hw⟩ | ⟨_, _, _, hw⟩ | ⟨_, _, _, _, _, _, hw⟩ |
      ⟨_, _, hw⟩
    case inr.inr.inr.inl =>
      obtain rfl := eq_addr_of_locate_reg hloc
      refine ⟨v, rfl, ?_⟩
      rw [hw] at h
      simpa [hdrop] using h
    all_goals simp [hw, hdrop] at h

/-- Settles O14: neither the block's turn nor any other transaction touches DROP where it is 1. -/
theorem dropLastsUntilClearedOrReset : Obligations.DropLastsUntilClearedOrReset := by
  intro s t hdrop hstep hcleared
  rcases step_cases hstep with ⟨es, _, _, rfl⟩ | ⟨es, _, hbusy, hturn⟩ | ⟨x, es, hevent, rfl⟩ | ⟨lost, es, hreset, _⟩
  · exact absurd (hdrop.symm.trans hcleared) Bool.true_eq_false.mp
  · obtain ⟨_, _, _, _, hkept, _⟩ := blockTurn_lifecycle (s := { s with events := es }) hbusy hturn
    exact absurd (hdrop.symm.trans (hkept.symm.trans hcleared)) Bool.true_eq_false.mp
  · obtain ⟨v, rfl, hbit⟩ := transact_clears_drop (s := { s with events := es }) hdrop hcleared
    exact .inl ⟨v, es, hevent, hbit⟩
  · exact .inr ⟨lost, es, hreset⟩

/-! ### The interrupt -/

/-- A completion leaves DONE at 1, so irq shows IE (60_exceptions.md R213). -/
theorem irq_of_completion {s t : State} {es : List Event} (hbusy : s.status.busy = true)
    (hturn : blockTurn { s with events := es } = .next t) : t.irq = s.ie := by
  obtain ⟨_, hdone, hie, _⟩ := blockTurn_lifecycle (s := { s with events := es }) hbusy hturn
  rw [State.irq, hdone, hie, Bool.and_true]

/-- A host transaction raises irq only by setting IE while DONE = 1. -/
theorem transact_raises_irq {s : State} {x : Transaction} (hlow : s.irq = false) (h : (transact x s).irq = true) :
    s.status.done = true ∧ ∃ v, x = .write 0x0000008 v ∧ v.getLsbD 0 = true := by
  rw [State.irq] at hlow h
  cases x with
  | read a =>
    rw [transact, hostRead_eq] at h
    exact absurd (hlow.symm.trans h) Bool.false_ne_true
  | write a v =>
    rw [transact] at h
    rcases hostWrite_cases a v s with hw | hw | ⟨hloc, hw⟩ | ⟨_, hw⟩ | ⟨_, _, _, hw⟩ | ⟨_, _, _, _, _, _, hw⟩ |
      ⟨_, _, hw⟩
    case inr.inr.inl =>
      obtain rfl := eq_addr_of_locate_reg hloc
      rw [hw, Bool.and_eq_true] at h
      exact ⟨h.2, v, rfl, h.1⟩
    case inr.inr.inr.inl =>
      simp only [hw, Status.writeOneToClear_done, Bool.and_eq_true] at h
      obtain ⟨hie, hdone⟩ := h
      split at hdone
      · cases hdone
      · rw [hie, hdone] at hlow; cases hlow
    all_goals simp [hw, hlow] at h

/-- Settles O15: DONE rises at a completion alone, and IE by a write to CTRL alone. -/
theorem interruptRisesOnlyByCompletionOrEnable : Obligations.InterruptRisesOnlyByCompletionOrEnable := by
  constructor
  · intro s t hlow hstep hhigh
    rcases step_cases hstep with ⟨es, _, _, rfl⟩ | ⟨es, hblock, hbusy, hturn⟩ | ⟨x, es, hevent, rfl⟩ |
      ⟨lost, es, _, rfl⟩
    · exact absurd (hlow.symm.trans hhigh) Bool.false_ne_true
    · exact .inl ⟨hbusy, (irq_of_completion hbusy hturn).symm.trans hhigh, es, hblock⟩
    · obtain ⟨hdone, v, rfl, hbit⟩ := transact_raises_irq (s := { s with events := es }) hlow hhigh
      exact .inr ⟨hdone, v, es, hevent, hbit⟩
    · cases hhigh
  · intro s t es hblock hbusy hstep
    exact irq_of_completion hbusy (step_completes hblock hstep)

/-! ### Completion is guaranteed -/

/-- One more step at the front of a run, of any machine. -/
theorem run_succ_of_step {M : Host.Core} {s t : M.State} (h : M.step s = .next t) (k : Nat) :
    M.run (k + 1) s = M.run k t := by
  rw [Host.Core.run, h]

/-- On the block's turn the command in flight completes at once. -/
theorem completes_on_blockTurn {s : State} {es : List Event} (hturn : BlockTurn s es) (hbusy : s.status.busy = true) :
    ∃ u, step s = .next u ∧ u.status.busy = false ∧ u.status.done = true := by
  obtain ⟨u, hstep⟩ := everyStepHasANextState s
  obtain ⟨hidle, hdone, _⟩ :=
    blockTurn_lifecycle (s := { s with events := es }) hbusy (step_completes hturn hstep)
  exact ⟨u, hstep, hidle, hdone⟩

/-- Settles O16, by induction on the pending events: a transaction before the block's turn keeps BUSY and CUR. -/
theorem commandInFlightCompletes : Obligations.CommandInFlightCompletes := by
  intro s
  generalize hev : s.events = evs
  induction evs generalizing s with
  | nil =>
    intro hbusy _
    exact ⟨0, s, Nat.le_refl _, rfl, hbusy, rfl, completes_on_blockTurn (.inr ⟨hev, rfl⟩) hbusy⟩
  | cons e es ih =>
    intro hbusy hnoReset
    cases e with
    | complete =>
      exact ⟨0, s, Nat.zero_le _, rfl, hbusy, rfl, completes_on_blockTurn (.inl hev) hbusy⟩
    | reset lost => exact absurd rfl (hnoReset (.reset lost) List.mem_cons_self lost)
    | host x =>
      obtain ⟨ie, done, drop, draws, rdata, hnext⟩ := transact_busy (s := { s with events := es }) hbusy x
      obtain ⟨k, t, hk, hrun, hbusy', hcur, hdone⟩ := ih (transact x { s with events := es }) (by rw [hnext])
        (by rw [hnext]; exact hbusy) fun e he => hnoReset e (List.mem_cons_of_mem _ he)
      exact ⟨k + 1, t, Nat.succ_le_succ hk, (run_succ_of_step (M := core) (step_host hev) k).trans hrun, hbusy',
        hcur.trans (by rw [hnext]), hdone⟩

/-! ### The idle latch -/

/-- The value at a location does not depend on CUR. -/
theorem readLocation_cur (s : State) (c : Word) (a : Addr) (loc : Location) :
    readLocation { s with cur := c } a loc = readLocation s a loc := by
  cases loc with
  | reg r => cases r <;> rfl
  | misaligned | reserved | buffer | unmapped => rfl

/-- `t'` is `t` with another CUR, which a command in flight does not leave free. -/
def LatchHidden (t t' : State) : Prop := ∃ d : Word, t' = { t with cur := d } ∧ (t.status.busy = true → d = t.cur)

theorem LatchHidden.refl (t : State) : LatchHidden t t := ⟨t.cur, rfl, fun _ => rfl⟩

theorem LatchHidden.of_idle {t : State} (hidle : t.status.busy = false) (c : Word) :
    LatchHidden t { t with cur := c } :=
  ⟨c, rfl, fun hbusy => absurd (hidle.symm.trans hbusy) Bool.false_ne_true⟩

/-- A register write does not look at CUR, and an acceptance latches its own word over it. -/
theorem writeReg_latchHidden {s : State} (hidle : s.status.busy = false) (v c : Word) (r : Reg) :
    LatchHidden (writeReg s v r) (writeReg { s with cur := c } v r) := by
  cases r with
  | cmd =>
    cases hlive : s.status.fatal with
    | false =>
      rw [writeReg, writeReg, submit_accepts hidle hlive, submit_accepts (s := { s with cur := c }) hidle hlive]
      exact .refl (accept v s)
    | true =>
      rw [writeReg, writeReg, submit_drops (.inr hlive), submit_drops (s := { s with cur := c }) (.inr hlive)]
      exact .of_idle (t := dropWrite s) hidle c
  | nBits | snrDb | symN | rsymN | rxN =>
    rw [writeReg, writeReg, unlessBusy_idle hidle, unlessBusy_idle (s := { s with cur := c }) hidle]
    refine LatchHidden.of_idle ?_ c
    exact hidle
  | id | ctrl | status | sigma | errCnt | bitCnt | ber | nmax =>
    refine LatchHidden.of_idle ?_ c
    exact hidle

theorem hostWrite_latchHidden {s : State} (hidle : s.status.busy = false) (a : Addr) (v c : Word) :
    LatchHidden (hostWrite a v s) (hostWrite a v { s with cur := c }) := by
  cases hloc : locate s.nMax a with
  | reg r =>
    rw [hostWrite_reg hloc, hostWrite_reg (s := { s with cur := c }) hloc]
    exact writeReg_latchHidden hidle v c r
  | buffer r =>
    rw [hostWrite_buffer hloc, hostWrite_buffer (s := { s with cur := c }) hloc, unlessBusy_idle hidle,
      unlessBusy_idle (s := { s with cur := c }) hidle]
    exact .of_idle (t := writeWord s a.toNat v) hidle c
  | misaligned | reserved | unmapped =>
    rw [hostWrite_dead (by rw [hloc]; decide),
      hostWrite_dead (s := { s with cur := c }) (by rw [show State.nMax { s with cur := c } = s.nMax from rfl, hloc]; decide)]
    exact .of_idle hidle c

theorem transact_latchHidden {s : State} (hidle : s.status.busy = false) (x : Transaction) (c : Word) :
    LatchHidden (transact x s) (transact x { s with cur := c }) := by
  cases x with
  | write a v => exact hostWrite_latchHidden hidle a v c
  | read a =>
    rw [transact, transact, hostRead_idle hidle, hostRead_idle (s := { s with cur := c }) hidle, readLocation_cur]
    refine LatchHidden.of_idle ?_ c
    exact hidle

theorem loseTransaction_cur (lost : Option Transaction) (s : State) (c : Word) :
    loseTransaction lost { s with cur := c } = { loseTransaction lost s with cur := c } := by
  cases lost with
  | none => rfl
  | some x => cases x <;> rfl

/-- A step to a state that hides the latch. -/
theorem LatchHidden.step {s' t t' : State} (h : LatchHidden t t') (hstep : Machine.step s' = .next t') :
    ∃ d : Word, Machine.step s' = .next { t with cur := d } ∧ (t.status.busy = true → d = t.cur) := by
  obtain ⟨d, rfl, hd⟩ := h
  exact ⟨d, hstep, hd⟩

/-- Settles O17: with no command in flight nothing reads CUR, and what writes it does not look at it first. -/
theorem idleLatchNeverShows : Obligations.IdleLatchNeverShows := by
  intro s t c hidle hstep
  rcases step_cases hstep with ⟨es, hturn, _, rfl⟩ | ⟨_, _, hbusy, _⟩ | ⟨x, es, hevent, rfl⟩ | ⟨lost, es, hreset, rfl⟩
  · have hidden := LatchHidden.of_idle (t := { s with events := es }) hidle c
    exact hidden.step ((stepRunsDecodedCommand { s with cur := c } es hturn).2 hidle)
  · rw [hidle] at hbusy; cases hbusy
  · have hidden := transact_latchHidden (s := { s with events := es }) hidle x c
    exact hidden.step (step_host (s := { s with cur := c }) hevent)
  · have hstep' := step_reset (s := { s with cur := c }) hreset
    rw [loseTransaction_cur lost { s with events := es } c] at hstep'
    exact (LatchHidden.refl (resetBlock (loseTransaction lost { s with events := es }))).step hstep'

end Sys2Proof.Machine
end

section
/-! The handshake and the results as invariants (60_exceptions.md R207 to R212; 43_ber_counter.md R162; 41_awgn.md R123),
and the state after reset (70_reset_and_hazards.md R230). -/

namespace Sys2Proof.Machine

/-! ### The handshake -/

theorem transact_keeps_handshake {s : State} (h : HandshakeSound s) (x : Transaction) :
    HandshakeSound (transact x s) := by
  cases x with
  | read a => rw [transact, hostRead_eq]; exact h
  | write a v =>
    obtain ⟨hbusy, hfatal⟩ := h
    rw [transact]
    rcases hostWrite_cases a v s with hw | hw | ⟨_, hw⟩ | ⟨_, hw⟩ | ⟨_, _, hlive, hw⟩ | ⟨_, _, _, _, _, _, hw⟩ |
      ⟨_, _, hw⟩ <;> rw [hw]
    case inr.inr.inr.inl =>
      refine ⟨fun hb => ⟨?_, (hbusy hb).2⟩, hfatal⟩
      simp [(hbusy hb).1]
    case inr.inr.inr.inr.inl =>
      exact ⟨fun _ => ⟨rfl, hlive⟩, fun hf => absurd (hlive.symm.trans hf) Bool.false_ne_true⟩
    all_goals exact ⟨hbusy, hfatal⟩

theorem keptByMoves_handshakeSound : KeptByMoves HandshakeSound where
  onEvents _ h := h
  onSuccess {_ s u} h hbusy hrule := by
    obtain ⟨_, hstatus, _⟩ := ruleOf_keeps hrule
    have hlive := (h.1 hbusy).2
    refine ⟨fun hb => (by cases hb), fun hf => ?_⟩
    rw [retire_status, Status.succeeded_fatal, hstatus, hlive] at hf
    cases hf
  onError {s} e h hbusy := by
    have hlive := (h.1 hbusy).2
    refine ⟨fun hb => (by cases hb), fun hf => ?_⟩
    rw [raise_status, Status.failed_fatal, hlive] at hf
    split at hf
    · rename_i he; rw [he]; rfl
    · cases hf
  onHost x h := transact_keeps_handshake h x
  onReset _ _ := ⟨fun hb => (by cases hb), fun hf => (by cases hf)⟩

/-- Settles O57: a completion clears BUSY and raises FATAL with its code; only an acceptance sets BUSY, with FATAL = 0. -/
theorem stepKeepsHandshakeSound : Obligations.StepKeepsHandshakeSound :=
  fun _ _ hsound hstep => keptByMoves_handshakeSound.step hsound hstep

/-! ### BER and SIGMA -/

theorem estimateBody_rate {s : State} (hord : CountersOrdered s) (hne : u64 s.bitCnt ≠ 0) :
    RateInRange (estimateBody s) := rnd64_le_one (Nat.pos_of_ne_zero hne) hord

/-- RUN counts at least one bit before it estimates. -/
theorem estimateBody_countBody_rate {s : State} {n : Nat} (hord : CountersOrdered s) (h1 : 1 ≤ n)
    (hfits : bitCntOverflows s n = false) : RateInRange (estimateBody (countBody n s)) := by
  refine estimateBody_rate (countBody_ordered hord hfits) ?_
  rw [← Bool.not_eq_true, bitCntOverflows_iff] at hfits
  rw [(countBody_counters (n := n) hord (by omega)).2]
  omega

/-- The same from a state that an earlier stage of RUN left. -/
theorem estimateBody_countBody_rate_of_counters {s u : State} {n : Nat}
    (hu : u.errCnt = s.errCnt ∧ u.bitCnt = s.bitCnt) (hord : CountersOrdered s) (h1 : 1 ≤ n)
    (hfits : bitCntOverflows s n = false) : RateInRange (estimateBody (countBody n u)) := by
  refine estimateBody_countBody_rate ?_ h1 ?_
  · rwa [CountersOrdered, hu.1, hu.2]
  · rwa [bitCntOverflows, hu.2]

theorem runBpskBody_sigma (sigma : Word) (n : Nat) (s : State) : (runBpskBody sigma n s).sigma = sigma := by
  simp [runBpskBody, estimateBody, countBody, demodBpskBody_eq, awgnBpskBody_eq]

theorem runQpskBody_sigma (sigma : Word) (n : Nat) (s : State) : (runQpskBody sigma n s).sigma = sigma := by
  simp [runQpskBody, estimateBody, countBody, demodQpskBody_eq, awgnQpskBody_eq]

/-- The deviation of a successful command passed its check, and its ratio is one of ordered counters. -/
theorem ruleOf_keeps_range {i : Instr} {s u : State} (hord : CountersOrdered s) (hrate : RateInRange s)
    (hfin : DeviationFinite s) (h : ruleOf i s = .ok u) : RateInRange u ∧ DeviationFinite u := by
  cases i with
  | nop => cases h; exact ⟨hrate, hfin⟩
  | clear => cases h; exact ⟨Nat.zero_le _, hfin⟩
  | modBpsk => obtain ⟨_, rfl⟩ := modBpskRule_ok.mp h; rw [modBpskBody_eq]; exact ⟨hrate, hfin⟩
  | modQpsk => obtain ⟨_, rfl⟩ := modQpskRule_ok.mp h; rw [modQpskBody_eq]; exact ⟨hrate, hfin⟩
  | awgnBpsk => obtain ⟨_, hsigma, rfl⟩ := awgnBpskRule_ok.mp h; rw [awgnBpskBody_eq]; exact ⟨hrate, hsigma⟩
  | awgnQpsk => obtain ⟨_, hsigma, rfl⟩ := awgnQpskRule_ok.mp h; rw [awgnQpskBody_eq]; exact ⟨hrate, hsigma⟩
  | demodBpsk => obtain ⟨_, rfl⟩ := demodBpskRule_ok.mp h; rw [demodBpskBody_eq]; exact ⟨hrate, hfin⟩
  | demodQpsk => obtain ⟨_, rfl⟩ := demodQpskRule_ok.mp h; rw [demodQpskBody_eq]; exact ⟨hrate, hfin⟩
  | count => obtain ⟨_, _, _, rfl⟩ := countRule_ok.mp h; exact ⟨hrate, hfin⟩
  | estimate => obtain ⟨hne, rfl⟩ := estimateRule_ok.mp h; exact ⟨estimateBody_rate hord hne, hfin⟩
  | runBpsk =>
    obtain ⟨hvalid, hsigma, hfits, rfl⟩ := runBpskRule_ok.mp h
    refine ⟨?_, by rwa [DeviationFinite, runBpskBody_sigma]⟩
    exact estimateBody_countBody_rate_of_counters (runBpskStages_counters _ _ s) hord
      (bitCount_toNat_bounds hvalid).1 hfits
  | runQpsk =>
    obtain ⟨hvalid, hsigma, hfits, rfl⟩ := runQpskRule_ok.mp h
    refine ⟨?_, by rwa [DeviationFinite, runQpskBody_sigma]⟩
    exact estimateBody_countBody_rate_of_counters (runQpskStages_counters _ _ s) hord
      (bitCount_toNat_bounds (bpskCountValid_of_qpsk hvalid)).1 hfits

theorem reset_rate_deviation : isFinite (0 : Word) = true ∧ u64 (0 : Word) ≤ u64 ONE := by decide

theorem keptByMoves_resultsInRange :
    KeptByMoves fun s => CountersOrdered s ∧ RateInRange s ∧ DeviationFinite s where
  onEvents _ h := h
  onSuccess h _ hrule := by
    obtain ⟨hord, hrate, hfin⟩ := h
    obtain ⟨hrate', hfin'⟩ := ruleOf_keeps_range hord hrate hfin hrule
    have hord' := ruleOf_keeps_counters hord hrule
    exact ⟨hord', hrate', hfin'⟩
  onError _ h _ := h
  onHost {s} x h := by
    obtain ⟨hsigma, herr, hbit, hber, _⟩ := transact_keeps_results x s
    rwa [CountersOrdered, RateInRange, DeviationFinite, hsigma, herr, hbit, hber]
  onReset _ _ := ⟨Nat.le_refl 0, reset_rate_deviation.2, reset_rate_deviation.1⟩

/-- Settles O59: BER is a ratio of ordered counters rounded, SIGMA a deviation whose check passed. -/
theorem stepKeepsResultsInRange : Obligations.StepKeepsResultsInRange :=
  fun _ _ hord hrate hfin hstep => (keptByMoves_resultsInRange.step ⟨hord, hrate, hfin⟩ hstep).2

/-! ### The state after reset -/

theorem nMaxLegal_nMax : Config.nMaxLegal Config.nMax := by
  have hindex : Config.nMaxIndex % 16384 < 16384 := Nat.mod_lt _ (by decide)
  rw [Config.nMaxLegal, Config.nMax, Config.nMaxMin, Config.nMaxMax]
  omega

theorem reset_nMax : State.reset.nMax = Config.nMax := by
  obtain ⟨_, _, hmax⟩ := nMaxLegal_nMax
  rw [Config.nMaxMax] at hmax
  exact countWord_toNat (by omega)

theorem reset_capacityLegal : CapacityLegal State.reset := by
  rw [CapacityLegal, reset_nMax]
  exact nMaxLegal_nMax

/-- Settles O19: each register at its reset value, as a read gives it. -/
theorem resetRegisterValues : Obligations.ResetRegisterValues :=
  ⟨fun r => by cases r <;> rfl, rfl, reset_capacityLegal, reset_nMax⟩

/-- Settles O60: BUSY, FATAL and the registers are 0, no byte is listed, and the parameter is a legal capacity. -/
theorem resetMeetsTheInvariants : Obligations.ResetMeetsTheInvariants :=
  ⟨reset_capacityLegal, Memory.wf_reset, fun _ hc => absurd hc List.not_mem_nil,
    ⟨fun hb => (by cases hb), fun hf => (by cases hf)⟩, Nat.le_refl 0, reset_rate_deviation.2, reset_rate_deviation.1⟩

/-- Settles O20: a reset event forgets the state but for NMAX and the model's own fields, and lists no byte. -/
theorem resetEventRestoresRegisters : Obligations.ResetEventRestoresRegisters := by
  intro s lost es hreset
  refine ⟨_, step_reset hreset, ?_⟩
  rw [resetBlock_loseTransaction]
  refine ⟨rfl, rfl, rfl, rfl, rfl, fun a => rfl, fun r hr => ?_⟩
  cases r
  case nmax => exact absurd rfl hr
  all_goals rfl

end Sys2Proof.Machine
end

section
/-! Host reads and writes of registers and buffer words (10_state.md R21 to R36; 20_memory.md R54 to R58, R66). -/

namespace Sys2Proof.Machine

/-! ### Registers -/

/-- A step whose next event is a host read of a register's address, with no command in flight. -/
theorem step_read_reg {s : State} {es : List Event} {a : Addr} {r : Reg} (h : s.events = .host (.read a) :: es)
    (hidle : s.status.busy = false) (ha : a.toNat % 8 = 0) (hlt : a.toNat < 0x1000) (hr : regAt a.toNat = .reg r) :
    step s = .next { s with events := es, rdata := readReg s r } := by
  rw [step_host h, transact, hostRead_idle (s := { s with events := es }) hidle, locate_reg ha hlt, hr]
  cases r <;> rfl

/-- Settles O21: each address names its register, and an idle read returns the register's value. -/
theorem registerReadsWhenIdle : Obligations.RegisterReadsWhenIdle := by
  intro s es a v hidle hmem h
  simp only [List.mem_cons, List.not_mem_nil, or_false, Prod.mk.injEq] at hmem
  rcases hmem with ⟨rfl, rfl⟩ | ⟨rfl, rfl⟩ | ⟨rfl, rfl⟩ | ⟨rfl, rfl⟩ | ⟨rfl, rfl⟩ | ⟨rfl, rfl⟩ | ⟨rfl, rfl⟩ |
    ⟨rfl, rfl⟩ | ⟨rfl, rfl⟩ | ⟨rfl, rfl⟩ | ⟨rfl, rfl⟩ | ⟨rfl, rfl⟩ | ⟨rfl, rfl⟩ | ⟨rfl, rfl⟩
  · exact step_read_reg (r := .id) h hidle (by decide) (by decide) rfl
  · exact step_read_reg (r := .ctrl) h hidle (by decide) (by decide) rfl
  · exact step_read_reg (r := .status) h hidle (by decide) (by decide) rfl
  · exact step_read_reg (r := .cmd) h hidle (by decide) (by decide) rfl
  · exact step_read_reg (r := .nBits) h hidle (by decide) (by decide) rfl
  · exact step_read_reg (r := .snrDb) h hidle (by decide) (by decide) rfl
  · exact step_read_reg (r := .symN) h hidle (by decide) (by decide) rfl
  · exact step_read_reg (r := .rsymN) h hidle (by decide) (by decide) rfl
  · exact step_read_reg (r := .rxN) h hidle (by decide) (by decide) rfl
  · exact step_read_reg (r := .sigma) h hidle (by decide) (by decide) rfl
  · exact step_read_reg (r := .errCnt) h hidle (by decide) (by decide) rfl
  · exact step_read_reg (r := .bitCnt) h hidle (by decide) (by decide) rfl
  · exact step_read_reg (r := .ber) h hidle (by decide) (by decide) rfl
  · exact step_read_reg (r := .nmax) h hidle (by decide) (by decide) rfl

/-- Settles O22: for each outcome, the sixteen settings of the four flags. -/
theorem statusWordLayout : Obligations.StatusWordLayout := by
  rintro ⟨busy, done, fatal, drop, errCode⟩
  revert busy done fatal drop
  rcases errCode with _ | _ | _ | _ | _
  case none => decide
  case some.invalidInput => decide
  case some.invalidScheme => decide
  case some.lengthMismatch => decide
  case some.illegalCommand => decide

/-- A step whose next event is a host write to a data register's address, with no command in flight. -/
theorem step_write_idle {s t : State} {es : List Event} {a : Addr} {r : Reg} {v : Word} (hidle : s.status.busy = false)
    (hwrite : writeReg { s with events := es } v r = unlessBusy { s with events := es } t) (ha : a.toNat % 8 = 0)
    (hlt : a.toNat < 0x1000) (hr : regAt a.toNat = .reg r) (h : s.events = .host (.write a v) :: es) :
    step s = .next t := by
  rw [step_write_reg h ha hlt hr, hwrite, unlessBusy_idle (s := { s with events := es }) hidle]

/-- Settles O24: each of the five addresses names its register, and nothing is dropped while BUSY = 0. -/
theorem dataRegisterWritesWhenIdle : Obligations.DataRegisterWritesWhenIdle := by
  intro s es v hidle
  exact ⟨step_write_idle (r := .nBits) hidle rfl (by decide) (by decide) rfl,
    step_write_idle (r := .snrDb) hidle rfl (by decide) (by decide) rfl,
    step_write_idle (r := .symN) hidle rfl (by decide) (by decide) rfl,
    step_write_idle (r := .rsymN) hidle rfl (by decide) (by decide) rfl,
    step_write_idle (r := .rxN) hidle rfl (by decide) (by decide) rfl⟩

/-! ### Buffer words -/

/-- Byte k of a word read is the byte at its address + k (20_memory.md R58). -/
theorem extractLsb'_readWord (s : State) (a : Nat) {k : Nat} (hk : k < 8) :
    (readWord s a).extractLsb' (8 * k) 8 = readByte s (a + k) := by
  refine BitVec.eq_of_getLsbD_eq fun j hj => ?_
  rw [BitVec.getLsbD_extractLsb', getLsbD_readWord s a (by omega), show (8 * k + j) / 8 = k by omega,
    show (8 * k + j) % 8 = j by omega, decide_eq_true hj, Bool.true_and]

/-- Settles O26: an idle write stores the word's bytes at its address, an idle read puts them together again. -/
theorem bufferWordsAreLittleEndianBytes : Obligations.BufferWordsAreLittleEndianBytes := by
  intro s es a hcap hidle halign hin
  obtain ⟨r, hloc⟩ := locate_of_inBuffer hcap halign hin
  constructor
  · intro v h
    have bytes := readByte_writeWord s a.toNat v
    refine ⟨storeBytes s.mem a.toNat v 8, ?_, fun k hk => ?_, fun x hx => ?_⟩
    · rw [step_host h, transact, hostWrite_buffer (s := { s with events := es }) hloc,
        unlessBusy_idle (s := { s with events := es }) hidle]
      rfl
    · have byte := bytes (a.toNat + k)
      rwa [if_pos (by omega), Nat.add_sub_cancel_left] at byte
    · have byte := bytes x
      rwa [if_neg (by omega)] at byte
  · intro h
    refine ⟨readWord s a.toNat, ?_, fun k hk => extractLsb'_readWord s _ hk⟩
    rw [step_host h, transact, hostRead_idle (s := { s with events := es }) hidle,
      show State.nMax { s with events := es } = s.nMax from rfl, hloc]
    rfl

/-! ### Reads of the write set -/

/-- The value at a location does not depend on the pending events. -/
theorem readLocation_events (s : State) (es : List Event) (a : Addr) (loc : Location) :
    readLocation { s with events := es } a loc = readLocation s a loc := by
  cases loc with
  | reg r => cases r <;> rfl
  | misaligned | reserved | buffer | unmapped => rfl

/-- A step whose next event is a host read while a command is in flight. -/
theorem step_read_busy {s : State} {es : List Event} {a : Addr} (h : s.events = .host (.read a) :: es)
    (hbusy : s.status.busy = true) :
    step s = .next (if inFlightWriteSet s.cur (locate s.nMax a) then readFree { s with events := es }
      else { s with events := es, rdata := readLocation s a (locate s.nMax a) }) := by
  rw [step_host h, transact, hostRead_busy (s := { s with events := es }) hbusy, readLocation_events]
  rfl

/-- Settles O29: the model's write sets are the rows of the table, location by location. -/
theorem writeSetReadsAreFree : Obligations.WriteSetReadsAreFree := by
  intro s es a ws hbusy h hws
  have hset : inFlightWriteSet s.cur (locate s.nMax a) = true ↔ locate s.nMax a ∈ ws := by
    rcases hws with ⟨hillegal, rfl⟩ | ⟨i, hdecode, rfl⟩
    · simp [inFlightWriteSet_illegal hillegal]
    · rw [inFlightWriteSet_ok hdecode]
      cases i <;> simp [writeSet, writeSet.runWriteSet, or_assoc]
  rw [step_read_busy h hbusy]
  constructor
  · intro hin
    rw [if_pos (hset.mpr hin)]
    rfl
  · intro hout
    rw [if_neg fun hin => hout (hset.mp hin)]

end Sys2Proof.Machine
end

section
/-! The match and mask table of 30_encoding.md R83, and the encoder against the decoder. -/

namespace Sys2Proof

/-- The SCHEME of a decoded word is its command's, where the operation depends on it. -/
theorem decode_ok_scheme {c : Word} {i : Instr} (h : decode c = .ok i) {sch : Scheme} (hs : schemeOf i = some sch) :
    c.toNat / 16 % 4 = (schemeBits (some sch)).toNat := by
  obtain ⟨hrsv, _⟩ := decode_ok_bounds h
  have hop := decode_ok_op h
  rw [decode, if_neg (not_not.mpr ((rsvField_eq_zero c).mpr hrsv)), opField_toNat, hop] at h
  cases i
  case nop | count | estimate | clear => cases hs
  case modBpsk | awgnBpsk | demodBpsk | runBpsk =>
    cases hs
    change byScheme (schemeField c) _ _ = _ at h
    rw [byScheme_eq] at h
    split at h
    · assumption
    · split at h <;> cases h
  case modQpsk | awgnQpsk | demodQpsk | runQpsk =>
    cases hs
    change byScheme (schemeField c) _ _ = _ at h
    rw [byScheme_eq] at h
    split at h
    · cases h
    · split at h
      · assumption
      · cases h

/-- A word is a command exactly when its fields are the command's. -/
theorem decode_ok_iff (c : Word) (i : Instr) :
    decode c = .ok i ↔ c.toNat / 64 = 0 ∧ c.toNat % 16 = (opOf i).toNat ∧
      ∀ sch, schemeOf i = some sch → c.toNat / 16 % 4 = (schemeBits (some sch)).toNat :=
  ⟨fun h => ⟨(decode_ok_bounds h).1, decode_ok_op h, fun _ => decode_ok_scheme h⟩,
    fun ⟨hrsv, hop, hscheme⟩ => decode_of_fields i hrsv hop hscheme⟩

/-- A word equals another exactly when its three fields do. -/
theorem word_eq_iff_fields (c w : Word) :
    c = w ↔ c.toNat / 64 = w.toNat / 64 ∧ c.toNat % 16 = w.toNat % 16 ∧ c.toNat / 16 % 4 = w.toNat / 16 % 4 := by
  constructor
  · rintro rfl
    exact ⟨rfl, rfl, rfl⟩
  · intro h
    exact BitVec.eq_of_toNat_eq (by omega)

/-- The word column holds the command's OP and SCHEME, with RSV 0. -/
theorem rowWord_fields (i : Instr) :
    (rowWord i).toNat / 64 = 0 ∧ (rowWord i).toNat % 16 = (opOf i).toNat ∧
      (rowWord i).toNat / 16 % 4 = (schemeBits (schemeOf i)).toNat := by
  cases i <;> decide

/-- The mask column compares SCHEME exactly where the operation depends on it. -/
theorem masked_eq_rowWord_iff (c : Word) (i : Instr) :
    c &&& rowMask i = rowWord i ↔ c.toNat / 64 = 0 ∧ c.toNat % 16 = (opOf i).toNat ∧
      ∀ sch, schemeOf i = some sch → c.toNat / 16 % 4 = (schemeBits (some sch)).toNat := by
  obtain ⟨hrsv, hop, hscheme⟩ := rowWord_fields i
  cases hs : schemeOf i with
  | none =>
    have hmask : c &&& rowMask i = Machine.withoutScheme c := by rw [rowMask, hs]; rfl
    obtain ⟨hop', hscheme', hrsv'⟩ := Machine.withoutScheme_fields c
    have hzero : (rowWord i).toNat / 16 % 4 = 0 := by rw [hscheme, hs]; rfl
    rw [hmask, word_eq_iff_fields, hrsv, hop, hzero, hrsv', hop', hscheme']
    simp
  | some sch =>
    have hmask : c &&& rowMask i = c := by rw [rowMask, hs]; exact BitVec.and_allOnes
    rw [hmask, word_eq_iff_fields, hrsv, hop, hscheme, hs]
    simp

/-- Settles O2: both sides compare RSV, OP and, where the operation depends on it, SCHEME. -/
theorem decodeAgreesWithOpcodeTable : Obligations.DecodeAgreesWithOpcodeTable :=
  ⟨fun c i => (decode_ok_iff c i).trans (masked_eq_rowWord_iff c i).symm, fun _ => decode_of_reservedOp⟩

/-- The fields of an encoded command. -/
theorem encode_fields (i : Instr) :
    (encode i).toNat / 64 = 0 ∧ (encode i).toNat % 16 = (opOf i).toNat ∧
      (encode i).toNat / 16 % 4 = (schemeBits (schemeOf i)).toNat := by
  cases i <;> decide

/-- Settles O1: the encoder writes the fields that the decoder compares. -/
theorem decodeInvertsEncode : Obligations.DecodeInvertsEncode := by
  intro i _
  obtain ⟨hrsv, hop, hscheme⟩ := encode_fields i
  exact decode_of_fields i hrsv hop fun sch hs => by rw [hscheme, hs]

/-- Settles O4: each word's fields are its command's; NOP, COUNT and ESTIMATE ignore the SCHEME they carry. -/
theorem sampleWordsDecode : Obligations.SampleWordsDecode :=
  ⟨decode_of_op .nop rfl (by decide) (by decide), decode_of_op_scheme .modQpsk rfl (by decide) (by decide) (by decide),
    decode_of_op_scheme .awgnBpsk rfl (by decide) (by decide) (by decide),
    decode_of_op_scheme .demodQpsk rfl (by decide) (by decide) (by decide),
    decode_of_op .count rfl (by decide) (by decide), decode_of_op .estimate rfl (by decide) (by decide),
    decode_of_op_scheme .runQpsk rfl (by decide) (by decide) (by decide), decode_of_op .clear rfl (by decide) (by decide)⟩

end Sys2Proof
end

section
/-! Correct rounding (00_scope.md R11): the rounded pattern is nearest among the patterns, ties to even, for rationals and
for square roots, and a NaN result is the pattern handed over for it. -/

namespace Sys2Proof.Machine

/-! ### Rationals -/

/-- Below the overflow bound the rounded pattern is an exponent step and a rounded significand, and its value is their
product. -/
theorem roundMagnitude_form {n d : Nat} (hd : 0 < d) (hn : n ≤ d * ((2 ^ 53 - 1) * 2 ^ 2045)) :
    ∃ k, roundMagnitude n d = k * 2 ^ 52 + divNearestEven n (d * 2 ^ k) ∧ roundMagnitude n d < infPattern ∧
      patternValue (roundMagnitude n d) = divNearestEven n (d * 2 ^ k) * 2 ^ k ∧ (k = 0 ∨ d * 2 ^ (52 + k) ≤ n) := by
  obtain ⟨hlow, hhigh⟩ := significand_bounds (n := n) hd
  have hlt := significand_lt_infPattern hd hn
  have hform : roundMagnitude n d = _ := Nat.min_eq_left (Nat.le_of_lt hlt)
  refine ⟨Nat.log2 (n / d) - 52, hform, hform ▸ hlt, ?_, hlow.imp id And.right⟩
  rw [hform, patternValue_of (hlow.imp id And.left) hhigh]

/-- A significand's step is nearest among all patterns: those of at least 2^(52 + k) are multiples of the step, and the
others lie below the least of them. -/
theorem significand_nearest {n d k : Nat} (hd : 0 < d) (hk : k = 0 ∨ d * 2 ^ (52 + k) ≤ n) (p : Nat) :
    ((d * (divNearestEven n (d * 2 ^ k) * 2 ^ k : Nat) : Int) - n).natAbs ≤ ((d * patternValue p : Int) - n).natAbs ∧
      (((d * (divNearestEven n (d * 2 ^ k) * 2 ^ k : Nat) : Int) - n).natAbs =
          ((d * patternValue p : Int) - n).natAbs →
        divNearestEven n (d * 2 ^ k) * 2 ^ k = patternValue p ∨ divNearestEven n (d * 2 ^ k) % 2 = 0) := by
  have hstep : 0 < d * 2 ^ k := Nat.mul_pos hd (Nat.two_pow_pos k)
  have regroup : ∀ v : Nat, (d * (v * 2 ^ k : Nat) : Int) = ((d * 2 ^ k : Nat) : Int) * v := by
    intro v; push_cast; ring
  by_cases hmul : ∃ v, patternValue p = v * 2 ^ k
  · obtain ⟨v, hv⟩ := hmul
    obtain ⟨hnear, htie⟩ := divNearestEven_nearest n v hstep
    rw [hv, regroup, regroup]
    exact ⟨hnear, fun h => (htie h).imp (fun he => by rw [he]) id⟩
  · have hk0 : k ≠ 0 := by rintro rfl; exact hmul ⟨patternValue p, by simp⟩
    have hlow : patternValue p < 2 ^ (52 + k) := Nat.lt_of_not_le fun h => hmul (patternValue_multiple h)
    have hnear := (divNearestEven_nearest n (2 ^ 52) hstep).1
    rw [regroup]
    have hleast : d * patternValue p < d * 2 ^ k * 2 ^ 52 := by
      rw [Nat.mul_assoc, ← Nat.pow_add, Nat.add_comm k]
      exact Nat.mul_lt_mul_of_pos_left hlow hd
    have hbelow : d * 2 ^ k * 2 ^ 52 ≤ n := by
      rw [Nat.mul_assoc, ← Nat.pow_add, Nat.add_comm k]
      exact hk.resolve_left hk0
    have hcast : ((d * 2 ^ k : Nat) : Int) * (2 ^ 52 : Nat) = ((d * 2 ^ k * 2 ^ 52 : Nat) : Int) := by push_cast; ring
    have hcast' : (d * patternValue p : Int) = ((d * patternValue p : Nat) : Int) := by push_cast; ring
    rw [hcast] at hnear
    rw [hcast']
    omega

/-- Settles O33: the significand is rounded to nearest, ties to even, and the patterns off its grid are farther. -/
theorem roundingIsNearestTiesToEven : Obligations.RoundingIsNearestTiesToEven := by
  intro n d p hd hn hp
  rw [magnitude_largest] at hn
  obtain ⟨k, hform, hlt, hvalue, hk⟩ := roundMagnitude_form hd hn
  obtain ⟨hnear, htie⟩ := significand_nearest hd hk p
  have hlt' : roundMagnitude n d < 0x7FF0000000000000 := hlt
  rw [magnitude_ofNat (by omega), magnitude_ofNat (by omega), hvalue]
  refine ⟨hlt', hnear, fun h => ?_⟩
  rcases htie h with heq | heven
  · exact .inl (patternValue_injective (hvalue.trans heq))
  · exact .inr (by omega)

/-! ### Square roots -/

theorem mul_two_pow_lt {m j : Nat} (h : m < 2 ^ j) (e : Nat) : m * 2 ^ e < 2 ^ (j + e) := by
  rw [Nat.pow_add]
  exact Nat.mul_lt_mul_of_pos_right h (Nat.two_pow_pos e)

/-- The rounded root of a finite positive value: its pattern is finite, and its value a significand times a step. -/
theorem roundRoot_form {x : Word} (hfin : isFinite x = true) (hnz : isZero x = false) :
    ∃ k r, roundRoot (magnitude x * 2 ^ unitExp) < infPattern ∧
      patternValue (roundRoot (magnitude x * 2 ^ unitExp)) = r * 2 ^ k ∧ 2 ^ 52 ≤ r ∧
      4 * (magnitude x * 2 ^ unitExp) ≤ (2 * r + 1) * (2 * r + 1) * 4 ^ k ∧
      (2 * r - 1) * (2 * r - 1) * 4 ^ k ≤ 4 * (magnitude x * 2 ^ unitExp) ∧
      (r = 2 ^ 52 → r * r * 4 ^ k ≤ magnitude x * 2 ^ unitExp) := by
  have hpos : 0 < magnitude x := by
    rw [Nat.pos_iff_ne_zero, Ne, magnitude_eq_zero_iff, hnz]
    exact Bool.false_ne_true
  have hbig : 2 ^ 104 ≤ magnitude x * 2 ^ unitExp :=
    Nat.le_trans (Nat.pow_le_pow_right (by decide) (by decide)) (Nat.le_mul_of_pos_left _ hpos)
  have hsmall := mul_two_pow_lt (magnitude_lt hfin) unitExp
  have hlog : Nat.log2 (magnitude x * 2 ^ unitExp) < 3172 :=
    (Nat.log2_lt (Nat.ne_of_gt (Nat.lt_of_lt_of_le (Nat.two_pow_pos 104) hbig))).mpr hsmall
  obtain ⟨hlo, hhi⟩ := root_exponent hbig
  obtain ⟨hr52, hr53, hup, hdown, hleast⟩ := rootNearestEven_bounds hlo hhi
  refine ⟨_, _, ?_, ?_, hr52, hup, hdown, hleast⟩
  · rw [roundRoot, infPattern_eq]
    omega
  · rw [roundRoot, patternValue_of (.inr hr52) hr53]

/-- A pattern of greater value than a significand times its step is at least one step above. -/
theorem patternValue_step_above {p k r : Nat} (hr : 2 ^ 52 ≤ r) (h : r * 2 ^ k < patternValue p) :
    (r + 1) * 2 ^ k ≤ patternValue p := by
  have hge : 2 ^ (52 + k) ≤ patternValue p := by
    rw [Nat.pow_add]
    exact Nat.le_trans (Nat.mul_le_mul_right _ hr) (Nat.le_of_lt h)
  obtain ⟨v, hv⟩ := patternValue_multiple hge
  rw [hv] at h ⊢
  exact Nat.mul_le_mul_right _ (Nat.lt_of_mul_lt_mul_right h)

/-- A pattern of smaller value is at least one step below, unless the significand is the least of its exponent. -/
theorem patternValue_step_below {p k r : Nat} (hr : 2 ^ 52 < r) (h : patternValue p < r * 2 ^ k) :
    patternValue p ≤ (r - 1) * 2 ^ k := by
  by_cases hge : 2 ^ (52 + k) ≤ patternValue p
  · obtain ⟨v, hv⟩ := patternValue_multiple hge
    rw [hv] at h ⊢
    have hvr : v < r := Nat.lt_of_mul_lt_mul_right h
    exact Nat.mul_le_mul_right _ (by omega)
  · rw [Nat.pow_add] at hge
    exact Nat.le_trans (Nat.le_of_not_le hge) (Nat.mul_le_mul_right _ (by omega))

theorem sq_mul_two_pow (m k : Nat) : (m * 2 ^ k) ^ 2 = m * m * 4 ^ k := by
  rw [Nat.mul_pow, ← Nat.pow_mul, Nat.mul_comm k, Nat.pow_mul, Nat.pow_two]

/-- Settles O34: the root lies within half a step of the result, and at the least significand of an exponent, where the
patterns below are denser, not below it. -/
theorem squareRootIsNearest : Obligations.SquareRootIsNearest := by
  intro p x q hfin hsign hnz hq
  obtain ⟨k, r, hlt, hvalue, hr, hup, hdown, hleast⟩ := roundRoot_form hfin hnz
  have h63 : roundRoot (magnitude x * 2 ^ unitExp) < 2 ^ 63 := by rw [infPattern_eq] at hlt; omega
  rw [sqrt64_of_pos p hfin hsign hnz, magnitude_packSign _ h63, magnitude_ofNat (by omega), hvalue]
  refine ⟨isFinite_packSign _ hlt, signBit_packSign _ h63, fun habove => ?_, fun hbelow => ?_⟩
  · have hmid : (2 * r + 1) * 2 ^ k ≤ r * 2 ^ k + patternValue q := by
      have hnext := patternValue_step_above hr habove
      rw [show 2 * r + 1 = r + (r + 1) by omega, Nat.add_mul]
      omega
    calc 4 * (magnitude x * 2 ^ unitExp) ≤ ((2 * r + 1) * 2 ^ k) ^ 2 := by rw [sq_mul_two_pow]; exact hup
      _ ≤ _ := Nat.pow_le_pow_left hmid 2
  · by_cases hr52 : r = 2 ^ 52
    · have hmid : r * 2 ^ k + patternValue q ≤ 2 * (r * 2 ^ k) := by omega
      calc _ ≤ (2 * (r * 2 ^ k)) ^ 2 := Nat.pow_le_pow_left hmid 2
        _ = 4 * (r * r * 4 ^ k) := by rw [Nat.mul_pow, sq_mul_two_pow]
        _ ≤ _ := Nat.mul_le_mul_left 4 (hleast hr52)
    · have hmid : r * 2 ^ k + patternValue q ≤ (2 * r - 1) * 2 ^ k := by
        have hprev := patternValue_step_below (by omega) hbelow
        rw [show 2 * r - 1 = r + (r - 1) by omega, Nat.add_mul]
        omega
      calc _ ≤ ((2 * r - 1) * 2 ^ k) ^ 2 := Nat.pow_le_pow_left hmid 2
        _ = (2 * r - 1) * (2 * r - 1) * 4 ^ k := sq_mul_two_pow _ k
        _ ≤ _ := hdown

/-! ### Results that are NaN -/

theorem isNaN_of_isInf {x : Word} (h : isInf x = true) : isNaN x = false := by
  rw [isInf, Bool.and_eq_true, beq_iff_eq, beq_iff_eq] at h
  simp [isNaN, h.2]

theorem add64_eq_nan_or (p a b : Word) : add64 p a b = p ∨ isNaN (add64 p a b) = false := by
  rw [add64]
  split_ifs with _ ha _ hb
  · exact .inl rfl
  · exact .inl rfl
  · exact .inr (isNaN_of_isInf ha)
  · exact .inr (isNaN_of_isInf hb)
  · exact .inr (packSign_zero_not_nan _)
  · exact .inr (packSign_roundMagnitude_not_nan _ _ _)

theorem mul64_eq_nan_or (p a b : Word) : mul64 p a b = p ∨ isNaN (mul64 p a b) = false := by
  rw [mul64]
  split_ifs
  · exact .inl rfl
  · exact .inl rfl
  · exact .inr (packSign_inf_not_nan _)
  · exact .inr (packSign_roundMagnitude_not_nan _ _ _)

theorem div64_eq_nan_or (p a b : Word) : div64 p a b = p ∨ isNaN (div64 p a b) = false := by
  rw [div64]
  split_ifs
  · exact .inl rfl
  · exact .inl rfl
  · exact .inr (packSign_inf_not_nan _)
  · exact .inr (packSign_zero_not_nan _)
  · exact .inl rfl
  · exact .inr (packSign_inf_not_nan _)
  · exact .inr (packSign_roundMagnitude_not_nan _ _ _)

theorem sqrt64_eq_nan_or (p a : Word) : sqrt64 p a = p ∨ isNaN (sqrt64 p a) = false := by
  rw [sqrt64]
  split_ifs with hnan hzero hsign hinf
  · exact .inl rfl
  · exact .inr (by simpa using hnan)
  · exact .inl rfl
  · exact .inr (by simpa using hnan)
  · have hfin : isFinite a = true := by simp [isFinite_eq, hnan, hinf]
    obtain ⟨_, _, hlt, _⟩ := roundRoot_form hfin (by simpa using hzero)
    exact .inr (isNaN_packSign _ (Nat.le_of_lt hlt))

/-- Where every result is the given pattern or no NaN, a NaN result is the given pattern. -/
theorem eq_of_isNaN_of_or {x p : Word} (h : x = p ∨ isNaN x = false) (hnan : isNaN x = true) : x = p :=
  h.resolve_right fun hno => absurd (hno.symm.trans hnan) Bool.false_ne_true

/-- Settles O35: every branch of the four operations answers the given pattern or no NaN, and the commands give quiet
NaNs. -/
theorem naNResultsTakeTheFreePattern : Obligations.NaNResultsTakeTheFreePattern :=
  ⟨fun p a b => ⟨eq_of_isNaN_of_or (add64_eq_nan_or p a b), eq_of_isNaN_of_or (mul64_eq_nan_or p a b),
    eq_of_isNaN_of_or (div64_eq_nan_or p a b), eq_of_isNaN_of_or (sqrt64_eq_nan_or p a)⟩,
    fun _ _ => quietNaN_isNaN _⟩

end Sys2Proof.Machine
end

section
/-! Pow10 and the deviation at their special points (00_scope.md R7; 41_awgn.md R127, R129). -/

namespace Sys2Proof.Machine

/-! ### Doubling and halving -/

theorem magnitude_two : magnitude TWO = 2 * 2 ^ unitExp := by decide +kernel

/-- Twice a normal value below the last exponent is exact. -/
theorem mul64_two_left (nan : Word) {m : Nat} (hnormal : 2 ^ 52 ≤ m) (hlt : m + 2 ^ 52 < infPattern) :
    mul64 nan TWO (packSign false m) = packSign false (m + 2 ^ 52) := by
  have h63 : m < 2 ^ 63 := by rw [infPattern_eq] at hlt; omega
  have hexact : magnitude TWO * patternValue m = patternValue (m + 2 ^ 52) * 2 ^ unitExp := by
    rw [magnitude_two, patternValue_double hnormal]; ring
  rw [mul64_of_isFinite nan (by decide) (isFinite_packSign _ (by omega)), magnitude_packSign _ h63, hexact,
    roundMagnitude_exact hlt (Nat.two_pow_pos _), signBit_packSign _ h63]
  rfl

/-- Half a value whose half is normal is exact. -/
theorem div64_two_right (nan : Word) {m : Nat} (hnormal : 2 ^ 52 ≤ m) (hlt : m + 2 ^ 52 < infPattern) :
    div64 nan (packSign false (m + 2 ^ 52)) TWO = packSign false m := by
  have h63 : m + 2 ^ 52 < 2 ^ 63 := by rw [infPattern_eq] at hlt; omega
  have hexact : patternValue (m + 2 ^ 52) * 2 ^ unitExp = patternValue m * magnitude TWO := by
    rw [magnitude_two, patternValue_double hnormal]; ring
  rw [div64_of_isFinite nan (isFinite_packSign _ hlt) (by decide) (by decide), magnitude_packSign _ h63, hexact,
    roundMagnitude_exact (by omega) (by rw [magnitude_two]; positivity), signBit_packSign _ h63]
  rfl

/-- 1.0 over a positive finite value. -/
theorem div64_one_left (nan : Word) {m : Nat} (h0 : 0 < m) (hlt : m < infPattern) :
    div64 nan ONE (packSign false m) =
      packSign false (roundMagnitude (2 ^ unitExp * 2 ^ unitExp) (patternValue m)) := by
  obtain ⟨_, _, hzero, hsign, hmag⟩ := packSign_facts h0 hlt
  rw [div64_of_isFinite nan (by decide) (isFinite_packSign _ hlt) hzero, hsign, hmag, magnitude_one]
  rfl

/-- A quotient of at least 2^52 rounds to a normal value. -/
theorem roundMagnitude_normal {n d : Nat} (hd : 0 < d) (h : 2 ^ 52 * d ≤ n) : 2 ^ 52 ≤ roundMagnitude n d := by
  have hfloor : 2 ^ 52 ≤ n / d := (Nat.le_div_iff_mul_le hd).mpr h
  rw [roundMagnitude, infPattern_eq]
  cases hk : Nat.log2 (n / d) - 52 with
  | zero =>
    have hsig := (divNearestEven_floor n d).1
    rw [Nat.pow_zero, Nat.mul_one]
    omega
  | succ k => omega

theorem two_pow_unitExp_sq : 2 ^ unitExp * 2 ^ unitExp = 2 ^ 2148 := by rw [← Nat.pow_add]; rfl

/-- The values from 2^-1022 to 2^1021, in units of 2^-1074. -/
theorem patternValue_bounds {m : Nat} (hlo : 2 ^ 52 ≤ m) (hhi : m ≤ 2044 * 2 ^ 52) :
    2 ^ 52 ≤ patternValue m ∧ patternValue m ≤ 2 ^ 2095 := by
  constructor
  · calc 2 ^ 52 = patternValue (2 ^ 52) := by decide
      _ ≤ patternValue m := patternValue_strictMono.monotone hlo
  · calc patternValue m ≤ patternValue (2044 * 2 ^ 52) := patternValue_strictMono.monotone hhi
      _ = 2 ^ 2095 := by decide +kernel

/-- Over this range the reciprocal stays one exponent above the subnormals, so halving it is exact. -/
theorem reciprocal_halves {m : Nat} (hlo : 2 ^ 52 ≤ m) (hhi : m ≤ 2044 * 2 ^ 52) :
    2 ^ 52 ≤ roundMagnitude (2 ^ unitExp * 2 ^ unitExp) (patternValue m * 2) ∧
      roundMagnitude (2 ^ unitExp * 2 ^ unitExp) (patternValue m * 2) + 2 ^ 52 =
        roundMagnitude (2 ^ unitExp * 2 ^ unitExp) (patternValue m) ∧
      roundMagnitude (2 ^ unitExp * 2 ^ unitExp) (patternValue m) < infPattern := by
  obtain ⟨hmin, hmax⟩ := patternValue_bounds hlo hhi
  have hpos : 0 < patternValue m := by omega
  rw [two_pow_unitExp_sq]
  have hover : 2 ^ 53 * patternValue m ≤ 2 ^ 2148 := by
    calc 2 ^ 53 * patternValue m ≤ 2 ^ 53 * 2 ^ 2095 := Nat.mul_le_mul_left _ hmax
      _ = 2 ^ 2148 := by rw [← Nat.pow_add]
  have hunder : 2 ^ 2148 ≤ patternValue m * ((2 ^ 53 - 1) * 2 ^ 2045) := by
    calc 2 ^ 2148 ≤ 2 ^ 52 * (2 ^ 52 * 2 ^ 2045) := by
          rw [← Nat.pow_add, ← Nat.pow_add]; exact Nat.pow_le_pow_right (by decide) (by decide)
      _ ≤ _ := Nat.mul_le_mul hmin (Nat.mul_le_mul_right _ (by decide))
  obtain ⟨_, _, hfin, _⟩ := roundMagnitude_form hpos hunder
  refine ⟨roundMagnitude_normal (by omega) ?_, ?_, hfin⟩
  · rw [show 2 ^ 52 * (patternValue m * 2) = 2 ^ 53 * patternValue m by ring]
    exact hover
  · exact roundMagnitude_double ((Nat.le_div_iff_mul_le hpos).mpr hover) (significand_lt_infPattern hpos hunder)

/-- Settles O36: doubling L and halving 1/L are both exact, so each side is 1/L rounded once. -/
theorem deviationFormulasAgree : Obligations.DeviationFormulasAgree := by
  intro p q r L hlo hhi
  have hlo' : 2 ^ 52 ≤ L.toNat := hlo
  have hhi' : L.toNat ≤ 2044 * 2 ^ 52 := hhi
  have hL : packSign false L.toNat = L := by
    have hself := packSign_self L
    rwa [signBit_eq, decide_eq_false (by omega), Nat.mod_eq_of_lt (by omega)] at hself
  obtain ⟨hnormal, hdouble, hfin⟩ := reciprocal_halves hlo' hhi'
  have hnext : L.toNat + 2 ^ 52 < infPattern := by rw [infPattern_eq]; omega
  rw [← hL, mul64_two_left q hlo' hnext, div64_one_left p (by omega) hnext, div64_one_left r (by omega) (by omega),
    patternValue_double hlo', Nat.mul_comm 2, ← hdouble, div64_two_right p hnormal (by omega)]

/-! ### Pow10 -/

theorem smallInteger_of_magnitude {x : Word} {k : Nat} (hfin : isFinite x = true) (hsign : signBit x = false)
    (hmag : magnitude x = k * 2 ^ unitExp) (hk : k ≤ 22) : smallInteger x = some k := by
  have hmod : magnitude x % 2 ^ unitExp = 0 := by rw [hmag, Nat.mul_mod_left]
  have hdiv : magnitude x / 2 ^ unitExp = k := by rw [hmag, Nat.mul_div_cancel _ (Nat.two_pow_pos _)]
  rw [smallInteger, hmod, hdiv, hfin, hsign, decide_eq_true hk]
  rfl

theorem pow10_of_smallInteger {x : Word} {k : Nat} (hfin : isFinite x = true) (h : smallInteger x = some k) :
    pow10 x = rnd64 (10 ^ k) 1 := by
  simp [pow10, isNaN_of_isFinite hfin, isInf_of_isFinite hfin, h]

theorem isNaN_pow10 {x : Word} (h : isNaN x = true) : isNaN (pow10 x) = true := by
  rw [pow10, if_pos h, someNaN]
  split
  · assumption
  · decide

/-- -infinity (00_scope.md R11). -/
def NINF : Word := 0xFFF0000000000000

theorem pow10_ninf : pow10 NINF = PZERO := by
  have facts : isNaN NINF = false ∧ isInf NINF = true ∧ signBit NINF = true := by decide
  simp [pow10, facts]

/-- The integers to 22 and their powers of ten are binary64 values (00_scope.md R7 (a)). -/
theorem rnd64_required_exact : ∀ k < 23, magnitude (rnd64 k 1) = k * 2 ^ 1074 ∧
    magnitude (rnd64 (10 ^ k) 1) = 10 ^ k * 2 ^ 1074 ∧ isFinite (rnd64 k 1) = true ∧
    isFinite (rnd64 (10 ^ k) 1) = true ∧ signBit (rnd64 k 1) = false := by
  decide +kernel

/-- Settles O32: at an integer to 22 Pow10 is the rounded power, which is exact, and -0.0 counts as 0. -/
theorem powTenRequiredPoints : Obligations.PowTenRequiredPoints := by
  have ofNegZero : pow10 0x8000000000000000 = ONE := by
    rw [pow10_of_smallInteger (k := 0) (by decide) (by decide +kernel)]
    exact rnd64_self Nat.one_pos
  refine ⟨fun k hk => ?_, ofNegZero, pow10_inf, pow10_ninf, fun x => isNaN_pow10⟩
  obtain ⟨hmag, hpow, hfin, hpowFin, hsign⟩ := rnd64_required_exact k (by omega)
  exact ⟨hmag, hpow, hpowFin, pow10_of_smallInteger hfin (smallInteger_of_magnitude hfin hsign hmag hk)⟩

end Sys2Proof.Machine
end

section
/-! The special SNR values (41_awgn.md R129): where the linear SNR is an integer power of ten, where it is 0 or infinite,
and where the deviation is refused. -/

namespace Sys2Proof.Machine

/-! ### The deviation at 0, 10 and 20 dB -/

theorem linearSnr_of_tenth {draw k : Nat} {x y : Word} (hdiv : ∀ nan, div64 nan x TEN = y) (hfin : isFinite y = true)
    (hint : smallInteger y = some k) : linearSnr draw x = rnd64 (10 ^ k) 1 := by
  rw [linearSnr, hdiv, pow10_of_smallInteger hfin hint]

/-- A tenth of each of the four finite SNR values. -/
theorem div64_ten (nan : Word) :
    div64 nan 0x0000000000000000 TEN = 0x0000000000000000 ∧ div64 nan 0x8000000000000000 TEN = 0x8000000000000000 ∧
      div64 nan 0x4024000000000000 TEN = ONE ∧ div64 nan 0x4034000000000000 TEN = TWO := by
  refine ⟨?_, ?_, ?_, ?_⟩ <;> rw [div64_of_isFinite nan (by decide) (by decide) (by decide)] <;> decide +kernel

/-- L = 1, 10 and 100. -/
theorem rnd64_powers : rnd64 (10 ^ 0) 1 = ONE ∧ rnd64 (10 ^ 1) 1 = TEN ∧ rnd64 (10 ^ 2) 1 = 0x4059000000000000 := by
  decide +kernel

theorem linearSnr_values (draw : Nat) :
    linearSnr draw 0x0000000000000000 = ONE ∧ linearSnr draw 0x8000000000000000 = ONE ∧
      linearSnr draw 0x4024000000000000 = TEN ∧ linearSnr draw 0x4034000000000000 = 0x4059000000000000 := by
  obtain ⟨h0, h1, h2⟩ := rnd64_powers
  rw [← h0, ← h1, ← h2]
  exact ⟨linearSnr_of_tenth (fun nan => (div64_ten nan).1) (by decide) (by decide +kernel),
    linearSnr_of_tenth (fun nan => (div64_ten nan).2.1) (by decide) (by decide +kernel),
    linearSnr_of_tenth (fun nan => (div64_ten nan).2.2.1) (by decide) (by decide +kernel),
    linearSnr_of_tenth (fun nan => (div64_ten nan).2.2.2) (by decide) (by decide +kernel)⟩

/-- The BPSK deviation at a finite positive L, from its three exact results rounded. -/
theorem sigmaBpsk_of_steps {draw : Nat} {x l d q : Word} (hl : linearSnr draw x = l)
    (hmul : ∀ nan, mul64 nan TWO l = d) (hdiv : ∀ nan, div64 nan ONE d = q) (hfin : isFinite q = true)
    (hsign : signBit q = false) (hnz : isZero q = false) :
    sigmaBpsk draw x = packSign false (roundRoot (magnitude q * 2 ^ unitExp)) := by
  rw [sigmaBpsk, hl, hmul, hdiv, sqrt64_of_pos _ hfin hsign hnz]

/-- The doubles of 1, 10 and 100, and their reciprocals. -/
theorem deviation_steps (nan : Word) :
    (mul64 nan TWO ONE = TWO ∧ mul64 nan TWO TEN = 0x4034000000000000 ∧
      mul64 nan TWO 0x4059000000000000 = 0x4069000000000000) ∧
    (div64 nan ONE TWO = 0x3FE0000000000000 ∧ div64 nan ONE 0x4034000000000000 = 0x3FA999999999999A ∧
      div64 nan ONE 0x4069000000000000 = 0x3F747AE147AE147B) := by
  refine ⟨⟨?_, ?_, ?_⟩, ?_, ?_, ?_⟩
  case refine_1 | refine_2 | refine_3 => rw [mul64_of_isFinite nan (by decide) (by decide)]; decide +kernel
  case refine_4 | refine_5 | refine_6 => rw [div64_of_isFinite nan (by decide) (by decide) (by decide)]; decide +kernel

theorem sigmaBpsk_one {draw : Nat} {x : Word} (hl : linearSnr draw x = ONE) :
    sigmaBpsk draw x = 0x3FE6A09E667F3BCD := by
  rw [sigmaBpsk_of_steps hl (fun nan => (deviation_steps nan).1.1) (fun nan => (deviation_steps nan).2.1) (by decide)
    (by decide) (by decide)]
  decide +kernel

theorem sigmaBpsk_ten {draw : Nat} {x : Word} (hl : linearSnr draw x = TEN) :
    sigmaBpsk draw x = 0x3FCC9F25C5BFEDD9 := by
  rw [sigmaBpsk_of_steps hl (fun nan => (deviation_steps nan).1.2.1) (fun nan => (deviation_steps nan).2.2.1)
    (by decide) (by decide) (by decide)]
  decide +kernel

theorem sigmaBpsk_hundred {draw : Nat} {x : Word} (hl : linearSnr draw x = 0x4059000000000000) :
    sigmaBpsk draw x = 0x3FB21A1851FF630A := by
  rw [sigmaBpsk_of_steps hl (fun nan => (deviation_steps nan).1.2.2) (fun nan => (deviation_steps nan).2.2.2)
    (by decide) (by decide) (by decide)]
  decide +kernel

/-- Where the formulas agree the schemes have the same deviation. -/
theorem sigmaQpsk_eq_sigmaBpsk {draw : Nat} {x l : Word} (hl : linearSnr draw x = l)
    (hlo : 0x0010000000000000 ≤ l.toNat) (hhi : l.toNat ≤ 0x7FC0000000000000) :
    sigmaQpsk draw x = sigmaBpsk draw x := by
  rw [sigmaQpsk, sigmaBpsk, hl, deviationFormulasAgree (nanAt draw 2) (nanAt draw 1) (nanAt draw 1) l hlo hhi]

/-! ### The deviations that AWGN refuses -/

theorem div64_nan_operand (p : Word) {a b : Word} (h : isNaN a = true ∨ isNaN b = true) : div64 p a b = p := by
  rw [div64, if_pos (by simpa using h)]

theorem mul64_nan_operand (p : Word) {a b : Word} (h : isNaN a = true ∨ isNaN b = true) : mul64 p a b = p := by
  rw [mul64, if_pos (by simpa using h)]

theorem sqrt64_nan_operand (p : Word) {a : Word} (h : isNaN a = true) : sqrt64 p a = p := by
  rw [sqrt64, if_pos h]

theorem sqrt64_inf (nan : Word) : sqrt64 nan PINF = PINF := by
  simp [sqrt64, pinf_facts]

/-- 1.0 over +0.0. -/
theorem div64_one_zero (nan : Word) : div64 nan ONE PZERO = PINF := by
  have one : isNaN ONE = false ∧ isInf ONE = false ∧ isZero ONE = false ∧ signBit ONE = false := by decide
  have zero : isNaN PZERO = false ∧ isInf PZERO = false ∧ isZero PZERO = true ∧ signBit PZERO = false := by decide
  have inf : packSign false infPattern = PINF := by decide
  simp [div64, one, zero, inf]

theorem linearSnr_ninf (draw : Nat) : linearSnr draw NINF = PZERO := by
  have ninf : isNaN NINF = false ∧ isInf NINF = true ∧ signBit NINF = true := by decide
  have ten : isNaN TEN = false ∧ isInf TEN = false ∧ signBit TEN = false := by decide
  have quotient : packSign true infPattern = NINF := by decide
  have hdiv (nan : Word) : div64 nan NINF TEN = NINF := by simp [div64, ninf, ten, quotient]
  rw [linearSnr, hdiv, pow10_ninf]

/-- An SNR of -infinity makes the deviation infinite. -/
theorem sigma_ninf (draw : Nat) : sigmaBpsk draw NINF = PINF ∧ sigmaQpsk draw NINF = PINF := by
  have double : packSign (signBit TWO != signBit PZERO) 0 = PZERO := by decide
  have half : packSign (signBit TWO) infPattern = PINF := by decide
  rw [sigmaBpsk, sigmaQpsk, linearSnr_ninf, mul64_zero_right _ (by decide) (by decide), double, div64_one_zero,
    div64_one_zero, div64_inf_left _ (by decide), half, sqrt64_inf]
  exact ⟨rfl, rfl⟩

/-- An SNR that is a NaN makes the deviation a NaN. -/
theorem sigma_nan (draw : Nat) {x : Word} (h : isNaN x = true) :
    sigmaBpsk draw x = nanAt draw 3 ∧ sigmaQpsk draw x = nanAt draw 3 := by
  have nan := isNaN_nanAt draw
  have hl : isNaN (linearSnr draw x) = true := by
    rw [linearSnr, div64_nan_operand _ (.inl h)]
    exact isNaN_pow10 (nan 0)
  rw [sigmaBpsk, sigmaQpsk, mul64_nan_operand _ (.inr hl), div64_nan_operand _ (.inr (nan 1)),
    div64_nan_operand _ (.inr hl), div64_nan_operand _ (.inl (nan 1)), sqrt64_nan_operand _ (nan 2)]
  exact ⟨rfl, rfl⟩

theorem isFinite_of_isNaN {x : Word} (h : isNaN x = true) : isFinite x = false := by
  rw [isFinite_eq, h]; rfl

/-- AWGN refuses both, whatever its other check finds. -/
theorem sigma_not_finite (draw : Nat) {x : Word} (h : x = NINF ∨ isNaN x = true) :
    isFinite (sigmaBpsk draw x) = false ∧ isFinite (sigmaQpsk draw x) = false := by
  rcases h with rfl | h
  · obtain ⟨hb, hq⟩ := sigma_ninf draw
    rw [hb, hq]
    exact ⟨by decide, by decide⟩
  · obtain ⟨hb, hq⟩ := sigma_nan draw h
    have hnan := isFinite_of_isNaN (isNaN_nanAt draw 3)
    rw [hb, hq]
    exact ⟨hnan, hnan⟩

theorem exec_awgnBpsk_refused {s : State} (h : isFinite (sigmaBpsk s.draws s.snrDb) = false) :
    exec .awgnBpsk s = .next { s with status := statusError s.status .invalidInput } := by
  have hrule : ruleOf .awgnBpsk s = .error .invalidInput := by
    rw [ruleOf, awgnBpskRule, h]
    split <;> rfl
  rw [exec_of_rule_error hrule, raise_eq]

theorem exec_awgnQpsk_refused {s : State} (h : isFinite (sigmaQpsk s.draws s.snrDb) = false) :
    exec .awgnQpsk s = .next { s with status := statusError s.status .invalidInput } := by
  have hrule : ruleOf .awgnQpsk s = .error .invalidInput := by
    rw [ruleOf, awgnQpskRule, h]
    split <;> rfl
  rw [exec_of_rule_error hrule, raise_eq]

/-! ### The noiseless limit -/

theorem add64_inf_left (nan : Word) {a b : Word} (ha : isInf a = true) (hb : isFinite b = true) :
    add64 nan a b = a := by
  simp [add64, isNaN_of_isInf ha, ha, isNaN_of_isFinite hb, isInf_of_isFinite hb]

/-- With deviation +0.0 the noise term is a zero, and adding it changes no nonzero value. -/
theorem add64_noiseless (p q : Word) {x g : Word} (hg : isFinite g = true) (hnan : isNaN x = false)
    (hnz : isZero x = false) : add64 p x (mul64 q PZERO g) = x := by
  have hterm : isZero (mul64 q PZERO g) = true := isZero_mul64_of_noiseVanishes q (.inr ⟨by decide, hg⟩)
  cases hinf : isInf x with
  | true => exact add64_inf_left p hinf (isFinite_of_isZero hterm)
  | false => exact add64_zero_right p (by rw [isFinite_eq, hnan, hinf]; rfl) hnz hterm

/-- Settles O37: the finite SNR values give L = 1, 10 and 100, where both formulas agree; +infinity gives +0.0, and
-infinity and NaN no finite deviation. -/
theorem specialSnrValues : Obligations.SpecialSnrValues := by
  refine ⟨fun draw x l v hmem => ?_, fun s hsnr => ?_, fun p q x g => add64_noiseless p q⟩
  · obtain ⟨hzero, hnegZero, hten, htwenty⟩ := linearSnr_values draw
    simp only [List.mem_cons, List.not_mem_nil, or_false, Prod.mk.injEq] at hmem
    rcases hmem with ⟨rfl, rfl, rfl⟩ | ⟨rfl, rfl, rfl⟩ | ⟨rfl, rfl, rfl⟩ | ⟨rfl, rfl, rfl⟩ | ⟨rfl, rfl, rfl⟩
    · exact ⟨linearSnr_inf draw, sigmaBpsk_inf draw, sigmaQpsk_inf draw⟩
    · exact ⟨hzero, sigmaBpsk_one hzero,
        (sigmaQpsk_eq_sigmaBpsk hzero (by decide) (by decide)).trans (sigmaBpsk_one hzero)⟩
    · exact ⟨hnegZero, sigmaBpsk_one hnegZero,
        (sigmaQpsk_eq_sigmaBpsk hnegZero (by decide) (by decide)).trans (sigmaBpsk_one hnegZero)⟩
    · exact ⟨hten, sigmaBpsk_ten hten,
        (sigmaQpsk_eq_sigmaBpsk hten (by decide) (by decide)).trans (sigmaBpsk_ten hten)⟩
    · exact ⟨htwenty, sigmaBpsk_hundred htwenty,
        (sigmaQpsk_eq_sigmaBpsk htwenty (by decide) (by decide)).trans (sigmaBpsk_hundred htwenty)⟩
  · obtain ⟨hb, hq⟩ := sigma_not_finite s.draws hsnr
    exact ⟨exec_awgnBpsk_refused hb, exec_awgnQpsk_refused hq⟩

end Sys2Proof.Machine
end

section
/-! What each command leaves where its checks pass (40_modulator.md R101, R102; 41_awgn.md R124, R125; 42_demodulator.md
R141, R142, R144; 43_ber_counter.md R160, R161; 44_control.md R180, R181). -/

namespace Sys2Proof.Machine

/-! ### Frames -/

/-- `t` holds the bytes of `s` but for the addresses from `lo` to below `hi`. -/
def KeptOutside (s t : State) (lo hi : Nat) : Prop := ∀ a, a < lo ∨ hi ≤ a → readByte t a = readByte s a

theorem KeptOutside.readWord {s t : State} {lo hi a : Nat} (h : KeptOutside s t lo hi) (ha : a + 8 ≤ lo ∨ hi ≤ a) :
    readWord t a = readWord s a :=
  readWord_eq_of_readByte fun _ hk => h _ (by omega)

theorem KeptOutside.bitAt {s t : State} {lo hi base i : Nat} (h : KeptOutside s t lo hi)
    (hi : bitWordAddr base i + 8 ≤ lo ∨ hi ≤ bitWordAddr base i) : bitAt t base i = bitAt s base i := by
  rw [Machine.bitAt, Machine.bitAt, h.readWord hi]

/-- A state whose memory a symbol loop left: the entries the loop wrote, and every byte outside them. -/
theorem symbols_of_storeSymbols {s t : State} {base n : Nat} {re im : Nat → Word}
    (hm : t.mem = (storeSymbols base re im n s).mem) (he : t.epoch = s.epoch) :
    (∀ k, k < n → readWord t (reAddr base k) = re k ∧ readWord t (imAddr base k) = im k) ∧
      KeptOutside s t (reAddr base 0) (reAddr base n) := by
  constructor
  · intro k hk
    rw [readWord_of_storeSymbols hm he, readWord_of_storeSymbols hm he]
    exact readWord_storeSymbols base re im s hk
  · intro a ha
    rw [readByte_of_storeSymbols hm he]
    exact readByte_storeSymbols_outside base re im n s ha

/-- A state whose memory a bit loop left: every byte outside the words that hold its bits. -/
theorem keptOutside_of_storeBits {s t : State} {base n : Nat} {f : Nat → Bool} (h1 : 1 ≤ n)
    (hm : t.mem = (storeBits base f n s).mem) (he : t.epoch = s.epoch) :
    KeptOutside s t (bitWordAddr base 0) (bitWordAddr base (n - 1) + 8) := by
  intro a ha
  rw [readByte_of_storeBits hm he]
  refine readByte_storeBits_outside base f n s ?_
  rw [bitWordAddr, bitWordAddr] at ha
  omega

/-! ### NOP, CLEAR and ESTIMATE -/

/-- Settles O40: neither command has a check. -/
theorem nopAndClearComplete : Obligations.NopAndClearComplete :=
  fun s => ⟨exec_of_rule_ok (i := .nop) (s := s) rfl, exec_of_rule_ok (i := .clear) (s := s) rfl⟩

/-- Settles O48: the one check is that BIT_CNT is not 0. -/
theorem estimateCompletes : Obligations.EstimateCompletes :=
  fun _ hne => (succeeds_estimate_iff.mpr ⟨hne, rfl⟩).1

/-! ### MOD -/

theorem exec_modBpsk {s : State} {n : Nat} (hbits : s64 s.nBits = n) (h1 : 1 ≤ n) (hmax : n ≤ s.nMax) :
    exec .modBpsk s = .next (retire (modBpskBody n s)) := by
  have valid : bpskCountValid s = true := (bpskCountValid_iff s).mpr (by omega)
  refine exec_of_rule_ok (modBpskRule_ok.mpr ⟨valid, ?_⟩)
  rw [bitCount, hbits, Int.toNat_natCast]

theorem exec_modQpsk {s : State} {n : Nat} (hbits : s64 s.nBits = n) (h1 : 1 ≤ n) (hmax : n ≤ s.nMax)
    (heven : n % 2 = 0) : exec .modQpsk s = .next (retire (modQpskBody n s)) := by
  have valid : qpskCountValid s = true := (qpskCountValid_iff s).mpr (by omega)
  refine exec_of_rule_ok (modQpskRule_ok.mpr ⟨valid, ?_⟩)
  rw [bitCount, hbits, Int.toNat_natCast]

/-- Settles O41: one symbol a bit, from the symbol loop. -/
theorem modBpskCompletes : Obligations.ModBpskCompletes := by
  intro s n hbits h1 hmax
  have hexec := exec_modBpsk hbits h1 hmax
  rw [modBpskBody_eq] at hexec
  obtain ⟨symbols, kept⟩ := symbols_of_storeSymbols (s := s)
    (t := retire { s with mem := modBpskMem n s, symN := countWord n }) rfl rfl
  exact ⟨modBpskMem n s, _, hexec, rfl, symbols, kept⟩

/-- Settles O42: one symbol for two bits, from the symbol loop. -/
theorem modQpskCompletes : Obligations.ModQpskCompletes := by
  intro s n hbits h1 hmax heven
  have hexec := exec_modQpsk hbits h1 hmax heven
  rw [modQpskBody_eq] at hexec
  obtain ⟨symbols, kept⟩ := symbols_of_storeSymbols (s := s)
    (t := retire { s with mem := modQpskMem n s, symN := countWord (n / 2) }) rfl rfl
  exact ⟨modQpskMem n s, _, hexec, rfl, symbols, kept⟩

/-! ### AWGN -/

theorem exec_awgnBpsk {s : State} {n : Nat} (hsym : u64 s.symN = n) (h1 : 1 ≤ n) (hmax : n ≤ s.nMax)
    (hfin : isFinite (sigmaBpsk s.draws s.snrDb) = true) :
    exec .awgnBpsk s = .next (retire (awgnBpskBody (sigmaBpsk s.draws s.snrDb) n s)) := by
  subst hsym
  exact exec_of_rule_ok (awgnBpskRule_ok.mpr ⟨(awgnBpskCountValid_iff s).mpr ⟨h1, hmax⟩, hfin, rfl⟩)

theorem exec_awgnQpsk {s : State} {n : Nat} (hsym : u64 s.symN = n) (h1 : 1 ≤ n) (hmax : n ≤ s.nMax / 2)
    (hfin : isFinite (sigmaQpsk s.draws s.snrDb) = true) :
    exec .awgnQpsk s = .next (retire (awgnQpskBody (sigmaQpsk s.draws s.snrDb) n s)) := by
  subst hsym
  exact exec_of_rule_ok (awgnQpskRule_ok.mpr ⟨(awgnQpskCountValid_iff s).mpr ⟨h1, hmax⟩, hfin, rfl⟩)

theorem nanAt_quiet (draw site : Nat) : isNaN (nanAt draw site) = true ∧ (nanAt draw site).getLsbD 51 = true :=
  quietNaN_isNaN _

/-- A noisy part is a sum of a product, each with some quiet NaN to answer. -/
theorem addNoise_eq (draw site : Nat) (sigma x g : Word) :
    ∃ p q : Word, isNaN p = true ∧ isNaN q = true ∧ p.getLsbD 51 = true ∧ q.getLsbD 51 = true ∧
      addNoise draw site sigma x g = add64 p x (mul64 q sigma g) := by
  obtain ⟨hp, hp51⟩ := nanAt_quiet draw (site + 1)
  obtain ⟨hq, hq51⟩ := nanAt_quiet draw site
  exact ⟨_, _, hp, hq, hp51, hq51, rfl⟩

/-- Settles O43: noise on the real parts, from the symbol loop. -/
theorem awgnBpskCompletes : Obligations.AwgnBpskCompletes := by
  intro s n σ hsym h1 hmax hσ hfin
  have hsigma : σ = sigmaBpsk s.draws s.snrDb := hσ
  have hexec := exec_awgnBpsk hsym h1 hmax (hsigma ▸ hfin)
  rw [← hsigma, awgnBpskBody_eq] at hexec
  obtain ⟨symbols, kept⟩ := symbols_of_storeSymbols (s := s)
    (t := retire { s with mem := awgnBpskMem σ n s, rsymN := countWord n, sigma := σ, draws := s.draws + 1 }) rfl rfl
  refine ⟨awgnBpskMem σ n s, _, hexec, rfl, fun i hi => ⟨(symbols i hi).2, ?_⟩, kept⟩
  obtain ⟨p, q, hp, hq, hp51, hq51, hsum⟩ := addNoise_eq s.draws (4 + 4 * i) σ (symRe s i) (noise s i)
  exact ⟨p, q, hp, hq, hp51, hq51, (symbols i hi).1.trans hsum⟩

/-- Settles O44: noise on both parts, from the symbol loop. -/
theorem awgnQpskCompletes : Obligations.AwgnQpskCompletes := by
  intro s n σ hsym h1 hmax hσ hfin
  have hsigma : σ = sigmaQpsk s.draws s.snrDb := hσ
  have hexec := exec_awgnQpsk hsym h1 hmax (hsigma ▸ hfin)
  rw [← hsigma, awgnQpskBody_eq] at hexec
  obtain ⟨symbols, kept⟩ := symbols_of_storeSymbols (s := s)
    (t := retire { s with mem := awgnQpskMem σ n s, rsymN := countWord n, sigma := σ, draws := s.draws + 1 }) rfl rfl
  refine ⟨awgnQpskMem σ n s, _, hexec, rfl, fun k hk => ?_, kept⟩
  obtain ⟨p, q, hp, hq, hp51, hq51, hre⟩ := addNoise_eq s.draws (4 + 4 * k) σ (symRe s k) (noise s k)
  obtain ⟨p', q', hp', hq', hp51', hq51', him⟩ := addNoise_eq s.draws (6 + 4 * k) σ (symIm s k) (noise s (n + k))
  exact ⟨p, q, p', q', hp, hq, hp51, hq51, hp', hq', hp51', hq51', (symbols k hk).1.trans hre,
    (symbols k hk).2.trans him⟩

/-! ### DEMOD -/

theorem exec_demodBpsk {s : State} {n : Nat} (hsym : u64 s.rsymN = n) (h1 : 1 ≤ n) (hmax : n ≤ s.nMax) :
    exec .demodBpsk s = .next (retire (demodBpskBody n s)) := by
  subst hsym
  exact exec_of_rule_ok (demodBpskRule_ok.mpr ⟨(demodBpskCountValid_iff s).mpr ⟨h1, hmax⟩, rfl⟩)

theorem exec_demodQpsk {s : State} {n : Nat} (hsym : u64 s.rsymN = n) (h1 : 1 ≤ n) (hmax : n ≤ s.nMax / 2) :
    exec .demodQpsk s = .next (retire (demodQpskBody n s)) := by
  subst hsym
  exact exec_of_rule_ok (demodQpskRule_ok.mpr ⟨(demodQpskCountValid_iff s).mpr ⟨h1, hmax⟩, rfl⟩)

/-- Settles O45: the decisions on the real parts, from the bit loop. -/
theorem demodBpskCompletes : Obligations.DemodBpskCompletes := by
  intro s n hsym h1 hmax
  have hexec := exec_demodBpsk hsym h1 hmax
  rw [demodBpskBody_eq] at hexec
  have bits := bitAt_of_storeBits (s := s) (t := retire { s with mem := demodBpskMem n s, rxN := countWord n }) rfl rfl
  refine ⟨demodBpskMem n s, _, hexec, rfl, fun i hi => (bits i).trans (if_pos hi), fun i hi => ?_,
    keptOutside_of_storeBits h1 rfl rfl⟩
  exact (bits i).trans (if_neg (Nat.not_lt.mpr hi))

theorem qpskDecision_even (s : State) (k : Nat) : qpskDecision s (2 * k) = gt0 (rsymRe s k) := by
  rw [qpskDecision, if_pos (by omega), show 2 * k / 2 = k by omega, decide64]

theorem qpskDecision_odd (s : State) (k : Nat) : qpskDecision s (2 * k + 1) = gt0 (rsymIm s k) := by
  rw [qpskDecision, if_neg (by omega), show (2 * k + 1) / 2 = k by omega, decide64]

/-- Settles O46: the decisions on both parts, from the bit loop. -/
theorem demodQpskCompletes : Obligations.DemodQpskCompletes := by
  intro s n hsym h1 hmax
  have hexec := exec_demodQpsk hsym h1 hmax
  rw [demodQpskBody_eq] at hexec
  have bits := bitAt_of_storeBits (s := s) (t := retire { s with mem := demodQpskMem n s, rxN := countWord (2 * n) })
    rfl rfl
  refine ⟨demodQpskMem n s, _, hexec, rfl, fun k hk => ⟨?_, ?_⟩, fun i hi => ?_,
    keptOutside_of_storeBits (by omega) rfl rfl⟩
  · exact ((bits _).trans (if_pos (by omega))).trans (qpskDecision_even s k)
  · exact ((bits _).trans (if_pos (by omega))).trans (qpskDecision_odd s k)
  · exact (bits i).trans (if_neg (Nat.not_lt.mpr hi))

/-! ### COUNT -/

/-- Settles O47: with ordered counters neither sum wraps. -/
theorem countCompletes : Obligations.CountCompletes := by
  intro s n hbits h1 hmax hrx hfits hord
  obtain ⟨herr, hbit⟩ := countBody_counters (n := n) hord hfits
  refine ⟨retire (countBody n s), (succeeds_count hbits h1 hmax hrx hfits).1, rfl, ?_, hbit⟩
  rw [differing, ← bitErrors_eq_countP]
  exact herr

end Sys2Proof.Machine
end

section
/-! RUN as the five commands (44_control.md R182 to R185): each stage reads memory and the registers that the stages
before it set, so retiring between the stages changes nothing but STATUS. -/

namespace Sys2Proof.Machine

/-! ### Retiring between the stages -/

theorem retire_retire (s : State) : retire (retire s) = retire s := rfl

theorem awgnBpskBody_retire (sigma : Word) (m : Nat) (s : State) :
    awgnBpskBody sigma m (retire s) = retire (awgnBpskBody sigma m s) := by
  have hmem : awgnBpskMem sigma m (retire s) = awgnBpskMem sigma m s :=
    storeSymbols_congr _ m rfl (fun _ => rfl) (fun _ => rfl)
  rw [awgnBpskBody_eq, awgnBpskBody_eq, hmem]
  rfl

theorem awgnQpskBody_retire (sigma : Word) (m : Nat) (s : State) :
    awgnQpskBody sigma m (retire s) = retire (awgnQpskBody sigma m s) := by
  have hmem : awgnQpskMem sigma m (retire s) = awgnQpskMem sigma m s :=
    storeSymbols_congr _ m rfl (fun _ => rfl) (fun _ => rfl)
  rw [awgnQpskBody_eq, awgnQpskBody_eq, hmem]
  rfl

theorem demodBpskBody_retire (m : Nat) (s : State) : demodBpskBody m (retire s) = retire (demodBpskBody m s) := by
  have hmem : demodBpskMem m (retire s) = demodBpskMem m s := storeBits_congr _ m rfl rfl (fun _ => rfl)
  rw [demodBpskBody_eq, demodBpskBody_eq, hmem]
  rfl

theorem demodQpskBody_retire (m : Nat) (s : State) : demodQpskBody m (retire s) = retire (demodQpskBody m s) := by
  have hmem : demodQpskMem m (retire s) = demodQpskMem m s := storeBits_congr _ _ rfl rfl (fun _ => rfl)
  rw [demodQpskBody_eq, demodQpskBody_eq, hmem]
  rfl

theorem countBody_retire (n : Nat) (s : State) : countBody n (retire s) = retire (countBody n s) := by
  rw [countBody, countBody, bitErrors_congr (s := s) (t := retire s) rfl rfl]
  rfl

theorem estimateBody_retire (s : State) : estimateBody (retire s) = retire (estimateBody s) := rfl

/-! ### The checks of the later stages -/

/-- The bit count of a command whose check passed fits a register. -/
theorem countWord_bitCount {s : State} (h : bpskCountValid s = true) :
    u64 (countWord (bitCount s).toNat) = (bitCount s).toNat :=
  countWord_toNat (Nat.lt_of_le_of_lt (bitCount_toNat_bounds h).2 (nMax_lt s))

theorem countWord_half_bitCount {s : State} (h : bpskCountValid s = true) :
    u64 (countWord ((bitCount s).toNat / 2)) = (bitCount s).toNat / 2 := by
  have hmax := (bitCount_toNat_bounds h).2
  have hlt := nMax_lt s
  exact countWord_toNat (by omega)

/-- A bit count that passed QPSK's check is even, and half of it a valid symbol count. -/
theorem bitCount_half_bounds {s : State} (h : qpskCountValid s = true) :
    2 * ((bitCount s).toNat / 2) = (bitCount s).toNat ∧ 1 ≤ (bitCount s).toNat / 2 ∧
      (bitCount s).toNat / 2 ≤ s.nMax / 2 := by
  rw [qpskCountValid_iff] at h
  rw [bitCount]
  omega

/-- AWGN where its symbol count is known to be valid. -/
theorem awgnBpskRule_of_count {u : State} {m : Nat} (hsym : u64 u.symN = m) (h1 : 1 ≤ m) (hmax : m ≤ u.nMax) :
    awgnBpskRule u =
      if isFinite (sigmaBpsk u.draws u.snrDb) then .ok (awgnBpskBody (sigmaBpsk u.draws u.snrDb) m u)
      else .error .invalidInput := by
  subst hsym
  rw [awgnBpskRule, (awgnBpskCountValid_iff u).mpr ⟨h1, hmax⟩]
  cases isFinite (sigmaBpsk u.draws u.snrDb) <;> rfl

theorem awgnQpskRule_of_count {u : State} {m : Nat} (hsym : u64 u.symN = m) (h1 : 1 ≤ m) (hmax : m ≤ u.nMax / 2) :
    awgnQpskRule u =
      if isFinite (sigmaQpsk u.draws u.snrDb) then .ok (awgnQpskBody (sigmaQpsk u.draws u.snrDb) m u)
      else .error .invalidInput := by
  subst hsym
  rw [awgnQpskRule, (awgnQpskCountValid_iff u).mpr ⟨h1, hmax⟩]
  cases isFinite (sigmaQpsk u.draws u.snrDb) <;> rfl

/-- DEMOD where its symbol count is known to be valid. -/
theorem demodBpskRule_of_count {u : State} {m : Nat} (hsym : u64 u.rsymN = m) (h1 : 1 ≤ m) (hmax : m ≤ u.nMax) :
    demodBpskRule u = .ok (demodBpskBody m u) := by
  subst hsym
  exact demodBpskRule_ok.mpr ⟨(demodBpskCountValid_iff u).mpr ⟨h1, hmax⟩, rfl⟩

theorem demodQpskRule_of_count {u : State} {m : Nat} (hsym : u64 u.rsymN = m) (h1 : 1 ≤ m) (hmax : m ≤ u.nMax / 2) :
    demodQpskRule u = .ok (demodQpskBody m u) := by
  subst hsym
  exact demodQpskRule_ok.mpr ⟨(demodQpskCountValid_iff u).mpr ⟨h1, hmax⟩, rfl⟩

/-- COUNT after MOD, AWGN and DEMOD: the lengths agree, and the one check left is RUN's own. -/
theorem countRule_of_decided {s u : State} (hbits : u.nBits = s.nBits) (hmax : u.nmax = s.nmax)
    (hcnt : u.bitCnt = s.bitCnt) (hrx : u64 u.rxN = (bitCount s).toNat) (hvalid : bpskCountValid s = true) :
    countRule u =
      if bitCntOverflows s (bitCount s).toNat then .error .invalidInput
      else .ok (countBody (bitCount s).toNat u) := by
  have hcount : bitCount u = bitCount s := by rw [bitCount, bitCount, hbits]
  have hvalid' : bpskCountValid u = true := by
    rw [bpskCountValid, State.nMax, hcount, hmax]
    exact hvalid
  have hlengths : (u64 u.rxN : Int) = bitCount s := by
    have hpos := ((bpskCountValid_iff s).mp hvalid).1
    rw [hrx, bitCount]
    omega
  rw [countRule, hvalid', hcount, hlengths, bitCntOverflows, bitCntOverflows, hcnt]
  simp

/-- ESTIMATE after COUNT of at least one bit. -/
theorem estimateRule_of_counted {u : State} {n : Nat} (h1 : 1 ≤ n) (hfits : bitCntOverflows u n = false) :
    estimateRule (retire (countBody n u)) = .ok (estimateBody (retire (countBody n u))) := by
  refine estimateRule_ok.mpr ⟨?_, rfl⟩
  rw [← Bool.not_eq_true, bitCntOverflows_iff] at hfits
  have hsum : u64 (retire (countBody n u)).bitCnt = u64 u.bitCnt + n := countWord_toNat (by omega)
  omega

/-! ### The stages of RUN -/

/-- What RUN of one scheme and the commands of that scheme do from `s`: RUN makes at once the checks that the commands
make on the way (`valid`, `finite` and COUNT's), and none of their other checks can fail. -/
structure RunStages (run mod awgn demod : Instr) (s : State) where
  valid : Bool
  finite : Bool
  sent : State
  received : State
  decided : State
  ended : State
  valid_count : valid = true → bpskCountValid s = true
  mod_eq : ruleOf mod s = if valid then .ok sent else .error .invalidInput
  awgn_eq : valid = true → ruleOf awgn (retire sent) = if finite then .ok received else .error .invalidInput
  demod_eq : valid = true → ruleOf demod (retire received) = .ok decided
  decided_nBits : decided.nBits = s.nBits
  decided_nmax : decided.nmax = s.nmax
  decided_bitCnt : decided.bitCnt = s.bitCnt
  decided_rxN : valid = true → u64 decided.rxN = (bitCount s).toNat
  run_eq : ruleOf run s =
    if !valid then .error .invalidInput
    else if !finite then .error .invalidInput
    else if bitCntOverflows s (bitCount s).toNat then .error .invalidInput
    else .ok ended
  ended_eq : retire ended = retire (estimateBody (countBody (bitCount s).toNat decided))

section
variable {run mod awgn demod : Instr} {s : State}

/-- COUNT's overflow check, which RUN makes before its first stage. -/
def RunStages.overflow (_ : RunStages run mod awgn demod s) : Bool := bitCntOverflows s (bitCount s).toNat

/-- RUN's checks in their order. -/
theorem RunStages.run_checks (st : RunStages run mod awgn demod s) :
    ruleOf run s =
      if !st.valid then .error .invalidInput
      else if !st.finite then .error .invalidInput
      else if st.overflow then .error .invalidInput
      else .ok st.ended := st.run_eq

/-- The state COUNT's effects leave. -/
def RunStages.counted (st : RunStages run mod awgn demod s) : State := countBody (bitCount s).toNat (retire st.decided)

/-- The state ESTIMATE's effects leave. -/
def RunStages.estimated (st : RunStages run mod awgn demod s) : State := estimateBody (retire st.counted)

theorem RunStages.count_eq (st : RunStages run mod awgn demod s) (hv : st.valid = true) :
    ruleOf .count (retire st.decided) = if st.overflow then .error .invalidInput else .ok st.counted :=
  countRule_of_decided (u := retire st.decided) st.decided_nBits st.decided_nmax st.decided_bitCnt (st.decided_rxN hv)
    (st.valid_count hv)

theorem RunStages.estimate_eq (st : RunStages run mod awgn demod s) (hv : st.valid = true)
    (ho : st.overflow = false) : ruleOf .estimate (retire st.counted) = .ok st.estimated := by
  refine estimateRule_of_counted (bitCount_toNat_bounds (st.valid_count hv)).1 ?_
  rw [bitCntOverflows, retire_bitCnt, st.decided_bitCnt]
  exact ho

theorem RunStages.retire_ended (st : RunStages run mod awgn demod s) : retire st.ended = retire st.estimated := by
  rw [st.ended_eq, estimated, counted, countBody_retire, retire_retire, estimateBody_retire, retire_retire]

theorem RunStages.succeeds_run (st : RunStages run mod awgn demod s) (t : State) :
    Succeeds run s t ↔ st.valid = true ∧ st.finite = true ∧ st.overflow = false ∧ t = retire st.estimated := by
  rw [succeeds_iff, st.run_checks, ← st.retire_ended]
  cases st.valid <;> cases st.finite <;> cases st.overflow <;> simp [eq_comm]

theorem RunStages.succeeds_chain (st : RunStages run mod awgn demod s) (t : State) :
    (∃ s₁ s₂ s₃ s₄ : State, Succeeds mod s s₁ ∧ Succeeds awgn s₁ s₂ ∧ Succeeds demod s₂ s₃ ∧
      Succeeds .count s₃ s₄ ∧ Succeeds .estimate s₄ t) ↔
      st.valid = true ∧ st.finite = true ∧ st.overflow = false ∧ t = retire st.estimated := by
  simp only [succeeds_iff, st.mod_eq]
  cases hv : st.valid with
  | false => simp
  | true =>
    cases hf : st.finite with
    | false => simp [st.awgn_eq hv, hf]
    | true =>
      cases ho : st.overflow with
      | true => simp [st.awgn_eq hv, st.demod_eq hv, st.count_eq hv, hf, ho]
      | false => simp [st.awgn_eq hv, st.demod_eq hv, st.count_eq hv, st.estimate_eq hv ho, hf, ho]

/-- The first stage whose check fails gives RUN's error. -/
theorem RunStages.fails (st : RunStages run mod awgn demod s) {e : CmdError} (h : Fails run s e) :
    Fails mod s e ∨ (∃ s₁, Succeeds mod s s₁ ∧ Fails awgn s₁ e) ∨
      (∃ s₁ s₂ s₃, Succeeds mod s s₁ ∧ Succeeds awgn s₁ s₂ ∧ Succeeds demod s₂ s₃ ∧ Fails .count s₃ e) := by
  rw [fails_iff, st.run_checks] at h
  cases hv : st.valid with
  | false =>
    rw [hv] at h
    cases h
    exact .inl (fails_iff.mpr (by rw [st.mod_eq, hv]; rfl))
  | true =>
    have hmod : Succeeds mod s (retire st.sent) := succeeds_iff.mpr ⟨_, by rw [st.mod_eq, hv]; rfl, rfl⟩
    cases hf : st.finite with
    | false =>
      rw [hv, hf] at h
      cases h
      exact .inr (.inl ⟨_, hmod, fails_iff.mpr (by rw [st.awgn_eq hv, hf]; rfl)⟩)
    | true =>
      have hawgn : Succeeds awgn (retire st.sent) (retire st.received) :=
        succeeds_iff.mpr ⟨_, by rw [st.awgn_eq hv, hf]; rfl, rfl⟩
      have hdemod : Succeeds demod (retire st.received) (retire st.decided) :=
        succeeds_iff.mpr ⟨_, st.demod_eq hv, rfl⟩
      cases ho : st.overflow with
      | true =>
        rw [hv, hf, ho] at h
        cases h
        exact .inr (.inr ⟨_, _, _, hmod, hawgn, hdemod, fails_iff.mpr (by rw [st.count_eq hv, ho]; rfl)⟩)
      | false =>
        rw [hv, hf, ho] at h
        cases h

end

/-! ### The stages of each scheme -/

/-- RUN.BPSK's state after MOD's effects. -/
def bpskSent (s : State) : State := modBpskBody (bitCount s).toNat s

/-- RUN.BPSK's state after AWGN's effects, with the deviation of the state RUN began in. -/
def bpskReceived (s : State) : State :=
  awgnBpskBody (sigmaBpsk s.draws s.snrDb) (bitCount s).toNat (retire (bpskSent s))

/-- RUN.BPSK's state after DEMOD's effects. -/
def bpskDecided (s : State) : State := demodBpskBody (bitCount s).toNat (retire (bpskReceived s))

theorem bpskSent_facts (s : State) :
    (bpskSent s).symN = countWord (bitCount s).toNat ∧ (bpskSent s).nMax = s.nMax ∧ (bpskSent s).draws = s.draws ∧
      (bpskSent s).snrDb = s.snrDb := by
  simp [bpskSent, modBpskBody_eq, State.nMax]

theorem bpskReceived_facts (s : State) :
    (bpskReceived s).rsymN = countWord (bitCount s).toNat ∧ (bpskReceived s).nMax = s.nMax := by
  simp [bpskReceived, bpskSent, awgnBpskBody_eq, modBpskBody_eq, State.nMax]

theorem bpskDecided_facts (s : State) :
    (bpskDecided s).rxN = countWord (bitCount s).toNat ∧ (bpskDecided s).nBits = s.nBits ∧
      (bpskDecided s).nmax = s.nmax ∧ (bpskDecided s).bitCnt = s.bitCnt := by
  simp [bpskDecided, bpskReceived, bpskSent, demodBpskBody_eq, awgnBpskBody_eq, modBpskBody_eq]

/-- The stages of RUN.BPSK. -/
def bpskStages (s : State) : RunStages .runBpsk .modBpsk .awgnBpsk .demodBpsk s where
  valid := bpskCountValid s
  finite := isFinite (sigmaBpsk s.draws s.snrDb)
  sent := bpskSent s
  received := bpskReceived s
  decided := bpskDecided s
  ended := runBpskBody (sigmaBpsk s.draws s.snrDb) (bitCount s).toNat s
  valid_count := id
  mod_eq := rfl
  awgn_eq hvalid := by
    obtain ⟨hsym, hmax, hdraws, hsnr⟩ := bpskSent_facts s
    obtain ⟨h1, hn⟩ := bitCount_toNat_bounds hvalid
    rw [ruleOf, awgnBpskRule_of_count (u := retire (bpskSent s)) (by rw [retire_symN, hsym, countWord_bitCount hvalid])
      h1 (by rwa [retire_nMax, hmax]), retire_draws, retire_snrDb, hdraws, hsnr]
    rfl
  demod_eq hvalid := by
    obtain ⟨hsym, hmax⟩ := bpskReceived_facts s
    obtain ⟨h1, hn⟩ := bitCount_toNat_bounds hvalid
    exact demodBpskRule_of_count (u := retire (bpskReceived s))
      (by rw [retire_rsymN, hsym, countWord_bitCount hvalid]) h1 (by rwa [retire_nMax, hmax])
  decided_nBits := (bpskDecided_facts s).2.1
  decided_nmax := (bpskDecided_facts s).2.2.1
  decided_bitCnt := (bpskDecided_facts s).2.2.2
  decided_rxN hvalid := by rw [(bpskDecided_facts s).1, countWord_bitCount hvalid]
  run_eq := rfl
  ended_eq := by
    rw [bpskDecided, bpskReceived, bpskSent, awgnBpskBody_retire, retire_retire, demodBpskBody_retire, countBody_retire,
      estimateBody_retire, retire_retire]
    rfl

/-- RUN.QPSK's state after MOD's effects. -/
def qpskSent (s : State) : State := modQpskBody (bitCount s).toNat s

/-- RUN.QPSK's state after AWGN's effects, with the deviation of the state RUN began in. -/
def qpskReceived (s : State) : State :=
  awgnQpskBody (sigmaQpsk s.draws s.snrDb) ((bitCount s).toNat / 2) (retire (qpskSent s))

/-- RUN.QPSK's state after DEMOD's effects. -/
def qpskDecided (s : State) : State := demodQpskBody ((bitCount s).toNat / 2) (retire (qpskReceived s))

theorem qpskSent_facts (s : State) :
    (qpskSent s).symN = countWord ((bitCount s).toNat / 2) ∧ (qpskSent s).nMax = s.nMax ∧
      (qpskSent s).draws = s.draws ∧ (qpskSent s).snrDb = s.snrDb := by
  simp [qpskSent, modQpskBody_eq, State.nMax]

theorem qpskReceived_facts (s : State) :
    (qpskReceived s).rsymN = countWord ((bitCount s).toNat / 2) ∧ (qpskReceived s).nMax = s.nMax := by
  simp [qpskReceived, qpskSent, awgnQpskBody_eq, modQpskBody_eq, State.nMax]

theorem qpskDecided_facts (s : State) :
    (qpskDecided s).rxN = countWord (2 * ((bitCount s).toNat / 2)) ∧ (qpskDecided s).nBits = s.nBits ∧
      (qpskDecided s).nmax = s.nmax ∧ (qpskDecided s).bitCnt = s.bitCnt := by
  simp [qpskDecided, qpskReceived, qpskSent, demodQpskBody_eq, awgnQpskBody_eq, modQpskBody_eq]

/-- The stages of RUN.QPSK. -/
def qpskStages (s : State) : RunStages .runQpsk .modQpsk .awgnQpsk .demodQpsk s where
  valid := qpskCountValid s
  finite := isFinite (sigmaQpsk s.draws s.snrDb)
  sent := qpskSent s
  received := qpskReceived s
  decided := qpskDecided s
  ended := runQpskBody (sigmaQpsk s.draws s.snrDb) (bitCount s).toNat s
  valid_count := bpskCountValid_of_qpsk
  mod_eq := rfl
  awgn_eq hvalid := by
    obtain ⟨hsym, hmax, hdraws, hsnr⟩ := qpskSent_facts s
    obtain ⟨_, h1, hn⟩ := bitCount_half_bounds hvalid
    have hfits := countWord_half_bitCount (bpskCountValid_of_qpsk hvalid)
    rw [ruleOf, awgnQpskRule_of_count (u := retire (qpskSent s)) (by rw [retire_symN, hsym, hfits])
      h1 (by rwa [retire_nMax, hmax]), retire_draws, retire_snrDb, hdraws, hsnr]
    rfl
  demod_eq hvalid := by
    obtain ⟨hsym, hmax⟩ := qpskReceived_facts s
    obtain ⟨_, h1, hn⟩ := bitCount_half_bounds hvalid
    have hfits := countWord_half_bitCount (bpskCountValid_of_qpsk hvalid)
    exact demodQpskRule_of_count (u := retire (qpskReceived s)) (by rw [retire_rsymN, hsym, hfits]) h1
      (by rwa [retire_nMax, hmax])
  decided_nBits := (qpskDecided_facts s).2.1
  decided_nmax := (qpskDecided_facts s).2.2.1
  decided_bitCnt := (qpskDecided_facts s).2.2.2
  decided_rxN hvalid := by
    rw [(qpskDecided_facts s).1, (bitCount_half_bounds hvalid).1, countWord_bitCount (bpskCountValid_of_qpsk hvalid)]
  run_eq := rfl
  ended_eq := by
    rw [qpskDecided, qpskReceived, qpskSent, awgnQpskBody_retire, retire_retire, demodQpskBody_retire, countBody_retire,
      estimateBody_retire, retire_retire]
    rfl

/-- An error of a command leaves everything but STATUS. -/
theorem exec_of_fails {i : Instr} {s : State} {e : CmdError} (h : Fails i s e) :
    exec i s = .next { s with status := statusError s.status e } := by
  rw [exec_of_rule_error (fails_iff.mp h), raise_eq]

/-- Settles O51: each scheme's RUN and its five commands go through the same stages. -/
theorem runIsTheFiveCommands : Obligations.RunIsTheFiveCommands := by
  intro run mod awgn demod hmem
  suffices hstages : Nonempty (∀ s, RunStages run mod awgn demod s) by
    obtain ⟨stages⟩ := hstages
    exact ⟨fun s t => ((stages s).succeeds_run t).trans ((stages s).succeeds_chain t).symm,
      fun s e h => ⟨exec_of_fails h, (stages s).fails h⟩⟩
  simp only [List.mem_cons, List.not_mem_nil, or_false, Prod.mk.injEq] at hmem
  rcases hmem with ⟨rfl, rfl, rfl, rfl⟩ | ⟨rfl, rfl, rfl, rfl⟩
  · exact ⟨bpskStages⟩
  · exact ⟨qpskStages⟩

end Sys2Proof.Machine
end

section
/-! RUN whose checks pass (44_control.md R182 to R184): the five commands' results, carried over the bytes that each stage
leaves alone. -/

namespace Sys2Proof.Machine

/-! ### What the stages leave of each other's results -/

/-- The frames of MOD, AWGN and DEMOD, one after another, for m symbols and n bits. -/
structure RunFrames (s s₁ s₂ s₃ : State) (m n : Nat) : Prop where
  capacity : s.nMax ≤ 1048576
  bits_pos : 1 ≤ n
  bits_le : n ≤ s.nMax
  symbols_le : m ≤ n
  mod : KeptOutside s s₁ (reAddr symBase 0) (reAddr symBase m)
  awgn : KeptOutside s₁ s₂ (reAddr rsymBase 0) (reAddr rsymBase m)
  demod : KeptOutside s₂ s₃ (bitWordAddr rxbBase 0) (bitWordAddr rxbBase (n - 1) + 8)

section
variable {s s₁ s₂ s₃ : State} {m n : Nat}

/-- TXB lies below every byte the stages write. -/
theorem RunFrames.txb_eq (f : RunFrames s s₁ s₂ s₃ m n) {i : Nat} (hi : i < s.nMax) : txb s₃ i = txb s i := by
  have hcap := f.capacity
  have below : bitWordAddr txbBase i + 8 ≤ rxbBase := by
    simp only [bitWordAddr, txbBase, rxbBase]; omega
  have order : rxbBase < symBase ∧ symBase < rsymBase := by decide
  rw [txb, txb, f.demod.bitAt (.inl below), f.awgn.bitAt (.inl (by rw [reAddr]; omega)),
    f.mod.bitAt (.inl (by rw [reAddr]; omega))]

/-- Before DEMOD, RXB is as before RUN. -/
theorem RunFrames.rxb_eq (f : RunFrames s s₁ s₂ s₃ m n) {i : Nat} (hi : i < s.nMax) : rxb s₂ i = rxb s i := by
  have hcap := f.capacity
  have below : bitWordAddr rxbBase i + 8 ≤ symBase := by
    simp only [bitWordAddr, rxbBase, symBase]; omega
  have order : symBase < rsymBase := by decide
  rw [rxb, rxb, f.awgn.bitAt (.inl (by rw [reAddr]; omega)), f.mod.bitAt (.inl (by rw [reAddr]; omega))]

/-- NOISE lies below SYM. -/
theorem RunFrames.noise_eq (f : RunFrames s s₁ s₂ s₃ m n) {j : Nat} (hj : j < s.nMax) : noise s₁ j = noise s j := by
  have hcap := f.capacity
  refine f.mod.readWord (.inl ?_)
  simp only [noiseAddr, reAddr, noiseBase, symBase]
  omega

/-- A word of SYM's entries below m lies outside what AWGN and DEMOD write. -/
theorem RunFrames.symWord_eq (f : RunFrames s s₁ s₂ s₃ m n) {a : Nat} (hlo : symBase ≤ a)
    (hhi : a + 8 ≤ symBase + 16 * m) : readWord s₃ a = readWord s₁ a := by
  have hcap := f.capacity
  have hn := f.bits_le
  have hm := f.symbols_le
  simp only [symBase] at hlo hhi
  have hdemod : bitWordAddr rxbBase (n - 1) + 8 ≤ a := by simp only [bitWordAddr, rxbBase]; omega
  have hawgn : a + 8 ≤ reAddr rsymBase 0 := by simp only [reAddr, rsymBase]; omega
  rw [f.demod.readWord (.inr hdemod), f.awgn.readWord (.inl hawgn)]

theorem RunFrames.sym_eq (f : RunFrames s s₁ s₂ s₃ m n) {k : Nat} (hk : k < m) :
    symRe s₃ k = symRe s₁ k ∧ symIm s₃ k = symIm s₁ k :=
  ⟨f.symWord_eq (by rw [reAddr]; omega) (by rw [reAddr]; omega),
    f.symWord_eq (by rw [imAddr]; omega) (by rw [imAddr]; omega)⟩

/-- RSYM lies above what DEMOD writes. -/
theorem RunFrames.rsymWord_eq (f : RunFrames s s₁ s₂ s₃ m n) {a : Nat} (hlo : rsymBase ≤ a) :
    readWord s₃ a = readWord s₂ a := by
  have hcap := f.capacity
  have hn := f.bits_le
  refine f.demod.readWord (.inr ?_)
  simp only [bitWordAddr, rxbBase, rsymBase] at hlo ⊢
  omega

theorem RunFrames.rsym_eq (f : RunFrames s s₁ s₂ s₃ m n) (k : Nat) :
    rsymRe s₃ k = rsymRe s₂ k ∧ rsymIm s₃ k = rsymIm s₂ k :=
  ⟨f.rsymWord_eq (by rw [reAddr]; omega), f.rsymWord_eq (by rw [imAddr]; omega)⟩

theorem RunFrames.byte_eq (f : RunFrames s s₁ s₂ s₃ m n) {a : Nat}
    (hsym : a < reAddr symBase 0 ∨ reAddr symBase m ≤ a) (hrsym : a < reAddr rsymBase 0 ∨ reAddr rsymBase m ≤ a)
    (hrxb : a < bitWordAddr rxbBase 0 ∨ bitWordAddr rxbBase (n - 1) + 8 ≤ a) : readByte s₃ a = readByte s a := by
  rw [f.demod a hrxb, f.awgn a hrsym, f.mod a hsym]

/-- The errors that COUNT finds are those between the bits sent and the bits decided. -/
theorem RunFrames.differing_eq (f : RunFrames s s₁ s₂ s₃ m n) : differing s₃ s₃ n = differing s s₃ n := by
  refine List.countP_congr fun i hi => ?_
  have hlt := List.mem_range.mp hi
  have hn := f.bits_le
  rw [f.txb_eq (show i < s.nMax by omega)]

end

/-! ### COUNT, then ESTIMATE -/

/-- COUNT and ESTIMATE of n bits: the counters' sums and their rounded ratio. -/
theorem count_then_estimate {s : State} {n : Nat} (hbits : s64 s.nBits = n) (h1 : 1 ≤ n) (hmax : n ≤ s.nMax)
    (hrx : u64 s.rxN = n) (hfits : u64 s.bitCnt + n ≤ 2 ^ 64 - 1) (hord : CountersOrdered s) :
    ∃ (e b : Word) (t : State), Succeeds .count s t ∧
      Succeeds .estimate t { s with errCnt := e, bitCnt := b, ber := rnd64 (u64 e) (u64 b),
                                    status := statusOk s.status } ∧
      u64 e = u64 s.errCnt + differing s s n ∧ u64 b = u64 s.bitCnt + n := by
  obtain ⟨t, hcount, ht, herr, hbit⟩ := countCompletes s n hbits h1 hmax hrx hfits hord
  have hne : u64 t.bitCnt ≠ 0 := by omega
  refine ⟨t.errCnt, t.bitCnt, t, ⟨hcount, by rw [ht]; rfl⟩, succeeds_estimate_iff.mpr ⟨hne, ?_⟩, herr, hbit⟩
  generalize t.errCnt = e at ht
  generalize t.bitCnt = b at ht
  subst ht
  rfl

/-- RUN from its first three stages: COUNT and ESTIMATE end it. -/
theorem run_completes_of_demod {run mod awgn demod : Instr} {s s₁ s₂ s₃ : State} {m n : Nat} {mem : Memory} {σ : Word}
    (hmem : (run, mod, awgn, demod) ∈
      [(Instr.runBpsk, Instr.modBpsk, Instr.awgnBpsk, Instr.demodBpsk), (.runQpsk, .modQpsk, .awgnQpsk, .demodQpsk)])
    (hmod : Succeeds mod s s₁) (hawgn : Succeeds awgn s₁ s₂) (hdemod : Succeeds demod s₂ s₃)
    (frames : RunFrames s s₁ s₂ s₃ m n)
    (h₃ : s₃ = { s with mem := mem, symN := countWord m, rsymN := countWord m, rxN := countWord n, sigma := σ,
                        draws := s.draws + 1, status := statusOk s.status })
    (hbits : s64 s.nBits = n) (hfits : u64 s.bitCnt + n ≤ 2 ^ 64 - 1) (hord : CountersOrdered s) :
    ∃ e b : Word,
      exec run s = .next { s₃ with errCnt := e, bitCnt := b, ber := rnd64 (u64 e) (u64 b) } ∧
        u64 e = u64 s.errCnt + differing s s₃ n ∧ u64 b = u64 s.bitCnt + n := by
  have hrx : u64 s₃.rxN = n := by
    rw [h₃]; exact countWord_toNat (Nat.lt_of_le_of_lt frames.bits_le (nMax_lt s))
  obtain ⟨e, b, s₄, count, estimate, herr, hbit⟩ := count_then_estimate (s := s₃) (n := n) (by rw [h₃]; exact hbits)
    frames.bits_pos (by rw [h₃]; exact frames.bits_le) hrx (by rw [h₃]; exact hfits) (by rw [h₃]; exact hord)
  have hstatus : statusOk s₃.status = s₃.status := by rw [h₃]; rfl
  have herrCnt : s₃.errCnt = s.errCnt := by rw [h₃]
  have hbitCnt : s₃.bitCnt = s.bitCnt := by rw [h₃]
  rw [hstatus] at estimate
  rw [frames.differing_eq, herrCnt] at herr
  rw [hbitCnt] at hbit
  have hrun := ((runIsTheFiveCommands run mod awgn demod hmem).1 s _).mpr
    ⟨s₁, s₂, s₃, s₄, hmod, hawgn, hdemod, count, estimate⟩
  exact ⟨e, b, hrun.1, herr, hbit⟩

/-! ### The statements -/

/-- Settles O49: RUN is the five commands, each complete, and the frames carry each result to the end. -/
theorem runBpskCompletes : Obligations.RunBpskCompletes := by
  intro s n σ hcap hord hbits h1 hmax hσ hfin hfits
  have hcount : u64 (countWord n) = n := countWord_toNat (Nat.lt_of_le_of_lt hmax (nMax_lt s))
  obtain ⟨m₁, s₁, exec₁, eq₁, symbols, mod⟩ := modBpskCompletes s n hbits h1 hmax
  obtain ⟨m₂, s₂, exec₂, eq₂, received, awgn⟩ :=
    awgnBpskCompletes s₁ n σ (by rw [eq₁]; exact hcount) h1 (by rw [eq₁]; exact hmax) (by rw [eq₁]; exact hσ) hfin
  obtain ⟨m₃, s₃, exec₃, eq₃, decided, others, demod⟩ :=
    demodBpskCompletes s₂ n (by rw [eq₂]; exact hcount) h1 (by rw [eq₂, eq₁]; exact hmax)
  have frames : RunFrames s s₁ s₂ s₃ n n := ⟨hcap.2.2, h1, hmax, Nat.le_refl n, mod, awgn, demod⟩
  have state : s₃ = { s with mem := m₃, symN := countWord n, rsymN := countWord n, rxN := countWord n, sigma := σ,
                             draws := s.draws + 1, status := statusOk s.status } := by
    rw [eq₃, eq₂, eq₁]; rfl
  obtain ⟨e, b, run, herr, hbit⟩ := run_completes_of_demod (.head _) ⟨exec₁, by rw [eq₁]; rfl⟩
    ⟨exec₂, by rw [eq₂]; rfl⟩ ⟨exec₃, by rw [eq₃]; rfl⟩ frames state hbits hfits hord
  refine ⟨m₃, _, run, by rw [state]; rfl, fun i hi => ?_, fun i hi hlt => (others i hi).trans (frames.rxb_eq hlt), herr,
    hbit, rfl, fun a => frames.byte_eq⟩
  obtain ⟨hre, him⟩ := symbols i hi
  obtain ⟨hrim, p, q, hp, hq, hp51, hq51, hrre⟩ := received i hi
  obtain ⟨hsymRe, hsymIm⟩ := frames.sym_eq hi
  obtain ⟨hrsymRe, hrsymIm⟩ := frames.rsym_eq i
  rw [frames.noise_eq (by omega), ← hsymRe] at hrre
  exact ⟨hsymRe.trans hre, hsymIm.trans him, ⟨p, q, hp, hq, hp51, hq51, hrsymRe.trans hrre⟩,
    (hrsymIm.trans hrim).trans him, (decided i hi).trans (congrArg gt0 hrsymRe.symm)⟩

/-- Settles O50: as for BPSK, with half as many symbols, and noise on both parts. -/
theorem runQpskCompletes : Obligations.RunQpskCompletes := by
  intro s n σ hcap hord hbits h1 hmax heven hσ hfin hfits
  have hlt := nMax_lt s
  have hcount : u64 (countWord (n / 2)) = n / 2 := countWord_toNat (by omega)
  have hhalf : 2 * (n / 2) = n := by omega
  have hhalfMax : n / 2 ≤ s.nMax / 2 := by omega
  obtain ⟨m₁, s₁, exec₁, eq₁, symbols, mod⟩ := modQpskCompletes s n hbits h1 hmax heven
  obtain ⟨m₂, s₂, exec₂, eq₂, received, awgn⟩ :=
    awgnQpskCompletes s₁ (n / 2) σ (by rw [eq₁]; exact hcount) (by omega) (by rw [eq₁]; exact hhalfMax)
      (by rw [eq₁]; exact hσ) hfin
  have demodulated := demodQpskCompletes s₂ (n / 2) (by rw [eq₂]; exact hcount) (by omega)
    (by rw [eq₂, eq₁]; exact hhalfMax)
  rw [hhalf] at demodulated
  obtain ⟨m₃, s₃, exec₃, eq₃, decided, others, demod⟩ := demodulated
  have frames : RunFrames s s₁ s₂ s₃ (n / 2) n := ⟨hcap.2.2, h1, hmax, Nat.div_le_self n 2, mod, awgn, demod⟩
  have state : s₃ = { s with mem := m₃, symN := countWord (n / 2), rsymN := countWord (n / 2), rxN := countWord n,
                             sigma := σ, draws := s.draws + 1, status := statusOk s.status } := by
    rw [eq₃, eq₂, eq₁]; rfl
  obtain ⟨e, b, run, herr, hbit⟩ := run_completes_of_demod (.tail _ (.head _)) ⟨exec₁, by rw [eq₁]; rfl⟩
    ⟨exec₂, by rw [eq₂]; rfl⟩ ⟨exec₃, by rw [eq₃]; rfl⟩ frames state hbits hfits hord
  refine ⟨m₃, _, run, by rw [state]; rfl, fun k hk => ?_, fun i hi hlt => (others i hi).trans (frames.rxb_eq hlt), herr,
    hbit, rfl, fun a => frames.byte_eq⟩
  obtain ⟨hre, him⟩ := symbols k hk
  obtain ⟨p, q, p', q', hp, hq, hp51, hq51, hp', hq', hp51', hq51', hrre, hrim⟩ := received k hk
  obtain ⟨hsymRe, hsymIm⟩ := frames.sym_eq hk
  obtain ⟨hrsymRe, hrsymIm⟩ := frames.rsym_eq k
  obtain ⟨hdecRe, hdecIm⟩ := decided k hk
  rw [frames.noise_eq (by omega), ← hsymRe] at hrre
  rw [frames.noise_eq (by omega), ← hsymIm] at hrim
  exact ⟨hsymRe.trans hre, hsymIm.trans him,
    ⟨p, q, p', q', hp, hq, hp51, hq51, hp', hq', hp51', hq51', hrsymRe.trans hrre, hrsymIm.trans hrim⟩,
    hdecRe.trans (congrArg gt0 hrsymRe.symm), hdecIm.trans (congrArg gt0 hrsymIm.symm)⟩

end Sys2Proof.Machine
end
